-- ==== Sys2Proof/Word.lean ====
section
/-! DEFINITION. The word types of the block: bytes of the buffer memory, 16-bit dimensions and colour words, 32-bit
registers and command words, the 64-bit RESULT. -/

namespace Sys2Proof

/-- One byte of the buffer memory, one colour channel (R210, R10). -/
abbrev Byte := BitVec 8

/-- A 16-bit number: an image dimension (R118) or an RGB565 colour word (R320). -/
abbrev Half := BitVec 16

/-- A 32-bit register or command word (R110, R300). -/
abbrev Word := BitVec 32

/-- The 64-bit RESULT (R119). -/
abbrev DWord := BitVec 64

end Sys2Proof
end

