-- ==== Sys2Proof/Syntax.lean ====
section
/-! DEFINITION. The commands of the block as syntax: the format names of R330 and one constructor per row of
spec/opcode_table.json (R301). -/

namespace Sys2Proof

/-- The VTF format codes of R330. Codes 27 to 255 name no format and are kept as `unknown`. -/
inductive Format where
  | rgba8888 | abgr8888 | rgb888 | bgr888 | rgb565 | i8 | ia88 | p8 | a8
  | rgb888Bluescreen | bgr888Bluescreen | argb8888 | bgra8888 | dxt1 | dxt3 | dxt5
  | bgrx8888 | bgr565 | bgrx5551 | bgra4444 | dxt1OneBitAlpha | bgra5551 | uv88
  | uvwq8888 | rgba16161616f | rgba16161616 | uvlx8888
  /-- A code the numbering of R330 does not name (27 to 255). -/
  | unknown (code : Byte)
deriving DecidableEq, Repr

/-- A command of the opcode map (R301) with its own fields (R302): `FMT` where the command uses it, `A` for
`DEC_DXT1_TILE`. Every other operand comes from the snapshot. -/
inductive Instr where
  /-- `ENC_DXT1_TILE` (R470). -/
  | encDxt1Tile
  /-- `ENC_DXT5_TILE` (R471). -/
  | encDxt5Tile
  /-- `DEC_DXT1_TILE a=<hasAlpha>` (R420). -/
  | decDxt1Tile (hasAlpha : Bool)
  /-- `DEC_DXT3_TILE` (R421). -/
  | decDxt3Tile
  /-- `DEC_DXT5_TILE` (R422). -/
  | decDxt5Tile
  /-- `ENC_IMAGE fmt=<fmt>` (R521). -/
  | encImage (fmt : Format)
  /-- `DEC_IMAGE fmt=<fmt>` (R520). -/
  | decImage (fmt : Format)
  /-- `MIP_DOWN` (R560). -/
  | mipDown
  /-- `SIZE fmt=<fmt>` (R582). -/
  | size (fmt : Format)
deriving DecidableEq, Repr

end Sys2Proof
end

