-- ==== Sys2Proof/WellFormed.lean ====
section
/-! DEFINITION. Which terms of the syntax stand for a command word: the one check is that `unknown` carries a code
that R330 does not name. -/

namespace Sys2Proof

/-- A format is well formed when an `unknown` code is one of 27 to 255 (R330). -/
def Format.wf : Format → Bool
  | .unknown c => decide (27 ≤ c.toNat)
  | _ => true

/-- A command is well formed when its format is (R302: every 8-bit FMT is a legal encoding). -/
def Instr.wf : Instr → Bool
  | .encImage f => f.wf
  | .decImage f => f.wf
  | .size f => f.wf
  | .encDxt1Tile => true
  | .encDxt5Tile => true
  | .decDxt1Tile _ => true
  | .decDxt3Tile => true
  | .decDxt5Tile => true
  | .mipDown => true

end Sys2Proof
end

