-- ==== Sys2Proof/Decode.lean ====
section
/-! DEFINITION. The command decoder of R304, total on every 32-bit word, and the encoder of R307. -/

namespace Sys2Proof

/-- The format an 8-bit FMT code names (R330). -/
def Format.ofCode (c : Byte) : Format :=
  match c.toNat with
  | 0 => .rgba8888
  | 1 => .abgr8888
  | 2 => .rgb888
  | 3 => .bgr888
  | 4 => .rgb565
  | 5 => .i8
  | 6 => .ia88
  | 7 => .p8
  | 8 => .a8
  | 9 => .rgb888Bluescreen
  | 10 => .bgr888Bluescreen
  | 11 => .argb8888
  | 12 => .bgra8888
  | 13 => .dxt1
  | 14 => .dxt3
  | 15 => .dxt5
  | 16 => .bgrx8888
  | 17 => .bgr565
  | 18 => .bgrx5551
  | 19 => .bgra4444
  | 20 => .dxt1OneBitAlpha
  | 21 => .bgra5551
  | 22 => .uv88
  | 23 => .uvwq8888
  | 24 => .rgba16161616f
  | 25 => .rgba16161616
  | 26 => .uvlx8888
  | _ => .unknown c

/-- The FMT code of a format (R330). -/
def Format.code : Format → Byte
  | .rgba8888 => 0
  | .abgr8888 => 1
  | .rgb888 => 2
  | .bgr888 => 3
  | .rgb565 => 4
  | .i8 => 5
  | .ia88 => 6
  | .p8 => 7
  | .a8 => 8
  | .rgb888Bluescreen => 9
  | .bgr888Bluescreen => 10
  | .argb8888 => 11
  | .bgra8888 => 12
  | .dxt1 => 13
  | .dxt3 => 14
  | .dxt5 => 15
  | .bgrx8888 => 16
  | .bgr565 => 17
  | .bgrx5551 => 18
  | .bgra4444 => 19
  | .dxt1OneBitAlpha => 20
  | .bgra5551 => 21
  | .uv88 => 22
  | .uvwq8888 => 23
  | .rgba16161616f => 24
  | .rgba16161616 => 25
  | .uvlx8888 => 26
  | .unknown c => c

/-- `OP = w[7:0]` (R300). -/
def opField (w : Word) : Byte := w.extractLsb' 0 8

/-- `FMT = w[15:8]` (R300). -/
def fmtField (w : Word) : Byte := w.extractLsb' 8 8

/-- `A = w[16]` (R300). -/
def aField (w : Word) : Bool := w.getLsbD 16

/-- `w[31:17]`, the reserved bits (R300). -/
def reservedField (w : Word) : BitVec 15 := w.extractLsb' 17 15

/-- The decoder (R304): `none` is `ILLEGAL`. -/
def decode (w : Word) : Option Instr :=
  if reservedField w ≠ 0 then none
  else
    match (opField w).toNat with
    | 0x01 => if fmtField w = 0 ∧ aField w = false then some .encDxt1Tile else none
    | 0x02 => if fmtField w = 0 ∧ aField w = false then some .encDxt5Tile else none
    | 0x03 => if fmtField w = 0 then some (.decDxt1Tile (aField w)) else none
    | 0x04 => if fmtField w = 0 ∧ aField w = false then some .decDxt3Tile else none
    | 0x05 => if fmtField w = 0 ∧ aField w = false then some .decDxt5Tile else none
    | 0x06 => if aField w = false then some (.encImage (Format.ofCode (fmtField w))) else none
    | 0x07 => if aField w = false then some (.decImage (Format.ofCode (fmtField w))) else none
    | 0x08 => if fmtField w = 0 ∧ aField w = false then some .mipDown else none
    | 0x09 => if aField w = false then some (.size (Format.ofCode (fmtField w))) else none
    | _ => none

/-- The word `OP | FMT << 8 | A << 16` (R307). -/
def commandWord (op fmt : Byte) (a : Bool) : Word :=
  op.setWidth 32 ||| (fmt.setWidth 32 <<< 8) ||| ((BitVec.ofBool a).setWidth 32 <<< 16)

/-- The encoder (R301, R307). -/
def encode : Instr → Word
  | .encDxt1Tile => commandWord 0x01 0 false
  | .encDxt5Tile => commandWord 0x02 0 false
  | .decDxt1Tile a => commandWord 0x03 0 a
  | .decDxt3Tile => commandWord 0x04 0 false
  | .decDxt5Tile => commandWord 0x05 0 false
  | .encImage f => commandWord 0x06 f.code false
  | .decImage f => commandWord 0x07 f.code false
  | .mipDown => commandWord 0x08 0 false
  | .size f => commandWord 0x09 f.code false

/-- The command word that the opcode table's `nbits` low bits `w` stand for; every bit above them is 0. -/
def tableWord (nbits w : Nat) : Word := BitVec.ofNat 32 (w % 2 ^ nbits)

/-- The decoder on a word numbered as spec/opcode_table.json numbers it. -/
def decodeTableWord (nbits w : Nat) : Option Instr := decode (tableWord nbits w)

end Sys2Proof
end

