-- ==== Sys2Proof/Config.lean ====
section
/-! DEFINITION. The implementation parameters of R8 and the free values of the points the spec leaves unspecified. -/

namespace Sys2Proof.Config

/-- `DXT1_PALETTE_SOURCE` (R8, R453): where the DXT1 encoder takes the palette's first two entries from. -/
inductive PaletteSource where
  /-- `RAW_MINMAX`, the decided value: the 8-bit max and min triples. -/
  | rawMinMax
  /-- `QUANTIZED_565`: the expanded endpoint words. -/
  | quantized565
deriving DecidableEq, Repr

/-- `EDGE_FILL` (R8, R515): what fills tile positions outside the image on block encode. -/
inductive EdgeFill where
  /-- `CLAMP`, the decided value: the last column or row is replicated. -/
  | clamp
  /-- `ZERO`: pixel (0, 0, 0, 0). -/
  | zero
deriving DecidableEq, Repr

/-- A range of buffer-memory addresses `[lo, lo + len)` at which `MEM_OK` answers false, for reads, for writes or
for both (R216). Every predicate over address and access kind is a list of such ranges. -/
structure DeniedRange where
  lo : Nat
  len : Nat
  reads : Bool
  writes : Bool
deriving DecidableEq, Repr

/-- The parameters of R8 that a step reads, as plain data. A machine state carries them and no step changes them,
so a claim about every state is a claim about every setting (assumption 1). -/
structure Params where
  /-- `REG_BASE`: the host-bus address of the 64-byte register window (R110). -/
  regBase : Nat
  /-- `MEM_OK` by the ranges where it is false (R216). -/
  denied : List DeniedRange
  /-- `DXT1_PALETTE_SOURCE`. -/
  paletteSource : PaletteSource
  /-- `EDGE_FILL`. -/
  edgeFill : EdgeFill
deriving DecidableEq, Repr

/-- `LATENCY` (R8, R730): the number of cycles command number `n` spends in flight, finite and otherwise
unconstrained. A free value (assumption 5). -/
opaque latency : Nat → Nat

/-- The `n`-th byte drawn for a byte of the buffer memory that the spec leaves unspecified (R216, R701).
A free value (assumption 6). -/
opaque freeByte : Nat → Byte

end Sys2Proof.Config
end

