-- ==== Sys2Proof/Machine/State.lean ====
section
/-! DEFINITION. The state of the block: the register window, the engine, the buffer memory, the host's side of the
bus, the parameters, and the machine right after reset. -/

namespace Sys2Proof.Machine

open Sys2Proof

/-- The buffer memory (R210) as address and byte pairs: addresses strictly rising and below 2^32, no entry equal to
what an unlisted address reads as (`Memory.wf`). -/
abbrev Memory := List Host.Cell

/-- The `STATUS.ERR` codes of R600. The reserved codes 7 to 15 are never produced and have no constructor. -/
inductive ErrCode where
  /-- 0, `ERR_NONE`. -/
  | ok
  /-- 1, `ERR_ILLEGAL_OP`. -/
  | illegalOp
  /-- 2, `ERR_DIMS`. -/
  | dims
  /-- 3, `ERR_UNSUPPORTED_FORMAT`. -/
  | unsupportedFormat
  /-- 4, `ERR_RANGE`. -/
  | range
  /-- 5, `ERR_OVERLAP`. -/
  | overlap
  /-- 6, `ERR_BUS`. -/
  | bus
deriving DecidableEq, Repr

/-- The registers of R110 that hold a word. `STATUS` is a view (Flags.lean); `CTRL` and the reserved offsets hold
nothing. -/
structure Regs where
  /-- `CMD` (R111): the last accepted command word. -/
  cmd : Word
  /-- `SRC_ADDR` (R114). -/
  srcAddr : Word
  /-- `DST_ADDR` (R115). -/
  dstAddr : Word
  /-- `SRC_PITCH` (R116). -/
  srcPitch : Word
  /-- `DST_PITCH` (R117). -/
  dstPitch : Word
  /-- `DIMS` (R118). -/
  dims : Word
  /-- `RESULT_LO` (R119). -/
  resultLo : Word
  /-- `RESULT_HI` (R119). -/
  resultHi : Word
deriving DecidableEq, Repr

/-- The fields of `STATUS` (R112) but BUSY, which is `eng.state` (R150). -/
structure Status where
  done : Bool
  warn : Bool
  lost : Bool
  err : ErrCode
deriving DecidableEq, Repr

/-- `eng.state` (R150). -/
inductive EngState where
  | idle
  | busy
deriving DecidableEq, Repr

/-- `eng.snap` (R150): the operands latched at acceptance. -/
structure Snap where
  cmd : Word
  src : Word
  dst : Word
  spitch : Word
  dpitch : Word
  width : Half
  height : Half
deriving DecidableEq, Repr

/-- The hidden state of the engine (R150). -/
structure Engine where
  state : EngState
  snap : Snap
  /-- `eng.progress`, kept as the number of cycles left before the engine performs the command (assumption 5). -/
  progress : Nat
deriving DecidableEq, Repr

/-- What the host, the other agent of R100, does on its bus in one cycle. -/
inductive HostAction where
  /-- Nothing. -/
  | pause
  /-- The power-on reset of R700. -/
  | reset
  /-- A store of bytes, lowest address first, at a host-bus address (R121). -/
  | busWrite (addr : Nat) (data : List Byte)
  /-- A load of `n` bytes at a host-bus address (R121). -/
  | busRead (addr n : Nat)
  /-- A store of one byte to the buffer memory (R140). -/
  | memWrite (addr : Nat) (b : Byte)
  /-- A load of one byte of the buffer memory (R140). -/
  | memRead (addr : Nat)
deriving DecidableEq, Repr

/-- The source span `[src, src + slen)` and the destination span `[dst, dst + dlen)` of a command (R214). -/
structure Spans where
  src : Nat
  slen : Nat
  dst : Nat
  dlen : Nat
deriving DecidableEq, Repr

/-- The host's side, the model's own: the actions it has still to take, in bus order, what its last loads gave, and
the spans of the accepted commands whose completion it has not seen in a STATUS read (R720, assumption 8). -/
structure HostPort where
  queue : List HostAction
  busData : List Byte
  memData : Byte
  owed : List Spans
deriving DecidableEq, Repr

/-- The state of the block. -/
structure State where
  regs : Regs
  status : Status
  eng : Engine
  mem : Memory
  host : HostPort
  /-- The parameters of R8; no step changes them. -/
  params : Config.Params
  /-- How many free values have been drawn, the model's own. -/
  draws : Nat
deriving DecidableEq, Repr

/-- Why a step stops the machine. No command faults: an error of a command is a completion (R631). -/
inductive Fault where
  /-- The host accessed the buffer memory at an address of 2^32 or more, which does not exist (R210). Raised by a
  host access only. Safe: the spec gives such an access no effect. -/
  | noSuchAddress
deriving DecidableEq, Repr

/-- Why a step is refused. -/
inductive Refusal where
  /-- Raised by `exec`'s arm for a command without a meaning; no arm does. Safe. -/
  | notModelled (mnemonic : String)
  /-- The host accessed a byte of the accepted command's spans before its STATUS read showed completion: "A model
  refuses such a host step" (R720). Raised by a host access only. Safe. -/
  | spanHazard
deriving DecidableEq, Repr

/-- Every register of R110 at its reset value 0 (R700). -/
def Regs.reset : Regs :=
  { cmd := 0, srcAddr := 0, dstAddr := 0, srcPitch := 0, dstPitch := 0, dims := 0, resultLo := 0, resultHi := 0 }

/-- `STATUS` after reset: DONE, WARN, LOST and ERR are 0 (R700). -/
def Status.reset : Status :=
  { done := false, warn := false, lost := false, err := .ok }

/-- The snapshot the model holds after reset, where R700 leaves it unspecified (assumption 2). -/
def Snap.reset : Snap :=
  { cmd := 0, src := 0, dst := 0, spitch := 0, dpitch := 0, width := 0, height := 0 }

/-- The engine after reset: IDLE (R700). -/
def Engine.reset : Engine :=
  { state := .idle, snap := Snap.reset, progress := 0 }

/-- The host with nothing to do and nothing read (assumption 4). -/
def HostPort.reset : HostPort :=
  { queue := [], busData := [], memData := 0, owed := [] }

/-- The decided parameters of R8, the window at 0 and every access accepted (assumption 1). -/
def defaultParams : Config.Params :=
  { regBase := 0, denied := [], paletteSource := .rawMinMax, edgeFill := .clamp }

/-- The machine right after power-on reset (R700), the buffer memory listing nothing. -/
def State.reset : State :=
  { regs := Regs.reset, status := Status.reset, eng := Engine.reset, mem := [], host := HostPort.reset,
    params := defaultParams, draws := 0 }

end Sys2Proof.Machine
end

