-- ==== Sys2Proof/Machine/Flags.lean ====
section
/-! DEFINITION. The flags of the block: the STATUS word as the host reads it (R112) and the error codes (R600). -/

namespace Sys2Proof.Machine

open Sys2Proof

/-- The number of an error code in `STATUS.ERR` (R600). -/
def ErrCode.code : ErrCode → BitVec 4
  | .ok => 0
  | .illegalOp => 1
  | .dims => 2
  | .unsupportedFormat => 3
  | .range => 4
  | .overlap => 5
  | .bus => 6

/-- `STATUS.BUSY = (eng.state == BUSY)` (R150). -/
def State.busy (s : State) : Bool := s.eng.state == .busy

/-- The STATUS word (R112): BUSY, DONE, WARN and LOST in bits 0 to 3, ERR in bits 11:8, every other bit 0. -/
def State.statusWord (s : State) : Word :=
  (BitVec.ofBool s.busy).setWidth 32 ||| ((BitVec.ofBool s.status.done).setWidth 32 <<< 1) |||
    ((BitVec.ofBool s.status.warn).setWidth 32 <<< 2) ||| ((BitVec.ofBool s.status.lost).setWidth 32 <<< 3) |||
    (s.status.err.code.setWidth 32 <<< 8)

/-- What a host write of `w` to STATUS does: bit 3 written as 1 clears LOST, nothing else changes (R112). -/
def Status.hostWrite (st : Status) (w : Word) : Status :=
  { st with lost := st.lost && !w.getLsbD 3 }

/-- STATUS at acceptance: DONE, WARN and ERR are cleared, LOST stays (R170). -/
def Status.accepted (st : Status) : Status :=
  { st with done := false, warn := false, err := .ok }

/-- STATUS after a dropped command: LOST is set (R171). -/
def Status.dropped (st : Status) : Status :=
  { st with lost := true }

/-- STATUS at completion: ERR and WARN as given, DONE set, LOST stays (R173). -/
def Status.completed (st : Status) (err : ErrCode) (warn : Bool) : Status :=
  { st with err := err, warn := warn, done := true }

end Sys2Proof.Machine
end

