-- ==== Sys2Proof/Machine/Operands.lean ====
section
/-! DEFINITION. The operands of a command: number fields and byte order (R9, R200), the snapshot (R302), the format
table (R330), the image size arithmetic (R581) and the spans (R214). -/

namespace Sys2Proof.Machine

open Sys2Proof

/-- `v[hi:lo]` of a number (R9). -/
def field (v hi lo : Nat) : Nat := (v >>> lo) % 2 ^ (hi + 1 - lo)

/-- The little-endian number of a list of bytes, the first the least significant (R10, R200). -/
def leNat : List Byte → Nat
  | [] => 0
  | b :: bs => b.toNat + 256 * leNat bs

/-- The `n`-byte little-endian number of a byte list from index `o` (`LE16`, `LE32`, `LE48` of R10). -/
def leField (b : List Byte) (o n : Nat) : Nat := leNat ((b.drop o).take n)

/-- The `n` bytes of a number, least significant first (R10, R200). -/
def leBytes (v n : Nat) : List Byte := (List.range n).map fun k => BitVec.ofNat 8 (v >>> (8 * k))

/-- `ceil(a / b)` for `b > 0` (R9). -/
def ceilDiv (a b : Nat) : Nat := (a + b - 1) / b

/-- `W = DIMS[15:0]` (R118). -/
def dimsWidth (dims : Word) : Half := dims.extractLsb' 0 16

/-- `H = DIMS[31:16]` (R118). -/
def dimsHeight (dims : Word) : Half := dims.extractLsb' 16 16

/-- The snapshot the registers give for the command word `w` (R170). -/
def Regs.snapshot (r : Regs) (w : Word) : Snap :=
  { cmd := w, src := r.srcAddr, dst := r.dstAddr, spitch := r.srcPitch, dpitch := r.dstPitch,
    width := dimsWidth r.dims, height := dimsHeight r.dims }

/-- Bytes of one pixel of a format, `bpp` of R330; none for the block formats and the unknown codes. -/
def Format.bpp : Format → Option Nat
  | .rgba8888 => some 4
  | .abgr8888 => some 4
  | .rgb888 => some 3
  | .bgr888 => some 3
  | .rgb565 => some 2
  | .i8 => some 1
  | .ia88 => some 2
  | .p8 => some 1
  | .a8 => some 1
  | .rgb888Bluescreen => some 3
  | .bgr888Bluescreen => some 3
  | .argb8888 => some 4
  | .bgra8888 => some 4
  | .dxt1 => none
  | .dxt3 => none
  | .dxt5 => none
  | .bgrx8888 => some 4
  | .bgr565 => some 2
  | .bgrx5551 => some 2
  | .bgra4444 => some 2
  | .dxt1OneBitAlpha => none
  | .bgra5551 => some 2
  | .uv88 => some 2
  | .uvwq8888 => some 4
  | .rgba16161616f => some 8
  | .rgba16161616 => some 8
  | .uvlx8888 => some 4
  | .unknown _ => none

/-- Bytes of one block of a block format, `bsize` of R326; none for the others. -/
def Format.bsize : Format → Option Nat
  | .dxt1 => some 8
  | .dxt1OneBitAlpha => some 8
  | .dxt3 => some 16
  | .dxt5 => some 16
  | _ => none

/-- The formats `DEC_IMAGE` decodes: `DEC_SET` and the four block formats (R510). -/
def Format.decodable : Format → Bool
  | .rgba8888 | .abgr8888 | .rgb888 | .bgr888 | .i8 | .ia88 | .a8 | .argb8888 | .bgra8888 | .bgrx8888 => true
  | .dxt1 | .dxt3 | .dxt5 | .dxt1OneBitAlpha => true
  | _ => false

/-- The formats `ENC_IMAGE` encodes: `ENC_SET` and the block formats DXT1 and DXT5 (R511). -/
def Format.encodable : Format → Bool
  | .rgba8888 | .rgb888 | .bgr888 | .bgra8888 | .dxt1 | .dxt5 => true
  | _ => false

/-- `CalculateImageSize(w, h, f)` with the dimensions clamped to at least 1 (R580, R581); none where the format is
unknown and has no size. -/
def calculateImageSize (w h : Nat) (f : Format) : Option Nat :=
  match Format.bsize f with
  | some bs => some (ceilDiv (max 1 w) 4 * ceilDiv (max 1 h) 4 * bs)
  | none =>
    match Format.bpp f with
    | some n => some (max 1 w * max 1 h * n)
    | none => none

/-- The size of an image as a span length, 0 where the format has none. -/
def imageBytes (w h : Nat) (f : Format) : Nat := (calculateImageSize w h f).getD 0

/-- The dimension of the next mip level, `max(1, floor(n / 2))` (R550). -/
def halved (n : Nat) : Nat := max 1 (n / 2)

/-- The span lengths of R214, in unbounded numbers from the snapshot. -/
def spanLengths (i : Instr) (sn : Snap) : Nat × Nat :=
  let w := sn.width.toNat
  let h := sn.height.toNat
  match i with
  | .encDxt1Tile => (3 * sn.spitch.toNat + 16, 8)
  | .encDxt5Tile => (3 * sn.spitch.toNat + 16, 16)
  | .decDxt1Tile _ => (8, 3 * sn.dpitch.toNat + 16)
  | .decDxt3Tile => (16, 3 * sn.dpitch.toNat + 16)
  | .decDxt5Tile => (16, 3 * sn.dpitch.toNat + 16)
  | .encImage f => (w * h * 4, imageBytes w h f)
  | .decImage f => (if Format.decodable f then imageBytes w h f else 0, w * h * 4)
  | .mipDown => (w * h * 4, halved w * halved h * 4)
  | .size _ => (0, 0)

/-- The spans of a command (R214). -/
def spansOf (i : Instr) (sn : Snap) : Spans :=
  { src := sn.src.toNat, slen := (spanLengths i sn).1, dst := sn.dst.toNat, dlen := (spanLengths i sn).2 }

/-- The spans of a command word: an illegal word has none, it touches no buffer memory (R305). -/
def wordSpans (sn : Snap) : Spans :=
  match decode sn.cmd with
  | some i => spansOf i sn
  | none => { src := sn.src.toNat, slen := 0, dst := sn.dst.toNat, dlen := 0 }

/-- An address lies in the source span. -/
def Spans.inSrc (p : Spans) (a : Nat) : Bool := decide (p.src ≤ a ∧ a < p.src + p.slen)

/-- An address lies in the destination span. -/
def Spans.inDst (p : Spans) (a : Nat) : Bool := decide (p.dst ≤ a ∧ a < p.dst + p.dlen)

/-- A span passes the top of the buffer memory (R215, `ERR_RANGE`). -/
def Spans.outOfRange (p : Spans) : Bool := decide (p.src + p.slen > 2 ^ 32 ∨ p.dst + p.dlen > 2 ^ 32)

/-- Both spans are non-empty and intersect (R215, `ERR_OVERLAP`). -/
def Spans.overlap (p : Spans) : Bool :=
  decide (p.slen > 0 ∧ p.dlen > 0 ∧ p.src < p.dst + p.dlen ∧ p.dst < p.src + p.slen)

/-- Step 2 of the check order (R620): an image command or `MIP_DOWN` with a zero dimension. -/
def dimsFail (i : Instr) (sn : Snap) : Bool :=
  match i with
  | .encImage _ | .decImage _ | .mipDown => sn.width == 0 || sn.height == 0
  | .encDxt1Tile | .encDxt5Tile | .decDxt1Tile _ | .decDxt3Tile | .decDxt5Tile | .size _ => false

/-- Step 3 of the check order (R620): `ENC_IMAGE` of a format that is not encodable, `SIZE` of an unknown one. -/
def formatFail (i : Instr) : Bool :=
  match i with
  | .encImage f => !Format.encodable f
  | .size f => (Format.bsize f).isNone && (Format.bpp f).isNone
  | .encDxt1Tile | .encDxt5Tile | .decDxt1Tile _ | .decDxt3Tile | .decDxt5Tile | .decImage _ | .mipDown => false

/-- The checks of a command in the order of R620, after the decoder's; the first that fails is reported. -/
def check (i : Instr) (sn : Snap) : Option ErrCode :=
  if dimsFail i sn then some .dims
  else if formatFail i then some .unsupportedFormat
  else if (spansOf i sn).outOfRange then some .range
  else if (spansOf i sn).overlap then some .overlap
  else none

end Sys2Proof.Machine
end

