-- ==== Sys2Proof/Machine/Ops.lean ====
section
/-! DEFINITION. The shared operations: the buffer memory (R210 to R217), acceptance (R170, R171), completion and
errors (R173, R610), the shared body of every command (R172, R174), reset (R700, R701) and the register window
(R110 to R122). -/

namespace Sys2Proof.Machine

open Sys2Proof

/-! ### Buffer memory -/

/-- What an address the memory does not list reads as (assumption 3). -/
def unlisted : Byte := 0

/-- The byte at an address. -/
def Memory.read : Memory → Nat → Byte
  | [], _ => unlisted
  | c :: m, a => if c.1 = a then c.2 else Memory.read m a

/-- The memory with address `a` unlisted. -/
def Memory.erase (m : Memory) (a : Nat) : Memory := m.filter fun c => decide (c.1 ≠ a)

/-- List `(a, b)` before the first higher address. -/
def Memory.insert : Memory → Nat → Byte → Memory
  | [], a, b => [(a, b)]
  | c :: m, a, b => if a < c.1 then (a, b) :: c :: m else c :: Memory.insert m a b

/-- Store one byte (`MemWrite(a, 1, b)`, R10), keeping the canonical form: a byte that equals what an unlisted address
reads as is not listed. -/
def Memory.write (m : Memory) (a : Nat) (b : Byte) : Memory :=
  if b = unlisted then m.erase a else (m.erase a).insert a b

/-- Every listed address is above `lo`, rising and below 2^32, and no listed byte reads as `unlisted`. -/
def Memory.wfAbove : Option Nat → Memory → Bool
  | _, [] => true
  | lo, c :: m =>
    (match lo with
      | none => true
      | some l => decide (l < c.1)) && decide (c.1 < 2 ^ 32) && decide (c.2 ≠ unlisted) && Memory.wfAbove (some c.1) m

/-- The canonical form of the buffer memory. -/
def Memory.wf (m : Memory) : Bool := Memory.wfAbove none m

/-- Byte writes in order, the later one standing where two hit one byte (R217). -/
def Memory.writeAll : Memory → List (Nat × Byte) → Memory
  | m, [] => m
  | m, w :: ws => Memory.writeAll (Memory.write m w.1 w.2) ws

/-- `n` bytes from address `a` on (`MemReadBytes`, R10). -/
def Memory.bytes (m : Memory) (a n : Nat) : List Byte := (List.range n).map fun k => m.read (a + k)

/-- The addresses `a, a + 1, …, a + n - 1`. -/
def addrs (a n : Nat) : List Nat := (List.range n).map fun k => a + k

/-- The writes that store a byte list from address `a` on, in order. -/
def storeBytes (a : Nat) (bs : List Byte) : List (Nat × Byte) := (addrs a bs.length).zip bs

/-- A denied range covers a read of address `a`. -/
def deniesRead (a : Nat) (d : Config.DeniedRange) : Bool := d.reads && decide (d.lo ≤ a ∧ a < d.lo + d.len)

/-- A denied range covers a write of address `a`. -/
def deniesWrite (a : Nat) (d : Config.DeniedRange) : Bool := d.writes && decide (d.lo ≤ a ∧ a < d.lo + d.len)

/-- `MEM_OK(a, read)` (R216): the address exists and no denied range covers the read. -/
def readOk (p : Config.Params) (a : Nat) : Bool := decide (a < 2 ^ 32) && !p.denied.any (deniesRead a)

/-- `MEM_OK(a, write)` (R216). -/
def writeOk (p : Config.Params) (a : Nat) : Bool := decide (a < 2 ^ 32) && !p.denied.any (deniesWrite a)

/-- The bytes `[a, a + n)` of the memory each take a fresh free value, `k` the number of the first draw; an address of
2^32 or more does not exist and is passed over (R216, R701, assumption 6). -/
def Memory.scramble (m : Memory) (a k : Nat) : Nat → Memory
  | 0 => m
  | n + 1 =>
    let m' := Memory.scramble m a k n
    if a + n < 2 ^ 32 then Memory.write m' (a + n) (Config.freeByte (k + n)) else m'

/-- Leave every byte of a destination span unspecified (R216, R701). -/
def scrambleDst (p : Spans) (s : State) : State :=
  { s with mem := s.mem.scramble p.dst s.draws p.dlen, draws := s.draws + p.dlen }

/-! ### Command lifecycle -/

/-- The state after the engine accepts the command word `w`, to be performed after `latency` cycles (R170). RESULT,
LOST and the other registers stay. The host now owes a STATUS read for the command's spans (R720). -/
def accept (w : Word) (latency : Nat) (s : State) : State :=
  { s with
    regs := { s.regs with cmd := w }
    status := s.status.accepted
    eng := { state := .busy, snap := s.regs.snapshot w, progress := latency }
    host := { s.host with owed := wordSpans (s.regs.snapshot w) :: s.host.owed } }

/-- A host write of `w` to CMD: accepted when the engine is idle, its latency the next free value (R170, R730);
dropped with LOST set when it is busy (R171). -/
def writeCmd (w : Word) (s : State) : State :=
  match s.eng.state with
  | .idle => { accept w (Config.latency s.draws) s with draws := s.draws + 1 }
  | .busy => { s with status := s.status.dropped }

/-- Completion `complete(code, warn, result)` (R173). -/
def complete (code : ErrCode) (warn : Bool) (result : DWord) (s : State) : State :=
  { s with
    regs := { s.regs with resultLo := result.extractLsb' 0 32, resultHi := result.extractLsb' 32 32 }
    status := s.status.completed code warn
    eng := { s.eng with state := .idle } }

/-- `raise Error(code)`: the command ends at once with `complete(code, 0, 0)` (R610). The block has no trap entry and
no trap return (R631, R632): this completion is all an error does. -/
def raiseError (code : ErrCode) (s : State) : State := complete code false 0 s

/-- What a command does once its checks have passed: the addresses it reads, its byte writes in order, its result and
whether it completes with the soft warning. -/
structure Job where
  reads : List Nat
  writes : List (Nat × Byte)
  result : Nat
  warn : Bool
deriving DecidableEq, Repr

/-- `MEM_OK` answers true to every access of a job (R216). -/
def Job.accessOk (p : Config.Params) (j : Job) : Bool :=
  j.reads.all (readOk p) && j.writes.all fun w => writeOk p w.1

/-- The shared body of every command (R172 as the atomic transition of R174): the checks of R620, then the accesses and
the completion; an access `MEM_OK` refuses ends it with `ERR_BUS` and the destination span unspecified (R216). -/
def perform (i : Instr) (j : Job) (s : State) : Host.Outcome State Fault Refusal :=
  match check i s.eng.snap with
  | some e => .next (raiseError e s)
  | none =>
    if j.accessOk s.params then
      .next (complete .ok j.warn (BitVec.ofNat 64 j.result) { s with mem := s.mem.writeAll j.writes })
    else .next (raiseError .bus (scrambleDst (spansOf i s.eng.snap) s))

/-! ### Reset -/

/-- Reset, by power-on or by `CTRL.SRST` (R700). A command in flight is abandoned without a completion and leaves its
destination span unspecified (R701); otherwise the buffer memory stays. -/
def resetBlock (s : State) : State :=
  let s' := if s.busy then scrambleDst (wordSpans s.eng.snap) s else s
  { s' with
    regs := Regs.reset
    status := Status.reset
    eng := Engine.reset
    host := { s'.host with owed := [] } }

/-! ### Register window -/

/-- The registers of the window (R110). -/
inductive Reg where
  | cmd | status | ctrl | srcAddr | dstAddr | srcPitch | dstPitch | dims | resultLo | resultHi
  /-- Offsets 0x28 to 0x3C (R120). -/
  | reserved
deriving DecidableEq, Repr

/-- The register at an offset of the window (R110). -/
def regAt (off : Nat) : Reg :=
  match off with
  | 0x00 => .cmd
  | 0x04 => .status
  | 0x08 => .ctrl
  | 0x0C => .srcAddr
  | 0x10 => .dstAddr
  | 0x14 => .srcPitch
  | 0x18 => .dstPitch
  | 0x1C => .dims
  | 0x20 => .resultLo
  | 0x24 => .resultHi
  | _ => .reserved

/-- The word a host read of a register returns (R111 to R120). -/
def readReg (r : Reg) (s : State) : Word :=
  match r with
  | .cmd => s.regs.cmd
  | .status => s.statusWord
  | .ctrl => 0
  | .srcAddr => s.regs.srcAddr
  | .dstAddr => s.regs.dstAddr
  | .srcPitch => s.regs.srcPitch
  | .dstPitch => s.regs.dstPitch
  | .dims => s.regs.dims
  | .resultLo => s.regs.resultLo
  | .resultHi => s.regs.resultHi
  | .reserved => 0

/-- What a host write of `w` to a register does (R111 to R120). -/
def writeReg (r : Reg) (w : Word) (s : State) : State :=
  match r with
  | .cmd => writeCmd w s
  | .status => { s with status := s.status.hostWrite w }
  | .ctrl => if w.getLsbD 0 then resetBlock s else s
  | .srcAddr => { s with regs := { s.regs with srcAddr := w } }
  | .dstAddr => { s with regs := { s.regs with dstAddr := w } }
  | .srcPitch => { s with regs := { s.regs with srcPitch := w } }
  | .dstPitch => { s with regs := { s.regs with dstPitch := w } }
  | .dims => { s with regs := { s.regs with dims := w } }
  | .resultLo => s
  | .resultHi => s
  | .reserved => s

/-- A host-bus address lies in the 64-byte window at `REG_BASE` (R110). An access counts as one to the window by the
address it starts at (assumption 9, DESIGN CHOICE). -/
def inWindow (p : Config.Params) (addr : Nat) : Bool := decide (p.regBase ≤ addr ∧ addr < p.regBase + 64)

/-- The offset of an access the window defines: in the window, 32 bits wide and naturally aligned (R121). -/
def accessOffset (p : Config.Params) (addr n : Nat) : Option Nat :=
  if inWindow p addr && decide (n = 4 ∧ (addr - p.regBase) % 4 = 0) then some (addr - p.regBase) else none

/-- A host store at a host-bus address: a register write when R121 defines the access, else no effect. A store that
starts below the window and runs into it has no effect either (assumption 9, DESIGN CHOICE). -/
def busWrite (addr : Nat) (data : List Byte) (s : State) : State :=
  match accessOffset s.params addr data.length with
  | some off => writeReg (regAt off) (BitVec.ofNat 32 (leNat data)) s
  | none => s

/-- The host's hand-over duty ends with a STATUS read that returns BUSY = 0 (R720, R230). -/
def readEnds (r : Reg) (s : State) : Bool := decide (r = .status) && !s.busy

/-- A host load of `n` bytes at a host-bus address: the register's bytes when R121 defines the access, zeros for
another width or alignment in the window; outside the window the block does not answer (assumption 9). DESIGN CHOICE
(assumption 9): the spec does not say what a load gives that starts below the window and runs into it; it counts as one
outside, and `busData` keeps what the host last read. -/
def busRead (addr n : Nat) (s : State) : State :=
  match accessOffset s.params addr n with
  | some off =>
    { s with host := { s.host with
        busData := leBytes (readReg (regAt off) s).toNat 4
        owed := if readEnds (regAt off) s then [] else s.host.owed } }
  | none =>
    if inWindow s.params addr then { s with host := { s.host with busData := List.replicate n 0 } } else s

/-! ### The host's turn -/

/-- A host access to address `a` would break the duty of R720. -/
def spanHazardAt (s : State) (a : Nat) : Bool :=
  s.host.owed.any fun p => p.inSrc a || p.inDst a

/-- A host access to the buffer memory at `a` whose effect is `eff` (R140, R720). DESIGN CHOICE (assumption 17): the
spec leaves the host's own means of access open and has only the engine ask `MEM_OK` (R216), so this access does not. -/
def hostMemAccess (a : Nat) (eff : State) (s : State) : Host.Outcome State Fault Refusal :=
  if 2 ^ 32 ≤ a then .fault .noSuchAddress
  else if spanHazardAt s a then .refused .spanHazard
  else .next eff

/-- One action of the host. -/
def hostAct (act : HostAction) (s : State) : Host.Outcome State Fault Refusal :=
  match act with
  | .pause => .next s
  | .reset => .next (resetBlock s)
  | .busWrite addr data => .next (busWrite addr data s)
  | .busRead addr n => .next (busRead addr n s)
  | .memWrite a b => hostMemAccess a { s with mem := s.mem.write a b } s
  | .memRead a => hostMemAccess a { s with host := { s.host with memData := s.mem.read a } } s

/-- The host's next action leaves its queue and takes effect; a host with none changes nothing (R645). -/
def hostTurn (s : State) : Host.Outcome State Fault Refusal :=
  match s.host.queue with
  | [] => .next s
  | act :: rest => hostAct act { s with host := { s.host with queue := rest } }

end Sys2Proof.Machine
end

