-- ==== Sys2Proof/Machine/ImageSize.lean ====
section
/-! DEFINITION. The command SIZE (R582) over the size arithmetic of Operands.lean (R580, R581). -/

namespace Sys2Proof.Machine

open Sys2Proof

/-- The job of `SIZE` (R582): no access, the size as the result. -/
def sizeJob (f : Format) (s : State) : Job :=
  { reads := []
    writes := []
    result := imageBytes s.eng.snap.width.toNat s.eng.snap.height.toNat f
    warn := false }

/-- `SIZE fmt=<f>` (R582). -/
def execSize (f : Format) (s : State) : Host.Outcome State Fault Refusal :=
  perform (.size f) (sizeJob f s) s

end Sys2Proof.Machine
end

