-- ==== Sys2Proof/Machine/Pixel.lean ====
section
/-! DEFINITION. Pixels, tiles and the RGB565 encoding (R10, R320 to R322), with the byte accesses of a pixel. -/

namespace Sys2Proof.Machine

open Sys2Proof

/-- The three colour channels. -/
structure Rgb where
  r : Byte
  g : Byte
  b : Byte
deriving DecidableEq, Repr

/-- An RGBA8 pixel (R10). -/
structure Pixel where
  r : Byte
  g : Byte
  b : Byte
  a : Byte
deriving DecidableEq, Repr

/-- The colour channels of a pixel. -/
def Pixel.rgb (p : Pixel) : Rgb := ⟨p.r, p.g, p.b⟩

/-- A colour with an alpha. -/
def Rgb.withAlpha (c : Rgb) (a : Byte) : Pixel := ⟨c.r, c.g, c.b, a⟩

/-- The four bytes of a pixel in the order R, G, B, A (R202). -/
def Pixel.bytes (p : Pixel) : List Byte := [p.r, p.g, p.b, p.a]

/-- A tile: pixel `4·y + x` for `0 ≤ x, y ≤ 3` (R10). -/
abbrev Tile := Nat → Pixel

/-- A colour channel computed from two colours, channel by channel. -/
def Rgb.map2 (f : Nat → Nat → Nat) (p q : Rgb) : Rgb :=
  ⟨BitVec.ofNat 8 (f p.r.toNat q.r.toNat), BitVec.ofNat 8 (f p.g.toNat q.g.toNat),
    BitVec.ofNat 8 (f p.b.toNat q.b.toNat)⟩

/-- `(2·p + q) / 3`, truncating (R400, R453). -/
def twoToOne (p q : Nat) : Nat := (2 * p + q) / 3

/-- `(p + 2·q) / 3`, truncating (R400, R453). -/
def oneToTwo (p q : Nat) : Nat := (p + 2 * q) / 3

/-- `(p + q) / 2`, truncating (R400). -/
def midpoint (p q : Nat) : Nat := (p + q) / 2

/-- 5-bit channel to 8 bits (R321). -/
def expand5 (v : Nat) : Nat := (v <<< 3) ||| (v >>> 2)

/-- 6-bit channel to 8 bits (R321). -/
def expand6 (v : Nat) : Nat := (v <<< 2) ||| (v >>> 4)

/-- An RGB565 word as an 8-bit colour (R320, R321). -/
def expand565 (c : Half) : Rgb :=
  ⟨BitVec.ofNat 8 (expand5 (field c.toNat 15 11)), BitVec.ofNat 8 (expand6 (field c.toNat 10 5)),
    BitVec.ofNat 8 (expand5 (field c.toNat 4 0))⟩

/-- An 8-bit colour truncated to an RGB565 word (R322). -/
def pack565 (c : Rgb) : Half :=
  BitVec.ofNat 16 (((c.r.toNat >>> 3) <<< 11) ||| ((c.g.toNat >>> 2) <<< 5) ||| (c.b.toNat >>> 3))

/-- Fields of `bits` bits packed side by side, field `i` at bit `bits·i` (R455, R457). -/
def packFields (bits : Nat) (f : Nat → Nat) : Nat → Nat
  | 0 => 0
  | n + 1 => packFields bits f n ||| (f n <<< (bits * n))

/-- The pixel whose four bytes stand at address `a` (R450). -/
def readPixel (m : Memory) (a : Nat) : Pixel := ⟨m.read a, m.read (a + 1), m.read (a + 2), m.read (a + 3)⟩

/-- The address of pixel `(x, y)` in a tile of row pitch `pitch` at `base` (R408, R450). -/
def tileAddr (base pitch x y : Nat) : Nat := base + y * pitch + 4 * x

/-- The address of pixel `(x, y)` in a packed image of `n` bytes a pixel and `w` pixels a row (R327). -/
def imageAddr (base n w x y : Nat) : Nat := base + n * (y * w + x)

/-- A list made at every `(x, y)`, rows outermost, in the order of the loops `for y: for x:` (R217). -/
def gridList {α : Type} (w h : Nat) (f : Nat → Nat → List α) : List α :=
  (List.range h).flatMap fun y => (List.range w).flatMap fun x => f x y

/-- `readTile` (R450): pixel `i` stands in column `i % 4` of row `i / 4`. -/
def readTile (m : Memory) (src pitch : Nat) : Tile := fun i => readPixel m (tileAddr src pitch (i % 4) (i / 4))

/-- The addresses `readTile` reads. -/
def tileReads (src pitch : Nat) : List Nat := gridList 4 4 fun x y => addrs (tileAddr src pitch x y) 4

/-- `writeTile` (R408) as byte writes in order. -/
def tileWrites (dst pitch : Nat) (t : Tile) : List (Nat × Byte) :=
  gridList 4 4 fun x y => storeBytes (tileAddr dst pitch x y) (t (4 * y + x)).bytes

/-- The job that stores a list of bytes at `dst`. -/
def storeJob (reads : List Nat) (dst : Nat) (bs : List Byte) : Job :=
  { reads := reads, writes := storeBytes dst bs, result := bs.length, warn := false }

end Sys2Proof.Machine
end

