-- ==== Sys2Proof/Machine/MipDownsample.lean ====
section
/-! DEFINITION. Box-filter mip downsampling (R550) and the command MIP_DOWN (R560). -/

namespace Sys2Proof.Machine

open Sys2Proof

/-- The source columns (or rows) of destination column `x` in a source of `size`: `2x` and `2x + 1`, cut at the edge
(R550). -/
def footprint (x size : Nat) : List Nat := [2 * x, 2 * x + 1].filter fun sx => decide (sx < size)

/-- The source pixels of destination pixel `(x, y)` (R550). -/
def footprintPixels (m : Memory) (src w h x y : Nat) : List Pixel :=
  (footprint y h).flatMap fun sy => (footprint x w).map fun sx => readPixel m (imageAddr src 4 w sx sy)

/-- The truncating average of one channel (R550). -/
def average (vs : List Nat) : Nat := vs.sum / vs.length

/-- The truncating average of a list of pixels, each channel on its own, alpha included (R550). -/
def averagePixel (ps : List Pixel) : Pixel :=
  ⟨BitVec.ofNat 8 (average (ps.map fun p => p.r.toNat)), BitVec.ofNat 8 (average (ps.map fun p => p.g.toNat)),
    BitVec.ofNat 8 (average (ps.map fun p => p.b.toNat)), BitVec.ofNat 8 (average (ps.map fun p => p.a.toNat))⟩

/-- `out(X, Y)` of `downsample` (R550). -/
def downsample (m : Memory) (src w h x y : Nat) : Pixel := averagePixel (footprintPixels m src w h x y)

/-- The job of `MIP_DOWN` (R560): the result has the layout of DIMS. -/
def mipDownJob (s : State) : Job :=
  let sn := s.eng.snap
  let src := sn.src.toNat
  let w := sn.width.toNat
  let h := sn.height.toNat
  let nw := halved w
  let nh := halved h
  { reads := gridList nw nh fun x y =>
      (footprint y h).flatMap fun sy => (footprint x w).flatMap fun sx => addrs (imageAddr src 4 w sx sy) 4
    writes := gridList nw nh fun x y =>
      storeBytes (imageAddr sn.dst.toNat 4 nw x y) (downsample s.mem src w h x y).bytes
    result := (nh <<< 16) ||| nw
    warn := false }

/-- `MIP_DOWN` (R560). -/
def execMipDown (s : State) : Host.Outcome State Fault Refusal :=
  perform .mipDown (mipDownJob s) s

end Sys2Proof.Machine
end

