-- ==== Sys2Proof/Machine/DxtDecode.lean ====
section
/-! DEFINITION. DXT block decode (R400 to R408) and the commands DEC_DXT1_TILE, DEC_DXT3_TILE and DEC_DXT5_TILE
(R420 to R422). -/

namespace Sys2Proof.Machine

open Sys2Proof

/-- The DXT1 palette (R400): four-colour mode when `color0 > color1` or `hasAlpha` is 0 (R402), else three colours and
transparent black. -/
def dxt1Palette (color0 color1 : Half) (hasAlpha : Bool) : List Pixel :=
  let p0 := expand565 color0
  let p1 := expand565 color1
  if color1.toNat < color0.toNat ∨ hasAlpha = false then
    [p0.withAlpha 255, p1.withAlpha 255, (Rgb.map2 twoToOne p0 p1).withAlpha 255,
      (Rgb.map2 oneToTwo p0 p1).withAlpha 255]
  else
    [p0.withAlpha 255, p1.withAlpha 255, (Rgb.map2 midpoint p0 p1).withAlpha 255, ⟨0, 0, 0, 0⟩]

/-- Entry `k` of a colour palette; an index has two bits and the palette four entries. -/
def palettePixel (pal : List Pixel) (k : Nat) : Pixel := pal.getD k ⟨0, 0, 0, 0⟩

/-- `color0` of a DXT1 block (R323). -/
def blockColor0 (b : List Byte) : Half := BitVec.ofNat 16 (leField b 0 2)

/-- `color1` of a DXT1 block (R323). -/
def blockColor1 (b : List Byte) : Half := BitVec.ofNat 16 (leField b 2 2)

/-- The 2-bit colour index of tile pixel `i` (R323). -/
def colorIndex (b : List Byte) (i : Nat) : Nat := field (leField b 4 4) (2 * i + 1) (2 * i)

/-- DXT1 colour decode of an 8-byte block (R401). -/
def decodeDXT1 (b : List Byte) (hasAlpha : Bool) : Tile := fun i =>
  palettePixel (dxt1Palette (blockColor0 b) (blockColor1 b) hasAlpha) (colorIndex b i)

/-- The 4-bit alpha of tile pixel `i` in a DXT3 block (R324). -/
def alphaNibble (b : List Byte) (i : Nat) : Nat := ((b.getD (i >>> 1) 0).toNat >>> (4 * (i &&& 1))) &&& 0xF

/-- DXT3 explicit alpha (R403). -/
def dxt3Alpha (b : List Byte) (i : Nat) : Byte := BitVec.ofNat 8 (alphaNibble b i ||| (alphaNibble b i <<< 4))

/-- `((6 - i)·a0 + (i + 1)·a1) / 7`, the 8-step interpolation (R404, R457). -/
def eightStep (a0 a1 i : Nat) : Nat := ((6 - i) * a0 + (i + 1) * a1) / 7

/-- `((4 - i)·a0 + (i + 1)·a1) / 5`, the 6-step interpolation (R404). -/
def sixStep (a0 a1 i : Nat) : Nat := ((4 - i) * a0 + (i + 1) * a1) / 5

/-- The DXT5 alpha palette (R404): entry `k` of 0 to 7. -/
def dxt5AlphaPalette (a0 a1 : Byte) (k : Nat) : Byte :=
  if k = 0 then a0
  else if k = 1 then a1
  else if a1.toNat < a0.toNat then BitVec.ofNat 8 (eightStep a0.toNat a1.toNat (k - 2))
  else if k = 6 then 0
  else if k = 7 then 255
  else BitVec.ofNat 8 (sixStep a0.toNat a1.toNat (k - 2))

/-- The 3-bit alpha index of tile pixel `i` in a DXT5 block (R325). -/
def alphaIndex (b : List Byte) (i : Nat) : Nat := field (leField b 2 6) (3 * i + 2) (3 * i)

/-- DXT3 decode of a 16-byte block (R405). -/
def decodeDXT3 (b : List Byte) : Tile := fun i =>
  (decodeDXT1 (b.drop 8) false i).rgb.withAlpha (dxt3Alpha (b.take 8) i)

/-- DXT5 decode of a 16-byte block (R406). -/
def decodeDXT5 (b : List Byte) : Tile := fun i =>
  (decodeDXT1 (b.drop 8) false i).rgb.withAlpha (dxt5AlphaPalette (b.getD 0 0) (b.getD 1 0) (alphaIndex b i))

/-- The job of a tile decode: read `n` bytes of block at `src`, write the tile at `dst` with the destination pitch,
give 64 as the result (R420 to R422). -/
def tileDecodeJob (n : Nat) (dec : List Byte → Tile) (s : State) : Job :=
  let sn := s.eng.snap
  { reads := addrs sn.src.toNat n
    writes := tileWrites sn.dst.toNat sn.dpitch.toNat (dec (s.mem.bytes sn.src.toNat n))
    result := 64
    warn := false }

/-- `DEC_DXT1_TILE a=<hasAlpha>` (R420). -/
def execDecDxt1Tile (hasAlpha : Bool) (s : State) : Host.Outcome State Fault Refusal :=
  perform (.decDxt1Tile hasAlpha) (tileDecodeJob 8 (fun b => decodeDXT1 b hasAlpha) s) s

/-- `DEC_DXT3_TILE` (R421). -/
def execDecDxt3Tile (s : State) : Host.Outcome State Fault Refusal :=
  perform .decDxt3Tile (tileDecodeJob 16 decodeDXT3 s) s

/-- `DEC_DXT5_TILE` (R422). -/
def execDecDxt5Tile (s : State) : Host.Outcome State Fault Refusal :=
  perform .decDxt5Tile (tileDecodeJob 16 decodeDXT5 s) s

end Sys2Proof.Machine
end

