-- ==== Sys2Proof/Machine/DxtEncode.lean ====
section
/-! DEFINITION. DXT block encode (R450 to R458) and the commands ENC_DXT1_TILE and ENC_DXT5_TILE (R470, R471). -/

namespace Sys2Proof.Machine

open Sys2Proof

/-- The greatest value of a channel over the first `n` pixels of a tile. -/
def maxOver (f : Nat → Byte) : Nat → Nat
  | 0 => 0
  | n + 1 => max (maxOver f n) (f n).toNat

/-- The least value of a channel over the first `n` pixels of a tile. -/
def minOver (f : Nat → Byte) : Nat → Nat
  | 0 => 255
  | n + 1 => min (minOver f n) (f n).toNat

/-- `hi`, the per-channel maximum of the 16 pixels (R451). -/
def tileMax (t : Tile) : Rgb :=
  ⟨BitVec.ofNat 8 (maxOver (fun i => (t i).r) 16), BitVec.ofNat 8 (maxOver (fun i => (t i).g) 16),
    BitVec.ofNat 8 (maxOver (fun i => (t i).b) 16)⟩

/-- `lo`, the per-channel minimum of the 16 pixels (R451). -/
def tileMin (t : Tile) : Rgb :=
  ⟨BitVec.ofNat 8 (minOver (fun i => (t i).r) 16), BitVec.ofNat 8 (minOver (fun i => (t i).g) 16),
    BitVec.ofNat 8 (minOver (fun i => (t i).b) 16)⟩

/-- What `dxt1Endpoints` gives (R451): the two colour words and the triples they come from. -/
structure Endpoints where
  color0 : Half
  color1 : Half
  hi : Rgb
  lo : Rgb
deriving DecidableEq, Repr

/-- DXT1 endpoints (R451), with the swap that R452 shows never happens. -/
def dxt1Endpoints (t : Tile) : Endpoints :=
  let hi := tileMax t
  let lo := tileMin t
  let c0 := pack565 hi
  let c1 := pack565 lo
  if c0.toNat < c1.toNat then ⟨c1, c0, lo, hi⟩ else ⟨c0, c1, hi, lo⟩

/-- The encoder's palette (R453), entry `k` of 0 to 3, by the parameter `DXT1_PALETTE_SOURCE`. -/
def dxt1EncPalette (src : Config.PaletteSource) (e : Endpoints) (k : Nat) : Rgb :=
  let e0 := match src with
    | .rawMinMax => e.hi
    | .quantized565 => expand565 e.color0
  let e1 := match src with
    | .rawMinMax => e.lo
    | .quantized565 => expand565 e.color1
  match k with
  | 0 => e0
  | 1 => e1
  | 2 => Rgb.map2 twoToOne e0 e1
  | _ => Rgb.map2 oneToTwo e0 e1

/-- `abs(v - w)` of two non-negative numbers (R9). -/
def absDiff (v w : Nat) : Nat := (v - w) + (w - v)

/-- The summed squared channel distance of R454. -/
def dist2 (p : Pixel) (q : Rgb) : Nat :=
  absDiff p.r.toNat q.r.toNat ^ 2 + absDiff p.g.toNat q.g.toNat ^ 2 + absDiff p.b.toNat q.b.toNat ^ 2

/-- The search loop of R454 and R457 over entries 0 to `n`: the best index so far and its distance; a tie keeps the
lower index. -/
def nearestLoop (d : Nat → Nat) : Nat → Nat × Nat
  | 0 => (0, d 0)
  | n + 1 =>
    let best := nearestLoop d n
    if d (n + 1) < best.2 then (n + 1, d (n + 1)) else best

/-- The index of the least of `d 0 … d n`, the lowest on a tie (R454, R457). -/
def nearest (d : Nat → Nat) (n : Nat) : Nat := (nearestLoop d n).1

/-- DXT1 index selection (R454). -/
def dxt1Index (p : Pixel) (e : Nat → Rgb) : Nat := nearest (fun k => dist2 p (e k)) 3

/-- The 32-bit index field of a compressed DXT1 block (R455). -/
def dxt1IndexField (src : Config.PaletteSource) (t : Tile) : Nat :=
  packFields 2 (fun i => dxt1Index (t i) (dxt1EncPalette src (dxt1Endpoints t))) 16

/-- `compressDXT1` (R455): 16 pixels to 8 bytes. -/
def compressDXT1 (src : Config.PaletteSource) (t : Tile) : List Byte :=
  leBytes (dxt1Endpoints t).color0.toNat 2 ++ leBytes (dxt1Endpoints t).color1.toNat 2 ++
    leBytes (dxt1IndexField src t) 4

/-- The greatest alpha of the tile (R457). -/
def alphaMax (t : Tile) : Nat := maxOver (fun i => (t i).a) 16

/-- The least alpha of the tile (R457). -/
def alphaMin (t : Tile) : Nat := minOver (fun i => (t i).a) 16

/-- The encoder's alpha palette (R457), entry `k` of 0 to 7, always by the 8-step formula. -/
def encAlphaPalette (amax amin k : Nat) : Nat :=
  match k with
  | 0 => amax
  | 1 => amin
  | j + 2 => eightStep amax amin j

/-- Alpha index selection by absolute difference (R457). -/
def dxt5Index (a : Byte) (ap : Nat → Nat) : Nat := nearest (fun k => absDiff a.toNat (ap k)) 7

/-- The 48-bit alpha index field of a compressed DXT5 block (R457). -/
def dxt5IndexField (t : Tile) : Nat :=
  packFields 3 (fun i => dxt5Index (t i).a (encAlphaPalette (alphaMax t) (alphaMin t))) 16

/-- `dxt5AlphaHalf` (R457): the first 8 bytes of a compressed DXT5 block. -/
def dxt5AlphaHalf (t : Tile) : List Byte :=
  [BitVec.ofNat 8 (alphaMax t), BitVec.ofNat 8 (alphaMin t)] ++ leBytes (dxt5IndexField t) 6

/-- `compressDXT5` (R458): 16 pixels to 16 bytes. -/
def compressDXT5 (src : Config.PaletteSource) (t : Tile) : List Byte := dxt5AlphaHalf t ++ compressDXT1 src t

/-- The tile a tile encode reads (R470, R471). -/
def sourceTile (s : State) : Tile := readTile s.mem s.eng.snap.src.toNat s.eng.snap.spitch.toNat

/-- The job of a tile encode: read the tile, store the block at `dst`, give its byte count as the result. -/
def tileEncodeJob (enc : Tile → List Byte) (s : State) : Job :=
  storeJob (tileReads s.eng.snap.src.toNat s.eng.snap.spitch.toNat) s.eng.snap.dst.toNat (enc (sourceTile s))

/-- `ENC_DXT1_TILE` (R470). -/
def execEncDxt1Tile (s : State) : Host.Outcome State Fault Refusal :=
  perform .encDxt1Tile (tileEncodeJob (compressDXT1 s.params.paletteSource) s) s

/-- `ENC_DXT5_TILE` (R471). -/
def execEncDxt5Tile (s : State) : Host.Outcome State Fault Refusal :=
  perform .encDxt5Tile (tileEncodeJob (compressDXT5 s.params.paletteSource) s) s

end Sys2Proof.Machine
end

