-- ==== Sys2Proof/Machine/PixelConvert.lean ====
section
/-! DEFINITION. Pixel format conversion (R500, R501), the edges of block images (R514, R515) and the commands DEC_IMAGE
and ENC_IMAGE (R520, R521). -/

namespace Sys2Proof.Machine

open Sys2Proof

/-- Byte `k` of a pixel's bytes. -/
def byteAt (p : List Byte) (k : Nat) : Byte := p.getD k 0

/-- Decode of one pixel of a converter format from its bytes (R500, with the layouts of R331); none for a format the
converter does not list. -/
def decodePixel (f : Format) (p : List Byte) : Option Pixel :=
  match f with
  | .rgba8888 => some ⟨byteAt p 0, byteAt p 1, byteAt p 2, byteAt p 3⟩
  | .abgr8888 => some ⟨byteAt p 3, byteAt p 2, byteAt p 1, byteAt p 0⟩
  | .rgb888 => some ⟨byteAt p 0, byteAt p 1, byteAt p 2, 255⟩
  | .bgr888 => some ⟨byteAt p 2, byteAt p 1, byteAt p 0, 255⟩
  | .i8 => some ⟨byteAt p 0, byteAt p 0, byteAt p 0, 255⟩
  | .ia88 => some ⟨byteAt p 0, byteAt p 0, byteAt p 0, byteAt p 1⟩
  | .a8 => some ⟨255, 255, 255, byteAt p 0⟩
  | .argb8888 => some ⟨byteAt p 1, byteAt p 2, byteAt p 3, byteAt p 0⟩
  | .bgra8888 => some ⟨byteAt p 2, byteAt p 1, byteAt p 0, byteAt p 3⟩
  | .bgrx8888 => some ⟨byteAt p 2, byteAt p 1, byteAt p 0, 255⟩
  | _ => none

/-- Encode of one pixel to a converter format of `ENC_SET` (R501); none for another format. -/
def encodePixel (f : Format) (q : Pixel) : Option (List Byte) :=
  match f with
  | .rgba8888 => some [q.r, q.g, q.b, q.a]
  | .bgra8888 => some [q.b, q.g, q.r, q.a]
  | .rgb888 => some [q.r, q.g, q.b]
  | .bgr888 => some [q.b, q.g, q.r]
  | _ => none

/-- The block decoder of a block format in `DEC_IMAGE` (R513, R520). -/
def blockDecoder : Format → Option (List Byte → Tile)
  | .dxt1 => some fun b => decodeDXT1 b false
  | .dxt1OneBitAlpha => some fun b => decodeDXT1 b true
  | .dxt3 => some decodeDXT3
  | .dxt5 => some decodeDXT5
  | _ => none

/-- The block encoder of a block format in `ENC_IMAGE` (R521). -/
def blockEncoder (src : Config.PaletteSource) : Format → Option (Tile → List Byte)
  | .dxt1 => some (compressDXT1 src)
  | .dxt5 => some (compressDXT5 src)
  | _ => none

/-- Magenta, what a non-decodable format fills the destination with (R512). -/
def magenta : Pixel := ⟨255, 0, 255, 255⟩

/-- The address of block `(bx, by)` of a block image `w` pixels wide, `bs` bytes a block (R327). -/
def blockAddr (base bs w bx by' : Nat) : Nat := base + bs * (by' * ceilDiv w 4 + bx)

/-- `putPix` (R520). -/
def putPixel (dst w x y : Nat) (q : Pixel) : List (Nat × Byte) := storeBytes (imageAddr dst 4 w x y) q.bytes

/-- The writes of one decoded block: only the tile pixels inside the image (R514). -/
def blockWrites (dst w h bx by' : Nat) (t : Tile) : List (Nat × Byte) :=
  gridList 4 4 fun x y =>
    if 4 * bx + x < w ∧ 4 * by' + y < h then putPixel dst w (4 * bx + x) (4 * by' + y) (t (4 * y + x)) else []

/-- `DEC_IMAGE` of a block format (R520). -/
def decodeBlockImage (m : Memory) (src dst w h bs : Nat) (dec : List Byte → Tile) : Job :=
  { reads := gridList (ceilDiv w 4) (ceilDiv h 4) fun bx by' => addrs (blockAddr src bs w bx by') bs
    writes := gridList (ceilDiv w 4) (ceilDiv h 4) fun bx by' =>
      blockWrites dst w h bx by' (dec (m.bytes (blockAddr src bs w bx by') bs))
    result := 4 * w * h
    warn := false }

/-- `DEC_IMAGE` of a converter format of `n` bytes a pixel (R520). -/
def decodePixelImage (m : Memory) (src dst w h n : Nat) (f : Format) : Job :=
  { reads := gridList w h fun x y => addrs (imageAddr src n w x y) n
    writes := gridList w h fun x y =>
      putPixel dst w x y ((decodePixel f (m.bytes (imageAddr src n w x y) n)).getD magenta)
    result := 4 * w * h
    warn := false }

/-- `DEC_IMAGE` of a format that is not decodable: nothing read, magenta, the soft warning (R512). -/
def fillImage (dst w h : Nat) : Job :=
  { reads := []
    writes := gridList w h fun x y => putPixel dst w x y magenta
    result := 4 * w * h
    warn := true }

/-- The job of `DEC_IMAGE` (R520). -/
def decodeImageJob (f : Format) (s : State) : Job :=
  let sn := s.eng.snap
  let src := sn.src.toNat
  let dst := sn.dst.toNat
  let w := sn.width.toNat
  let h := sn.height.toNat
  match blockDecoder f, Format.bsize f with
  | some dec, some bs => decodeBlockImage s.mem src dst w h bs dec
  | _, _ =>
    match Format.decodable f, Format.bpp f with
    | true, some n => decodePixelImage s.mem src dst w h n f
    | _, _ => fillImage dst w h

/-- The image column or row that fills tile position `n` under `CLAMP` (R515). -/
def clampCoord (n size : Nat) : Nat := min n (size - 1)

/-- `edgePixel(X, Y)` (R515) of the RGBA8 image at `src`. -/
def edgePixel (fill : Config.EdgeFill) (m : Memory) (src w h x y : Nat) : Pixel :=
  match fill with
  | .clamp => readPixel m (imageAddr src 4 w (clampCoord x w) (clampCoord y h))
  | .zero => if w ≤ x ∨ h ≤ y then ⟨0, 0, 0, 0⟩ else readPixel m (imageAddr src 4 w x y)

/-- The addresses `edgePixel` reads. -/
def edgeReads (fill : Config.EdgeFill) (src w h x y : Nat) : List Nat :=
  match fill with
  | .clamp => addrs (imageAddr src 4 w (clampCoord x w) (clampCoord y h)) 4
  | .zero => if w ≤ x ∨ h ≤ y then [] else addrs (imageAddr src 4 w x y) 4

/-- The tile of block `(bx, by)` of the image (R515, R521). -/
def edgeTile (fill : Config.EdgeFill) (m : Memory) (src w h bx by' : Nat) : Tile := fun i =>
  edgePixel fill m src w h (4 * bx + i % 4) (4 * by' + i / 4)

/-- `ENC_IMAGE` to a block format (R521). -/
def encodeBlockImage (fill : Config.EdgeFill) (m : Memory) (src dst w h bs size : Nat) (enc : Tile → List Byte) : Job :=
  { reads := gridList (ceilDiv w 4) (ceilDiv h 4) fun bx by' =>
      gridList 4 4 fun x y => edgeReads fill src w h (4 * bx + x) (4 * by' + y)
    writes := gridList (ceilDiv w 4) (ceilDiv h 4) fun bx by' =>
      storeBytes (blockAddr dst bs w bx by') (enc (edgeTile fill m src w h bx by'))
    result := size
    warn := false }

/-- `ENC_IMAGE` to a converter format of `n` bytes a pixel (R521). -/
def encodePixelImage (m : Memory) (src dst w h n size : Nat) (f : Format) : Job :=
  { reads := gridList w h fun x y => addrs (imageAddr src 4 w x y) 4
    writes := gridList w h fun x y =>
      storeBytes (imageAddr dst n w x y) ((encodePixel f (readPixel m (imageAddr src 4 w x y))).getD [])
    result := size
    warn := false }

/-- The job of `ENC_IMAGE` (R521); a format outside R511 never passes the checks. -/
def encodeImageJob (f : Format) (s : State) : Job :=
  let sn := s.eng.snap
  let src := sn.src.toNat
  let dst := sn.dst.toNat
  let w := sn.width.toNat
  let h := sn.height.toNat
  match blockEncoder s.params.paletteSource f, Format.bsize f with
  | some enc, some bs => encodeBlockImage s.params.edgeFill s.mem src dst w h bs (imageBytes w h f) enc
  | _, _ => encodePixelImage s.mem src dst w h ((Format.bpp f).getD 0) (imageBytes w h f) f

/-- `DEC_IMAGE fmt=<f>` (R520). -/
def execDecImage (f : Format) (s : State) : Host.Outcome State Fault Refusal :=
  perform (.decImage f) (decodeImageJob f s) s

/-- `ENC_IMAGE fmt=<f>` (R521). -/
def execEncImage (f : Format) (s : State) : Host.Outcome State Fault Refusal :=
  perform (.encImage f) (encodeImageJob f s) s

end Sys2Proof.Machine
end

