-- ==== Sys2Proof/Machine/Dispatch.lean ====
section
/-! DEFINITION. The meaning of each command, one arm per constructor (R301). -/

namespace Sys2Proof.Machine

open Sys2Proof

/-- `perform(op, eng.snap)` of R172 with the checks and the completion around it. -/
def exec (i : Instr) (s : State) : Host.Outcome State Fault Refusal :=
  match i with
  | .encDxt1Tile => Sys2Proof.Machine.execEncDxt1Tile s
  | .encDxt5Tile => Sys2Proof.Machine.execEncDxt5Tile s
  | .decDxt1Tile hasAlpha => Sys2Proof.Machine.execDecDxt1Tile hasAlpha s
  | .decDxt3Tile => Sys2Proof.Machine.execDecDxt3Tile s
  | .decDxt5Tile => Sys2Proof.Machine.execDecDxt5Tile s
  | .encImage fmt => Sys2Proof.Machine.execEncImage fmt s
  | .decImage fmt => Sys2Proof.Machine.execDecImage fmt s
  | .mipDown => Sys2Proof.Machine.execMipDown s
  | .size fmt => Sys2Proof.Machine.execSize fmt s

end Sys2Proof.Machine
end

