-- ==== Sys2Proof/Machine/Step.lean ====
section
/-! DEFINITION. One cycle of the block and its host (R100, R172, R174): the engine's turn when a command in flight has
no cycles left, the host's turn otherwise. -/

namespace Sys2Proof.Machine

open Sys2Proof

/-- The engine performs the command in `eng.snap` (R172); an illegal word completes with `ERR_ILLEGAL_OP` (R305). -/
def engineTurn (s : State) : Host.Outcome State Fault Refusal :=
  match decode s.eng.snap.cmd with
  | some i => exec i s
  | none => .next (raiseError .illegalOp s)

/-- One cycle. -/
def step (s : State) : Host.Outcome State Fault Refusal :=
  match s.eng.state with
  | .idle => hostTurn s
  | .busy =>
    match s.eng.progress with
    | 0 => engineTurn s
    | n + 1 => hostTurn { s with eng := { s.eng with progress := n } }

/-- `s` with the command word placed where the engine takes its next command from: accepted (R170) with no cycle left
before it is performed, so that the very next step performs it (assumption 7). -/
def State.withFetchWord (s : State) (nbits w : Nat) : State := accept (tableWord nbits w) 0 s

end Sys2Proof.Machine
end

