-- ==== Sys2Proof/Safety.lean ====
section
/-! DEFINITION. What claims are stated in: the machine's invariant, the completion of a command and the accesses a
command may make. -/

namespace Sys2Proof.Machine

open Sys2Proof

/-- The invariant of the machine, kept by every step. -/
structure Inv (s : State) : Prop where
  /-- The buffer memory is in its canonical form. -/
  mem_wf : s.mem.wf = true
  /-- "BUSY=1 implies DONE=0, WARN=0, ERR=0" (R112). -/
  busy_clear : s.busy = true → s.status.done = false ∧ s.status.warn = false ∧ s.status.err = .ok
  /-- "WARN=1 implies ERR=0" (R112). -/
  warn_no_err : s.status.warn = true → s.status.err = .ok
  /-- ERR and WARN describe a completed command (R722). -/
  err_done : s.status.err ≠ .ok ∨ s.status.warn = true → s.status.done = true
  /-- "On error RESULT_LO and RESULT_HI are 0" (R601). -/
  err_no_result : s.status.err ≠ .ok → s.regs.resultLo = 0 ∧ s.regs.resultHi = 0
  /-- The command in flight is the one CMD shows (R170, R171). -/
  cmd_in_flight : s.busy = true → s.eng.snap.cmd = s.regs.cmd
  /-- While a command is in flight the host owes the STATUS read for its spans (R720). -/
  busy_owed : s.busy = true → wordSpans s.eng.snap ∈ s.host.owed

/-- `t` is `s` after the completion `complete(code, warn, result)` (R173), the buffer memory and the draw counter aside:
RESULT, ERR, WARN, DONE and `eng.state` are written, every other register, LOST, the snapshot, the host's side and the
parameters stay. -/
structure Completed (s t : State) (code : ErrCode) (warn : Bool) (result : DWord) : Prop where
  regs : t.regs = { s.regs with resultLo := result.extractLsb' 0 32, resultHi := result.extractLsb' 32 32 }
  status : t.status = { done := true, warn := warn, lost := s.status.lost, err := code }
  eng : t.eng = { s.eng with state := .idle }
  host : t.host = s.host
  params : t.params = s.params

/-- Neither span passes 2^32 and the spans do not intersect (R215). -/
def SpansClear (p : Spans) : Prop :=
  p.src + p.slen ≤ 2 ^ 32 ∧ p.dst + p.dlen ≤ 2 ^ 32 ∧
    (p.slen = 0 ∨ p.dlen = 0 ∨ p.dst + p.dlen ≤ p.src ∨ p.src + p.slen ≤ p.dst)

/-- Two memories hold the same byte at every address where `P` holds. -/
def SameBytes (P : Nat → Prop) (m m' : Memory) : Prop := ∀ a, P a → m'.read a = m.read a

/-- Command `i` completes on `s` with `ERR_NONE`, this soft warning and this result, every other register as before
(R173), and leaves a memory of which `P` holds; nothing was drawn. -/
def CompletesOk (i : Instr) (s : State) (warn : Bool) (result : Nat) (P : Memory → Prop) : Prop :=
  ∃ t, exec i s = .next t ∧ Completed s t .ok warn (BitVec.ofNat 64 result) ∧ P t.mem ∧ t.draws = s.draws

/-- Command `i` ends on `s` with the error `e` before any access: RESULT 0, every other register and the whole buffer
memory as before (R602, R610). -/
def ErrsBeforeAccess (i : Instr) (s : State) (e : ErrCode) : Prop :=
  ∃ t, exec i s = .next t ∧ Completed s t e false 0 ∧ t.mem = s.mem ∧ t.draws = s.draws

/-- The RGBA8 pixel at address `a` (R202). -/
def pixelAt (m : Memory) (a : Nat) : Pixel := ⟨m.read a, m.read (a + 1), m.read (a + 2), m.read (a + 3)⟩

/-- Address `a` lies in the 16 bytes of row `y` of a tile at `base` with row pitch `pitch` (R214). -/
def inTileRow (base pitch y a : Nat) : Prop := base + y * pitch ≤ a ∧ a < base + y * pitch + 16

/-- The memory `m'` is `m` with tile `t` written at `dst` with row pitch `pitch` (R408): a byte that row `y` covers and
no later row does holds row `y`'s byte (R217), a byte that no row covers keeps its value. -/
def TileWritten (m m' : Memory) (dst pitch : Nat) (t : Tile) : Prop :=
  (∀ x y k, x < 4 → y < 4 → k < 4 →
    (∀ y', y < y' → y' < 4 → ¬inTileRow dst pitch y' (dst + y * pitch + 4 * x + k)) →
      m'.read (dst + y * pitch + 4 * x + k) = (t (4 * y + x)).bytes.getD k 0) ∧
  SameBytes (fun a => ∀ y, y < 4 → ¬inTileRow dst pitch y a) m m'

/-- The memory `m'` is `m` with the bytes `[dst, dst + n)` replaced, byte `k` by `f k`. -/
def BytesWritten (m m' : Memory) (dst n : Nat) (f : Nat → Byte) : Prop :=
  (∀ k, k < n → m'.read (dst + k) = f k) ∧ SameBytes (fun a => a < dst ∨ dst + n ≤ a) m m'

/-- The memory `m'` is `m` with a packed image of `w × h` items of `n` bytes at `dst`, the item of `(x, y)` at
`dst + n·(y·w + x)` (R327), and no other byte changed. -/
def ImageWritten (m m' : Memory) (dst n w h : Nat) (item : Nat → Nat → List Byte) : Prop :=
  (∀ x y k, x < w → y < h → k < n → m'.read (dst + n * (y * w + x) + k) = (item x y).getD k 0) ∧
  SameBytes (fun a => a < dst ∨ dst + n * (w * h) ≤ a) m m'

/-- `MEM_OK` accepts a read of every byte of `[a, a + n)` (R216). -/
def CanRead (p : Config.Params) (a n : Nat) : Prop := ∀ k, k < n → readOk p (a + k) = true

/-- `MEM_OK` accepts a write of every byte of `[a, a + n)` (R216). -/
def CanWrite (p : Config.Params) (a n : Nat) : Prop := ∀ k, k < n → writeOk p (a + k) = true

/-- `MEM_OK` accepts every read of a command: of the four rows of a tile it encodes, of the pixels some footprint of
`MIP_DOWN` holds, and of every byte of any other source span (R216). -/
def ReadsAccepted (p : Config.Params) (i : Instr) (sn : Snap) : Prop :=
  let w := sn.width.toNat
  let h := sn.height.toNat
  match i with
  | .encDxt1Tile | .encDxt5Tile => ∀ y, y < 4 → CanRead p (sn.src.toNat + y * sn.spitch.toNat) 16
  | .mipDown =>
    ∀ x y, x < w → y < h → x / 2 < max 1 (w / 2) → y / 2 < max 1 (h / 2) →
      CanRead p (sn.src.toNat + 4 * (y * w + x)) 4
  | .decDxt1Tile _ | .decDxt3Tile | .decDxt5Tile | .encImage _ | .decImage _ | .size _ =>
    CanRead p sn.src.toNat (spansOf i sn).slen

/-- `MEM_OK` accepts every write of a command: of the four rows of a tile it decodes, and of every byte of any other
destination span (R216). -/
def WritesAccepted (p : Config.Params) (i : Instr) (sn : Snap) : Prop :=
  match i with
  | .decDxt1Tile _ | .decDxt3Tile | .decDxt5Tile => ∀ y, y < 4 → CanWrite p (sn.dst.toNat + y * sn.dpitch.toNat) 16
  | .encDxt1Tile | .encDxt5Tile | .encImage _ | .decImage _ | .mipDown | .size _ =>
    CanWrite p sn.dst.toNat (spansOf i sn).dlen

/-- The next step is the host's turn: the engine is idle, or the command in flight has a cycle left (assumption 5). -/
def HostsTurn (s : State) : Prop := s.eng.state = .idle ∨ ∃ n, s.eng.progress = n + 1

/-- `s` with one cycle less left for a command in flight, as the host's turn finds it (assumption 5). -/
def State.cycled (s : State) : State :=
  match s.eng.state with
  | .idle => s
  | .busy => { s with eng := { s.eng with progress := s.eng.progress - 1 } }

end Sys2Proof.Machine
end

