-- ==== Sys2Proof/Certificates/Slice0/Obligations.lean ====
section
/-! DEFINITION. The statements for the provers. -/

open Sys2Proof Sys2Proof.Machine

/-! ### Encoding -/

/-- R300, R301, R304: command words written out bit by bit from the encoding of each command decode to it. The FMT
codes 0 to 26 name the formats of R330, a numbering the spec marks as general knowledge (assumption 14). -/
def Obligations.SpecWordsDecode : Prop :=
  decode 0b00000000000000000000000000000001 = some .encDxt1Tile ∧
  decode 0b00000000000000000000000000000010 = some .encDxt5Tile ∧
  decode 0b00000000000000010000000000000011 = some (.decDxt1Tile true) ∧
  decode 0b00000000000000000000000000000100 = some .decDxt3Tile ∧
  decode 0b00000000000000000000000000000101 = some .decDxt5Tile ∧
  decode 0b00000000000000000000110100000110 = some (.encImage .dxt1) ∧
  decode 0b00000000000000000110001100000111 = some (.decImage (.unknown 99)) ∧
  decode 0b00000000000000000000000000001000 = some .mipDown ∧
  decode 0b00000000000000000000110100001001 = some (.size .dxt1) ∧
  (List.range 27).map (fun code => decode (BitVec.ofNat 32 (code * 256 + 0x09))) =
    [.rgba8888, .abgr8888, .rgb888, .bgr888, .rgb565, .i8, .ia88, .p8, .a8, .rgb888Bluescreen, .bgr888Bluescreen,
      .argb8888, .bgra8888, .dxt1, .dxt3, .dxt5, .bgrx8888, .bgr565, .bgrx5551, .bgra4444, .dxt1OneBitAlpha,
      .bgra5551, .uv88, .uvwq8888, .rgba16161616f, .rgba16161616, .uvlx8888].map fun f => some (.size f)

/-- Decode and encode agree on every well-formed command, with every FMT code and both values of A. -/
def Obligations.DecodeOfEncode : Prop :=
  ∀ i : Instr, i.wf = true → decode (encode i) = some i

/-- A word the decoder accepts is the one word of the command it names, and that command is well formed. -/
def Obligations.EncodeOfDecode : Prop :=
  ∀ (w : Word) (i : Instr), decode w = some i → encode i = w ∧ i.wf = true

/-- R303: FMT is 0 unless OP is 0x06, 0x07 or 0x09, A is 0 unless OP is 0x03, bits 31:17 are 0; a word that breaks one
of these is illegal. -/
def Obligations.FieldUseConstraints : Prop :=
  ∀ w : Word,
    ((w.extractLsb' 8 8 ≠ 0 ∧ w.extractLsb' 0 8 ≠ 0x06#8 ∧ w.extractLsb' 0 8 ≠ 0x07#8 ∧ w.extractLsb' 0 8 ≠ 0x09#8) ∨
      (w.getLsbD 16 = true ∧ w.extractLsb' 0 8 ≠ 0x03#8) ∨ w.extractLsb' 17 15 ≠ 0) →
    decode w = none

/-- R305: exactly the words with a reserved OP, a reserved bit, or FMT or A set where R303 forbids it are illegal, and
the engine's turn on one completes with ERR_ILLEGAL_OP, RESULT 0 and the buffer memory untouched. -/
def Obligations.IllegalWordsCompleteWithIllegalOp : Prop :=
  (∀ w : Word, decode w = none ↔
    (w.extractLsb' 0 8 = 0 ∨ 0x0A ≤ (w.extractLsb' 0 8).toNat) ∨ w.extractLsb' 17 15 ≠ 0 ∨
    (w.extractLsb' 8 8 ≠ 0 ∧ w.extractLsb' 0 8 ≠ 0x06#8 ∧ w.extractLsb' 0 8 ≠ 0x07#8 ∧ w.extractLsb' 0 8 ≠ 0x09#8) ∨
    (w.getLsbD 16 = true ∧ w.extractLsb' 0 8 ≠ 0x03#8)) ∧
  ∀ s : State, s.eng.state = .busy → s.eng.progress = 0 → decode s.eng.snap.cmd = none →
    ∃ t, step s = .next t ∧ Completed s t .illegalOp false 0 ∧ t.mem = s.mem

/-! ### One step -/

/-- R172: when a command in flight has no cycle left, the step is `exec` of the decoded command and nothing else; in
every other cycle the step is the host's turn, a command in flight having one cycle less. A word placed by
`withFetchWord` is performed by the very next step. -/
def Obligations.StepRunsDecodedCommand : Prop :=
  (∀ (s : State) (i : Instr), s.eng.state = .busy → s.eng.progress = 0 → decode s.eng.snap.cmd = some i →
    step s = exec i s) ∧
  (∀ (s : State) (n : Nat), s.eng.state = .busy → s.eng.progress = n + 1 →
    step s = hostTurn { s with eng := { s.eng with progress := n } }) ∧
  (∀ s : State, s.eng.state = .idle → step s = hostTurn s) ∧
  (∀ (s : State) (w : Nat) (i : Instr), decodeTableWord 32 w = some i →
    step (s.withFetchWord 32 w) = exec i (s.withFetchWord 32 w))

/-- The invariant holds right after reset. -/
def Obligations.InvariantAtReset : Prop := Inv State.reset

/-- Every step that takes a next state keeps the invariant, from every state that has it. -/
def Obligations.StepKeepsInvariant : Prop :=
  ∀ s t : State, Inv s → step s = .next t → Inv t

/-- Every command answers a next state from every state: the engine idle, DONE set, BUSY 0, no register written but
RESULT, STATUS.LOST, the snapshot, the host's side and the parameters as before (R173, R631: no trap, no stop). -/
def Obligations.EveryCommandCompletes : Prop :=
  ∀ (i : Instr) (s : State), ∃ t code warn result, exec i s = .next t ∧ Completed s t code warn result ∧
    (code ≠ .ok → warn = false ∧ result = 0) ∧ (warn = true → ∃ f, i = .decImage f)

/-- R214: "every byte outside D keeps its value", for every command and whatever it ends with. -/
def Obligations.CommandsWriteOnlyTheirDestinationSpan : Prop :=
  ∀ (i : Instr) (s t : State), exec i s = .next t →
    SameBytes (fun a => (spansOf i s.eng.snap).inDst a = false) s.mem t.mem

/-- R214: "The engine reads only bytes in S": two memories that agree on the source span of a command give the same
registers, STATUS and draws, and at every address the command leaves either the same byte on both or each memory's own
byte as it was, so that no byte it writes depends on a byte outside S, its own old value included. -/
def Obligations.CommandsReadOnlyTheirSourceSpan : Prop :=
  ∀ (i : Instr) (s : State) (m : Memory), SameBytes (fun a => (spansOf i s.eng.snap).inSrc a = true) s.mem m →
    ∀ t t', exec i s = .next t → exec i { s with mem := m } = .next t' →
      t'.regs = t.regs ∧ t'.status = t.status ∧ t'.eng = t.eng ∧ t'.draws = t.draws ∧
        ∀ a, t'.mem.read a = t.mem.read a ∨ (t.mem.read a = s.mem.read a ∧ t'.mem.read a = m.read a)

/-- Steps 2 to 5 of the check order of R620: the first check that fails is the one reported, with RESULT 0 and the
buffer memory untouched (R602). -/
def Obligations.ChecksReportTheFirstFailure : Prop :=
  ∀ (i : Instr) (s : State),
    let sn := s.eng.snap
    let p := spansOf i sn
    let dims := (i = .mipDown ∨ ∃ f, i = .encImage f ∨ i = .decImage f) ∧ (sn.width = 0 ∨ sn.height = 0)
    let unsupported := ∃ f, (i = .encImage f ∧ f ∉ [Format.rgba8888, .rgb888, .bgr888, .bgra8888, .dxt1, .dxt5]) ∨
      (i = .size f ∧ ∃ c, f = .unknown c)
    let range := p.src + p.slen > 2 ^ 32 ∨ p.dst + p.dlen > 2 ^ 32
    let overlap := p.slen > 0 ∧ p.dlen > 0 ∧ p.src < p.dst + p.dlen ∧ p.dst < p.src + p.slen
    (dims → ErrsBeforeAccess i s .dims) ∧
    (¬dims → unsupported → ErrsBeforeAccess i s .unsupportedFormat) ∧
    (¬dims → ¬unsupported → range → ErrsBeforeAccess i s .range) ∧
    (¬dims → ¬unsupported → ¬range → overlap → ErrsBeforeAccess i s .overlap)

/-- Which error a command ends with never depends on what the buffer memory holds (R602, R407, R460). -/
def Obligations.NoContentRaisesAnError : Prop :=
  ∀ (i : Instr) (s : State) (m : Memory) (t t' : State), exec i s = .next t → exec i { s with mem := m } = .next t' →
    t'.status = t.status

/-- R216: a command whose checks pass and that makes an access `MEM_OK` refuses ends with ERR_BUS and RESULT 0; the
bytes of the destination span are then unspecified (the free values of assumption 6, one per byte), every other byte is
as before. Which accesses a command makes is said by `ReadsAccepted` and `WritesAccepted`; SIZE makes none. -/
def Obligations.DeniedAccessEndsWithBusError : Prop :=
  ∀ (i : Instr) (s : State),
    let sn := s.eng.snap
    ((i = .mipDown ∨ ∃ f, i = .encImage f ∨ i = .decImage f) → sn.width ≠ 0 ∧ sn.height ≠ 0) →
    (∀ f, i = .encImage f → f ∈ [Format.rgba8888, .rgb888, .bgr888, .bgra8888, .dxt1, .dxt5]) →
    SpansClear (spansOf i sn) → ¬(ReadsAccepted s.params i sn ∧ WritesAccepted s.params i sn) →
    ∃ t, exec i s = .next t ∧ Completed s t .bus false 0 ∧
      ∀ a, t.mem.read a =
        if (spansOf i sn).inDst a then Config.freeByte (s.draws + (a - sn.dst.toNat)) else s.mem.read a

/-! ### The tile commands -/

/-- R420: DEC_DXT1_TILE on clear spans whose accesses are all accepted writes the tile of the block at `src`, pitch and
overlapping rows as R408 and R217 say, and gives 64. -/
def Obligations.DecDxt1TileWritesTheTile : Prop :=
  ∀ (s : State) (a : Bool),
    let sn := s.eng.snap
    SpansClear ⟨sn.src.toNat, 8, sn.dst.toNat, 3 * sn.dpitch.toNat + 16⟩ → CanRead s.params sn.src.toNat 8 →
    (∀ y, y < 4 → CanWrite s.params (sn.dst.toNat + y * sn.dpitch.toNat) 16) →
    CompletesOk (.decDxt1Tile a) s false 64 fun m =>
      TileWritten s.mem m sn.dst.toNat sn.dpitch.toNat (decodeDXT1 (s.mem.bytes sn.src.toNat 8) a)

/-- R421: DEC_DXT3_TILE, likewise, with a block of 16 bytes. -/
def Obligations.DecDxt3TileWritesTheTile : Prop :=
  ∀ s : State,
    let sn := s.eng.snap
    SpansClear ⟨sn.src.toNat, 16, sn.dst.toNat, 3 * sn.dpitch.toNat + 16⟩ → CanRead s.params sn.src.toNat 16 →
    (∀ y, y < 4 → CanWrite s.params (sn.dst.toNat + y * sn.dpitch.toNat) 16) →
    CompletesOk .decDxt3Tile s false 64 fun m =>
      TileWritten s.mem m sn.dst.toNat sn.dpitch.toNat (decodeDXT3 (s.mem.bytes sn.src.toNat 16))

/-- R422: DEC_DXT5_TILE, likewise, with a block of 16 bytes. -/
def Obligations.DecDxt5TileWritesTheTile : Prop :=
  ∀ s : State,
    let sn := s.eng.snap
    SpansClear ⟨sn.src.toNat, 16, sn.dst.toNat, 3 * sn.dpitch.toNat + 16⟩ → CanRead s.params sn.src.toNat 16 →
    (∀ y, y < 4 → CanWrite s.params (sn.dst.toNat + y * sn.dpitch.toNat) 16) →
    CompletesOk .decDxt5Tile s false 64 fun m =>
      TileWritten s.mem m sn.dst.toNat sn.dpitch.toNat (decodeDXT5 (s.mem.bytes sn.src.toNat 16))

/-- R470: ENC_DXT1_TILE on clear spans whose accesses are all accepted stores the 8 bytes of the block compressed from
the tile at `src` with row pitch `spitch`, and gives 8. -/
def Obligations.EncDxt1TileStoresTheBlock : Prop :=
  ∀ s : State,
    let sn := s.eng.snap
    SpansClear ⟨sn.src.toNat, 3 * sn.spitch.toNat + 16, sn.dst.toNat, 8⟩ →
    (∀ y, y < 4 → CanRead s.params (sn.src.toNat + y * sn.spitch.toNat) 16) → CanWrite s.params sn.dst.toNat 8 →
    CompletesOk .encDxt1Tile s false 8 fun m =>
      BytesWritten s.mem m sn.dst.toNat 8 fun k =>
        (compressDXT1 s.params.paletteSource
          (fun i => pixelAt s.mem (sn.src.toNat + i / 4 * sn.spitch.toNat + 4 * (i % 4)))).getD k 0

/-- R471: ENC_DXT5_TILE, likewise, with a block of 16 bytes. -/
def Obligations.EncDxt5TileStoresTheBlock : Prop :=
  ∀ s : State,
    let sn := s.eng.snap
    SpansClear ⟨sn.src.toNat, 3 * sn.spitch.toNat + 16, sn.dst.toNat, 16⟩ →
    (∀ y, y < 4 → CanRead s.params (sn.src.toNat + y * sn.spitch.toNat) 16) → CanWrite s.params sn.dst.toNat 16 →
    CompletesOk .encDxt5Tile s false 16 fun m =>
      BytesWritten s.mem m sn.dst.toNat 16 fun k =>
        (compressDXT5 s.params.paletteSource
          (fun i => pixelAt s.mem (sn.src.toNat + i / 4 * sn.spitch.toNat + 4 * (i % 4)))).getD k 0

/-! ### The image commands -/

/-- R520: DEC_IMAGE of a converter format of `n` bytes a pixel writes the decoded pixel of every image position, and
gives `4·W·H`. -/
def Obligations.DecImageConvertsEveryPixel : Prop :=
  ∀ (s : State) (f : Format) (n : Nat),
    let sn := s.eng.snap
    let w := sn.width.toNat
    let h := sn.height.toNat
    f ∈ [Format.rgba8888, .abgr8888, .rgb888, .bgr888, .i8, .ia88, .a8, .argb8888, .bgra8888, .bgrx8888] →
    Format.bpp f = some n → w ≠ 0 → h ≠ 0 →
    SpansClear ⟨sn.src.toNat, n * (w * h), sn.dst.toNat, 4 * (w * h)⟩ →
    CanRead s.params sn.src.toNat (n * (w * h)) → CanWrite s.params sn.dst.toNat (4 * (w * h)) →
    CompletesOk (.decImage f) s false (4 * (w * h)) fun m =>
      ImageWritten s.mem m sn.dst.toNat 4 w h fun x y =>
        match decodePixel f (s.mem.bytes (sn.src.toNat + n * (y * w + x)) n) with
        | some q => q.bytes
        | none => []

/-- R520, R514, R513: DEC_IMAGE of a block format writes, for every pixel inside the image and for no other, the pixel
of its block's tile, and gives `4·W·H`. DXT1 decodes with `hasAlpha = 0`, DXT1_ONEBITALPHA with `hasAlpha = 1`. The
row-major block order is one the spec marks as general knowledge (R327, assumption 14). -/
def Obligations.DecImageDecodesEveryBlock : Prop :=
  ∀ (s : State) (f : Format) (bs : Nat) (dec : List Byte → Tile),
    let sn := s.eng.snap
    let w := sn.width.toNat
    let h := sn.height.toNat
    let bw := (w + 3) / 4
    let bh := (h + 3) / 4
    ((f = .dxt1 ∧ bs = 8 ∧ dec = fun b => decodeDXT1 b false) ∨
      (f = .dxt1OneBitAlpha ∧ bs = 8 ∧ dec = fun b => decodeDXT1 b true) ∨
      (f = .dxt3 ∧ bs = 16 ∧ dec = decodeDXT3) ∨ (f = .dxt5 ∧ bs = 16 ∧ dec = decodeDXT5)) →
    w ≠ 0 → h ≠ 0 →
    SpansClear ⟨sn.src.toNat, bs * (bw * bh), sn.dst.toNat, 4 * (w * h)⟩ →
    CanRead s.params sn.src.toNat (bs * (bw * bh)) → CanWrite s.params sn.dst.toNat (4 * (w * h)) →
    CompletesOk (.decImage f) s false (4 * (w * h)) fun m =>
      ImageWritten s.mem m sn.dst.toNat 4 w h fun x y =>
        (dec (s.mem.bytes (sn.src.toNat + bs * (y / 4 * bw + x / 4)) bs) (4 * (y % 4) + x % 4)).bytes

/-- R512: DEC_IMAGE of a format that is not decodable reads nothing, writes every pixel as (255, 0, 255, 255) and
completes with WARN set and ERR 0. -/
def Obligations.DecImageOfUnsupportedFormatIsMagenta : Prop :=
  ∀ (s : State) (f : Format),
    let sn := s.eng.snap
    let w := sn.width.toNat
    let h := sn.height.toNat
    f ∉ [Format.rgba8888, .abgr8888, .rgb888, .bgr888, .i8, .ia88, .a8, .argb8888, .bgra8888, .bgrx8888, .dxt1, .dxt3,
      .dxt5, .dxt1OneBitAlpha] →
    w ≠ 0 → h ≠ 0 → sn.dst.toNat + 4 * (w * h) ≤ 2 ^ 32 → CanWrite s.params sn.dst.toNat (4 * (w * h)) →
    CompletesOk (.decImage f) s true (4 * (w * h)) fun m =>
      ImageWritten s.mem m sn.dst.toNat 4 w h fun _ _ => [255, 0, 255, 255]

/-- R521: ENC_IMAGE to a converter format of `n` bytes a pixel stores the encoded pixel of every image position, and
gives `CalculateImageSize(W, H, FMT)`. -/
def Obligations.EncImageConvertsEveryPixel : Prop :=
  ∀ (s : State) (f : Format) (n : Nat),
    let sn := s.eng.snap
    let w := sn.width.toNat
    let h := sn.height.toNat
    f ∈ [Format.rgba8888, .rgb888, .bgr888, .bgra8888] → Format.bpp f = some n → w ≠ 0 → h ≠ 0 →
    SpansClear ⟨sn.src.toNat, 4 * (w * h), sn.dst.toNat, n * (w * h)⟩ →
    CanRead s.params sn.src.toNat (4 * (w * h)) → CanWrite s.params sn.dst.toNat (n * (w * h)) →
    CompletesOk (.encImage f) s false (n * (w * h)) fun m =>
      ImageWritten s.mem m sn.dst.toNat n w h fun x y =>
        match encodePixel f (pixelAt s.mem (sn.src.toNat + 4 * (y * w + x))) with
        | some bs => bs
        | none => []

/-- R521, R515: ENC_IMAGE to DXT1 or DXT5 stores, for every block of the grid, the block compressed from its tile, the
positions outside the image filled as `EDGE_FILL` says, and gives `CalculateImageSize(W, H, FMT)`. The row-major block
order is one the spec marks as general knowledge (R327, assumption 14). -/
def Obligations.EncImageEncodesEveryBlock : Prop :=
  ∀ (s : State) (f : Format) (bs : Nat) (enc : Tile → List Byte),
    let sn := s.eng.snap
    let w := sn.width.toNat
    let h := sn.height.toNat
    let bw := (w + 3) / 4
    let bh := (h + 3) / 4
    let pixel := fun x y => pixelAt s.mem (sn.src.toNat + 4 * (y * w + x))
    let edge := fun x y =>
      match s.params.edgeFill with
      | .clamp => pixel (min x (w - 1)) (min y (h - 1))
      | .zero => if x ≥ w ∨ y ≥ h then ⟨0, 0, 0, 0⟩ else pixel x y
    ((f = .dxt1 ∧ bs = 8 ∧ enc = compressDXT1 s.params.paletteSource) ∨
      (f = .dxt5 ∧ bs = 16 ∧ enc = compressDXT5 s.params.paletteSource)) →
    w ≠ 0 → h ≠ 0 →
    SpansClear ⟨sn.src.toNat, 4 * (w * h), sn.dst.toNat, bs * (bw * bh)⟩ →
    CanRead s.params sn.src.toNat (4 * (w * h)) → CanWrite s.params sn.dst.toNat (bs * (bw * bh)) →
    CompletesOk (.encImage f) s false (bs * (bw * bh)) fun m =>
      ImageWritten s.mem m sn.dst.toNat bs bw bh fun bx by' =>
        enc fun i => edge (4 * bx + i % 4) (4 * by' + i / 4)

/-- R560: MIP_DOWN writes the `nw × nh` image of the averages of R550, with `nw = max(1, W/2)`, `nh = max(1, H/2)`,
reading only the footprints, and gives `nh << 16 | nw`. -/
def Obligations.MipDownWritesTheNextLevel : Prop :=
  ∀ s : State,
    let sn := s.eng.snap
    let w := sn.width.toNat
    let h := sn.height.toNat
    let nw := max 1 (w / 2)
    let nh := max 1 (h / 2)
    w ≠ 0 → h ≠ 0 → SpansClear ⟨sn.src.toNat, 4 * (w * h), sn.dst.toNat, 4 * (nw * nh)⟩ →
    (∀ x y, x < w → y < h → x / 2 < nw → y / 2 < nh → CanRead s.params (sn.src.toNat + 4 * (y * w + x)) 4) →
    CanWrite s.params sn.dst.toNat (4 * (nw * nh)) →
    CompletesOk .mipDown s false (nh * 65536 + nw) fun m =>
      ImageWritten s.mem m sn.dst.toNat 4 nw nh fun x y => (downsample s.mem sn.src.toNat w h x y).bytes

/-- R582: SIZE of a format of 0 to 26 completes on every state with `CalculateImageSize(W, H, FMT)` as the 64-bit
RESULT and touches no buffer memory; of any other code it ends with ERR_UNSUPPORTED_FORMAT. -/
def Obligations.SizeGivesTheImageSize : Prop :=
  ∀ (s : State) (f : Format),
    (∀ n, calculateImageSize s.eng.snap.width.toNat s.eng.snap.height.toNat f = some n →
      CompletesOk (.size f) s false n fun m => m = s.mem) ∧
    (∀ c, f = .unknown c → ErrsBeforeAccess (.size f) s .unsupportedFormat)

/-! ### Size and mip arithmetic -/

/-- R580, R581: the size of an image in each group of formats, dimensions clamped to at least 1, and that it is below
2^36, so that the 64-bit RESULT holds it exactly; and the bytes of a pixel of each format of R330, in part general
knowledge by the spec's own mark (assumption 14). -/
def Obligations.ImageSizeFormula : Prop :=
  ∀ (w h : Half) (f : Format),
    let w' := max 1 w.toNat
    let h' := max 1 h.toNat
    (f ∈ [Format.dxt1, .dxt1OneBitAlpha] →
      calculateImageSize w.toNat h.toNat f = some ((w' + 3) / 4 * ((h' + 3) / 4) * 8)) ∧
    (f ∈ [Format.dxt3, .dxt5] →
      calculateImageSize w.toNat h.toNat f = some ((w' + 3) / 4 * ((h' + 3) / 4) * 16)) ∧
    (∀ n, (f, n) ∈
        [(Format.rgba8888, 4), (.abgr8888, 4), (.rgb888, 3), (.bgr888, 3), (.rgb565, 2), (.i8, 1), (.ia88, 2), (.p8, 1),
          (.a8, 1), (.rgb888Bluescreen, 3), (.bgr888Bluescreen, 3), (.argb8888, 4), (.bgra8888, 4), (.bgrx8888, 4),
          (.bgr565, 2), (.bgrx5551, 2), (.bgra4444, 2), (.bgra5551, 2), (.uv88, 2), (.uvwq8888, 4),
          (.rgba16161616f, 8), (.rgba16161616, 8), (.uvlx8888, 4)] →
      Format.bpp f = some n ∧ calculateImageSize w.toNat h.toNat f = some (w' * h' * n)) ∧
    (∀ n, Format.bpp f = some n → calculateImageSize w.toNat h.toNat f = some (w' * h' * n)) ∧
    (∀ c, f = .unknown c → calculateImageSize w.toNat h.toNat f = none) ∧
    (∀ n, calculateImageSize w.toNat h.toNat f = some n → n < 2 ^ 36)

/-- R551, R550: with both dimensions at least 2 every destination pixel averages exactly the four source pixels of its
footprint, with one dimension 1 the two, with both 1 the one, each channel truncating. -/
def Obligations.MipSampleCounts : Prop :=
  ∀ (m : Memory) (src w h x y : Nat), w ≠ 0 → h ≠ 0 → x < max 1 (w / 2) → y < max 1 (h / 2) →
    let p := fun sx sy => pixelAt m (src + 4 * (sy * w + sx))
    let out := downsample m src w h x y
    ∀ c : Pixel → Byte, c ∈ [Pixel.r, Pixel.g, Pixel.b, Pixel.a] →
      (2 ≤ w → 2 ≤ h → (c out).toNat =
        ((c (p (2 * x) (2 * y))).toNat + (c (p (2 * x + 1) (2 * y))).toNat + (c (p (2 * x) (2 * y + 1))).toNat +
          (c (p (2 * x + 1) (2 * y + 1))).toNat) / 4) ∧
      (2 ≤ w → h = 1 → (c out).toNat = ((c (p (2 * x) 0)).toNat + (c (p (2 * x + 1) 0)).toNat) / 2) ∧
      (w = 1 → 2 ≤ h → (c out).toNat = ((c (p 0 (2 * y))).toNat + (c (p 0 (2 * y + 1))).toNat) / 2) ∧
      (w = 1 → h = 1 → out = p 0 0)

/-- R552: level `k` of the chain has dimensions `max(1, W >> k)`, and the chain of a `W × H` image reaches 1×1 after
exactly `floor(log2(max(W, H)))` commands. -/
def Obligations.MipChainDimensions : Prop :=
  ∀ w h k : Nat, w ≠ 0 → h ≠ 0 →
    halved^[k] w = max 1 (w >>> k) ∧
    ((halved^[k] w = 1 ∧ halved^[k] h = 1) ↔ Nat.log2 (max w h) ≤ k)

/-! ### RGB565 and block decode -/

/-- R321: the expansion of an RGB565 word, both forms of each line, and its fixed values. The places of the channels in
the word are ones the spec marks as general knowledge (R320, assumption 14). -/
def Obligations.Rgb565Expansion : Prop :=
  ∀ c : Half,
    let r5 := c.toNat / 2 ^ 11
    let g6 := c.toNat / 2 ^ 5 % 64
    let b5 := c.toNat % 32
    (expand565 c).r.toNat = (r5 <<< 3) ||| (r5 >>> 2) ∧ (expand565 c).r.toNat = (r5 <<< 3) ||| ((r5 <<< 3) >>> 5) ∧
    (expand565 c).g.toNat = (g6 <<< 2) ||| (g6 >>> 4) ∧ (expand565 c).g.toNat = (g6 <<< 2) ||| ((g6 <<< 2) >>> 6) ∧
    (expand565 c).b.toNat = (b5 <<< 3) ||| (b5 >>> 2) ∧ (expand565 c).b.toNat = (b5 <<< 3) ||| ((b5 <<< 3) >>> 5) ∧
    expand5 0 = 0 ∧ expand5 31 = 255 ∧ expand6 63 = 255

/-- R320, R322: packing truncates each channel to its field, and packing an expanded word gives the word back. The places
of the channels in the word are ones the spec marks as general knowledge (R320, assumption 14). -/
def Obligations.Rgb565PackingTruncates : Prop :=
  (∀ c : Rgb, (pack565 c).toNat = c.r.toNat / 8 * 2048 + c.g.toNat / 4 * 32 + c.b.toNat / 8) ∧
  ∀ v : Half, pack565 (expand565 v) = v

/-- R400: the DXT1 palette in both modes, each interpolated channel truncating on the 8-bit expanded values. -/
def Obligations.Dxt1PaletteModes : Prop :=
  ∀ (color0 color1 : Half) (hasAlpha : Bool),
    let p0 := expand565 color0
    let p1 := expand565 color1
    let pal := fun k => palettePixel (dxt1Palette color0 color1 hasAlpha) k
    let mixes := fun (k : Nat) (f : Nat → Nat → Nat) =>
      (pal k).r.toNat = f p0.r.toNat p1.r.toNat ∧ (pal k).g.toNat = f p0.g.toNat p1.g.toNat ∧
        (pal k).b.toNat = f p0.b.toNat p1.b.toNat ∧ (pal k).a = 255
    pal 0 = ⟨p0.r, p0.g, p0.b, 255⟩ ∧ pal 1 = ⟨p1.r, p1.g, p1.b, 255⟩ ∧
    (color0.toNat > color1.toNat ∨ hasAlpha = false →
      mixes 2 (fun c0 c1 => (2 * c0 + c1) / 3) ∧ mixes 3 fun c0 c1 => (c0 + 2 * c1) / 3) ∧
    (¬(color0.toNat > color1.toNat ∨ hasAlpha = false) →
      mixes 2 (fun c0 c1 => (c0 + c1) / 2) ∧ pal 3 = ⟨0, 0, 0, 0⟩)

/-- R323, R325, R401, R404: the endpoints and the 2-bit index of a DXT1 block and the 3-bit alpha index of a DXT5 block
are the fields of their little-endian numbers, row `y` of the colour indices being byte `4 + y`, and decode looks its
palette up with them. R402, R405, R406: with `hasAlpha = 0` every pixel is opaque, and the colour halves of DXT3 and
DXT5 are decoded so. -/
def Obligations.BlockFieldsAndLookup : Prop :=
  ∀ (b : List Byte) (i : Nat), 8 ≤ b.length → i < 16 →
    (blockColor0 b).toNat = leNat (b.take 2) ∧ (blockColor1 b).toNat = leNat ((b.drop 2).take 2) ∧
    colorIndex b i = leNat ((b.drop 4).take 4) / 2 ^ (2 * i) % 4 ∧
    colorIndex b i = (b.getD (4 + i / 4) 0).toNat / 2 ^ (2 * (i % 4)) % 4 ∧
    alphaIndex b i = leNat ((b.drop 2).take 6) / 2 ^ (3 * i) % 8 ∧
    (∀ a, decodeDXT1 b a i = palettePixel (dxt1Palette (blockColor0 b) (blockColor1 b) a) (colorIndex b i)) ∧
    (decodeDXT5 b i).a = dxt5AlphaPalette (b.getD 0 0) (b.getD 1 0) (alphaIndex b i) ∧
    (decodeDXT1 b false i).a = 255 ∧
    (decodeDXT3 b i).rgb = (decodeDXT1 (b.drop 8) false i).rgb ∧
    (decodeDXT5 b i).rgb = (decodeDXT1 (b.drop 8) false i).rgb

/-- R324, R403: the nibble of tile pixel `i` is bits `4i+3 : 4i` of the little-endian 64-bit field, and its alpha is 17
times the nibble. -/
def Obligations.Dxt3AlphaReplicatesTheNibble : Prop :=
  ∀ (b : List Byte) (i : Nat), 8 ≤ b.length → i < 16 →
    let nibble := leNat (b.take 8) / 2 ^ (4 * i) % 16
    alphaNibble b i = nibble ∧ (dxt3Alpha b i).toNat = nibble ||| (nibble <<< 4) ∧
      (dxt3Alpha b i).toNat = 17 * nibble ∧ (decodeDXT3 b i).a = dxt3Alpha b i

/-- R404: the DXT5 alpha palette in both branches, and that every interpolated entry lies between the endpoints. The
6-step formula is one the spec marks as general knowledge (assumption 14). -/
def Obligations.Dxt5AlphaPaletteBranches : Prop :=
  ∀ (a0 a1 : Byte),
    let ap := dxt5AlphaPalette a0 a1
    ap 0 = a0 ∧ ap 1 = a1 ∧
    (a0.toNat > a1.toNat → ∀ i, i ≤ 5 → (ap (i + 2)).toNat = ((6 - i) * a0.toNat + (i + 1) * a1.toNat) / 7 ∧
      a1.toNat ≤ (ap (i + 2)).toNat ∧ (ap (i + 2)).toNat ≤ a0.toNat) ∧
    (a0.toNat ≤ a1.toNat → ap 6 = 0 ∧ ap 7 = 255 ∧
      ∀ i, i ≤ 3 → (ap (i + 2)).toNat = ((4 - i) * a0.toNat + (i + 1) * a1.toNat) / 5 ∧
        a0.toNat ≤ (ap (i + 2)).toNat ∧ (ap (i + 2)).toNat ≤ a1.toNat)

/-! ### Block encode -/

/-- R451: `hi` and `lo` are the per-channel maximum and minimum of the 16 pixels: bounds of every pixel that some pixel
attains. -/
def Obligations.EndpointTriplesAreTheExtremes : Prop :=
  ∀ t : Tile, ∀ c : (Pixel → Byte) × (Rgb → Byte), c ∈ [(Pixel.r, Rgb.r), (Pixel.g, Rgb.g), (Pixel.b, Rgb.b)] →
    (∀ i, i < 16 → (c.2 (tileMin t)).toNat ≤ (c.1 (t i)).toNat ∧ (c.1 (t i)).toNat ≤ (c.2 (tileMax t)).toNat) ∧
    (∃ i, i < 16 ∧ c.1 (t i) = c.2 (tileMax t)) ∧ ∃ i, i < 16 ∧ c.1 (t i) = c.2 (tileMin t)

/-- R452: the swap of R451 never happens, `color0 ≥ color1` always, so that dropping it gives the same endpoints. -/
def Obligations.EndpointSwapNeverHappens : Prop :=
  ∀ t : Tile, (pack565 (tileMin t)).toNat ≤ (pack565 (tileMax t)).toNat ∧
    dxt1Endpoints t = ⟨pack565 (tileMax t), pack565 (tileMin t), tileMax t, tileMin t⟩

/-- R454: the chosen palette index minimises the summed squared distance over R, G and B, every lower index is strictly
farther (ties keep the lower), and alpha takes no part. -/
def Obligations.ColourIndexIsNearestLowestFirst : Prop :=
  ∀ (p : Pixel) (e : Nat → Rgb),
    let d := fun k : Nat => ((p.r.toNat : Int) - (e k).r.toNat) ^ 2 + ((p.g.toNat : Int) - (e k).g.toNat) ^ 2 +
      ((p.b.toNat : Int) - (e k).b.toNat) ^ 2
    dxt1Index p e ≤ 3 ∧ (∀ k, k ≤ 3 → d (dxt1Index p e) ≤ d k) ∧ (∀ k, k < dxt1Index p e → d (dxt1Index p e) < d k) ∧
      ∀ a, dxt1Index { p with a := a } e = dxt1Index p e

/-- R455 against R323: the decoder reads back from a compressed DXT1 block the endpoints and, at every pixel, the index
the encoder chose, under both palette sources. -/
def Obligations.Dxt1BlockReadsBackAsEncoded : Prop :=
  ∀ (src : Config.PaletteSource) (t : Tile),
    let b := compressDXT1 src t
    b.length = 8 ∧ blockColor0 b = pack565 (tileMax t) ∧ blockColor1 b = pack565 (tileMin t) ∧
      ∀ i, i < 16 → colorIndex b i = dxt1Index (t i) (dxt1EncPalette src (dxt1Endpoints t))

/-- R456 items 1 and 2: a compressed block has `color0 ≥ color1`; at equality `hasAlpha = 0` decodes every pixel to
`expand565(color0)`, and under QUANTIZED_565 every index is 0, so that `hasAlpha = 1` does too; under RAW_MINMAX some
tile has a pixel that decodes to transparent black. -/
def Obligations.EqualEndpointsDecode : Prop :=
  (∀ (src : Config.PaletteSource) (t : Tile) (i : Nat), i < 16 →
    let b := compressDXT1 src t
    (blockColor1 b).toNat ≤ (blockColor0 b).toNat ∧
    (blockColor0 b = blockColor1 b →
      decodeDXT1 b false i = (expand565 (blockColor0 b)).withAlpha 255 ∧
      (colorIndex b i = 3 → decodeDXT1 b true i = ⟨0, 0, 0, 0⟩) ∧
      (src = .quantized565 →
        colorIndex b i = 0 ∧ decodeDXT1 b true i = (expand565 (blockColor0 b)).withAlpha 255))) ∧
  ∃ (t : Tile) (i : Nat), i < 16 ∧ decodeDXT1 (compressDXT1 .rawMinMax t) true i = ⟨0, 0, 0, 0⟩

/-- R457, R458: the alpha half of a compressed DXT5 block holds the exact extremes of the 16 alphas and, at every pixel,
the index of the nearest entry of the 8-step palette, the lowest on a tie; the colour half is the DXT1 block. -/
def Obligations.Dxt5AlphaHalfIsNearest : Prop :=
  ∀ (src : Config.PaletteSource) (t : Tile),
    let b := compressDXT5 src t
    let amax := (b.getD 0 0).toNat
    let amin := (b.getD 1 0).toNat
    let ap := fun k => if k = 0 then amax else if k = 1 then amin else ((6 - (k - 2)) * amax + (k - 1) * amin) / 7
    let d := fun i k => ((t i).a.toNat : Int) - ap k
    b.length = 16 ∧ b.drop 8 = compressDXT1 src t ∧
    (∀ i, i < 16 → amin ≤ (t i).a.toNat ∧ (t i).a.toNat ≤ amax) ∧ (∃ i, i < 16 ∧ (t i).a.toNat = amax) ∧
    (∃ i, i < 16 ∧ (t i).a.toNat = amin) ∧
    ∀ i, i < 16 → alphaIndex b i ≤ 7 ∧ (∀ k, k ≤ 7 → |d i (alphaIndex b i)| ≤ |d i k|) ∧
      ∀ k, k < alphaIndex b i → |d i (alphaIndex b i)| < |d i k|

/-- R459: when the alphas differ the decoder's palette equals the encoder's, so that each pixel decodes to the
encoder's chosen palette value; when they are all equal every index is 0 and the alpha is reproduced exactly. -/
def Obligations.Dxt5AlphaDecodesAsEncoded : Prop :=
  ∀ (src : Config.PaletteSource) (t : Tile) (i : Nat), i < 16 →
    let b := compressDXT5 src t
    let ap := encAlphaPalette (alphaMax t) (alphaMin t)
    (alphaMin t < alphaMax t → (∀ k, k ≤ 7 → (dxt5AlphaPalette (b.getD 0 0) (b.getD 1 0) k).toNat = ap k) ∧
      (decodeDXT5 b i).a.toNat = ap (dxt5Index (t i).a ap)) ∧
    (alphaMin t = alphaMax t →
      (∀ k, k ≤ 7 → ap k = alphaMax t) ∧ alphaIndex b i = 0 ∧ (decodeDXT5 b i).a = (t i).a)

/-- R515: under CLAMP every pixel inside the image stands at its own place in the tile, and every fill pixel is a copy
of a pixel of the same tile inside the image. -/
def Obligations.ClampFillCopiesImagePixels : Prop :=
  ∀ (m : Memory) (src w h bx by' : Nat), 4 * bx < w → 4 * by' < h →
    let t := edgeTile .clamp m src w h bx by'
    let inside := fun i => 4 * bx + i % 4 < w ∧ 4 * by' + i / 4 < h
    (∀ i, i < 16 → inside i → t i = pixelAt m (src + 4 * ((4 * by' + i / 4) * w + (4 * bx + i % 4)))) ∧
    ∀ i, i < 16 → ∃ j, j < 16 ∧ inside j ∧ t i = t j

/-! ### Pixel conversion -/

/-- R500: the decoded pixel of each converter format from the bytes at increasing addresses. The channel placement and
the opaque alpha of RGB888 and BGR888 are the spec's own reading (assumption 14). -/
def Obligations.PixelDecodeTable : Prop :=
  ∀ p0 p1 p2 p3 : Byte,
    decodePixel .rgba8888 [p0, p1, p2, p3] = some ⟨p0, p1, p2, p3⟩ ∧
    decodePixel .abgr8888 [p0, p1, p2, p3] = some ⟨p3, p2, p1, p0⟩ ∧
    decodePixel .rgb888 [p0, p1, p2] = some ⟨p0, p1, p2, 255⟩ ∧
    decodePixel .bgr888 [p0, p1, p2] = some ⟨p2, p1, p0, 255⟩ ∧
    decodePixel .i8 [p0] = some ⟨p0, p0, p0, 255⟩ ∧
    decodePixel .ia88 [p0, p1] = some ⟨p0, p0, p0, p1⟩ ∧
    decodePixel .a8 [p0] = some ⟨255, 255, 255, p0⟩ ∧
    decodePixel .argb8888 [p0, p1, p2, p3] = some ⟨p1, p2, p3, p0⟩ ∧
    decodePixel .bgra8888 [p0, p1, p2, p3] = some ⟨p2, p1, p0, p3⟩ ∧
    decodePixel .bgrx8888 [p0, p1, p2, p3] = some ⟨p2, p1, p0, 255⟩

/-- R502: what encode stores, decode gives back; RGB888 and BGR888 with alpha 255, their opaque alpha being the spec's
own reading (R500, assumption 14). -/
def Obligations.PixelRoundTrips : Prop :=
  ∀ q : Pixel,
    (encodePixel .rgba8888 q).bind (decodePixel .rgba8888) = some q ∧
    (encodePixel .bgra8888 q).bind (decodePixel .bgra8888) = some q ∧
    (encodePixel .rgb888 q).bind (decodePixel .rgb888) = some ⟨q.r, q.g, q.b, 255⟩ ∧
    (encodePixel .bgr888 q).bind (decodePixel .bgr888) = some ⟨q.r, q.g, q.b, 255⟩

/-! ### The register window, acceptance and reset -/

/-- R112: the fields of the STATUS word, every reserved bit reading 0, and what a host write of it changes. -/
def Obligations.StatusWordFields : Prop :=
  ∀ (s : State) (w : Word),
    s.statusWord.getLsbD 0 = s.busy ∧ s.statusWord.getLsbD 1 = s.status.done ∧ s.statusWord.getLsbD 2 = s.status.warn ∧
    s.statusWord.getLsbD 3 = s.status.lost ∧ s.statusWord.extractLsb' 4 4 = 0 ∧
    s.statusWord.extractLsb' 8 4 = s.status.err.code ∧ s.statusWord.extractLsb' 12 20 = 0 ∧
    (writeReg .status w s).statusWord =
      if w.getLsbD 3 then s.statusWord &&& ~~~8#32 else s.statusWord

/-- R110, R121, R119, R120: a 4-byte host store at a register's own offset, on the host's turn, writes the little-endian
value of its bytes to the register the map names there: an operand register takes it, STATUS loses LOST for a written
bit 3, CTRL resets for a written bit 0, CMD is issued (`writeCmd`: IdleCommandIsAccepted, BusyCommandIsDropped), RESULT and
the reserved offsets ignore it. That alignment is judged on the offset is assumption 9, the host's queue assumption 4. -/
def Obligations.AlignedStoreWritesItsRegister : Prop :=
  ∀ (s : State) (rest : List HostAction) (off : Nat) (v : Word) (t : State), HostsTurn s →
    s.host.queue = .busWrite (s.params.regBase + off) (leBytes v.toNat 4) :: rest →
    let s' := { s.cycled with host := { s.host with queue := rest } }
    (off, t) ∈
      [(0x00, writeCmd v s'),
        (0x04, { s' with status := { s.status with lost := s.status.lost && !v.getLsbD 3 } }),
        (0x08, if v.getLsbD 0 then resetBlock s' else s'),
        (0x0C, { s' with regs := { s.regs with srcAddr := v } }),
        (0x10, { s' with regs := { s.regs with dstAddr := v } }),
        (0x14, { s' with regs := { s.regs with srcPitch := v } }),
        (0x18, { s' with regs := { s.regs with dstPitch := v } }),
        (0x1C, { s' with regs := { s.regs with dims := v } }),
        (0x20, s'), (0x24, s'), (0x28, s'), (0x2C, s'), (0x30, s'), (0x34, s'), (0x38, s'), (0x3C, s')] →
    step s = .next t

/-- R121, R120, R113, R119: a store into the window of another width or alignment, to CTRL with bit 0 clear, to RESULT or
to a reserved offset, on the host's turn, changes nothing but the host's queue. That alignment is judged on the offset,
and that an access which starts in the window and runs past it is one of another width, is assumption 9. -/
def Obligations.IneffectiveStoresChangeNothing : Prop :=
  ∀ (s : State) (rest : List HostAction) (off : Nat) (data : List Byte), HostsTurn s → off < 64 →
    s.host.queue = .busWrite (s.params.regBase + off) data :: rest →
    (data.length ≠ 4 ∨ off % 4 ≠ 0 ∨ 0x20 ≤ off ∨ (off = 0x08 ∧ leNat data % 2 = 0)) →
    step s = .next { s.cycled with host := { s.host with queue := rest } }

/-- R121, R724, R110: a store to an operand register followed by a load of the same offset, in two turns of the host,
gives the stored bytes; of all the state only that one register, what the host holds and the cycles left of a command in
flight have changed. Alignment is judged on the offset (assumption 9). -/
def Obligations.OperandRegistersReadAsWritten : Prop :=
  ∀ (s : State) (rest : List HostAction) (off : Nat) (v : Word) (regs : Regs),
    (s.eng.state = .idle ∨ ∃ n, s.eng.progress = n + 2) →
    (off, regs) ∈
      [(0x0C, { s.regs with srcAddr := v }), (0x10, { s.regs with dstAddr := v }), (0x14, { s.regs with srcPitch := v }),
        (0x18, { s.regs with dstPitch := v }), (0x1C, { s.regs with dims := v })] →
    s.host.queue =
      .busWrite (s.params.regBase + off) (leBytes v.toNat 4) :: .busRead (s.params.regBase + off) 4 :: rest →
    Sys2Proof.core.run 2 s = .next
      { s.cycled.cycled with
        regs := regs
        host := { s.host with queue := rest, busData := leBytes v.toNat 4 } }

/-- R110 to R121: a 4-byte host load at a register's own offset, on the host's turn, busy or idle, gives the little-endian
bytes of the register the map names there, CTRL and the reserved offsets reading 0; a load of another width or alignment
gives zeros. Nothing else changes but the host's queue, and a STATUS load that shows BUSY = 0 leaves no spans owed
(assumption 8). That alignment is judged on the offset, and that an access which starts in the window and runs past it
gives zeros of its width, is assumption 9. -/
def Obligations.WindowLoadsGiveTheRegisters : Prop :=
  (∀ (s : State) (rest : List HostAction) (off : Nat) (v : Word), HostsTurn s →
    s.host.queue = .busRead (s.params.regBase + off) 4 :: rest →
    (off, v) ∈
      [(0x00, s.regs.cmd), (0x04, s.statusWord), (0x08, 0), (0x0C, s.regs.srcAddr), (0x10, s.regs.dstAddr),
        (0x14, s.regs.srcPitch), (0x18, s.regs.dstPitch), (0x1C, s.regs.dims), (0x20, s.regs.resultLo),
        (0x24, s.regs.resultHi), (0x28, 0), (0x2C, 0), (0x30, 0), (0x34, 0), (0x38, 0), (0x3C, 0)] →
    step s = .next
      { s.cycled with
        host := { s.host with
          queue := rest
          busData := leBytes v.toNat 4
          owed := if off = 0x04 ∧ s.busy = false then [] else s.host.owed } }) ∧
  ∀ (s : State) (rest : List HostAction) (off n : Nat), HostsTurn s → off < 64 →
    s.host.queue = .busRead (s.params.regBase + off) n :: rest →
    (n ≠ 4 ∨ off % 4 ≠ 0 ∨ off = 0x08 ∨ 0x28 ≤ off) →
    step s = .next { s.cycled with host := { s.host with queue := rest, busData := List.replicate n 0 } }

/-- R170: a host write of `w` to CMD while the engine is idle stores `w`, latches the operands, sets BUSY and clears
DONE, WARN and ERR; LOST, RESULT and the operand registers stay. That a store at `REG_BASE` is aligned whatever REG_BASE is
is assumption 9. -/
def Obligations.IdleCommandIsAccepted : Prop :=
  ∀ (s : State) (rest : List HostAction) (w : Word), s.eng.state = .idle →
    s.host.queue = .busWrite s.params.regBase (leBytes w.toNat 4) :: rest →
    ∃ t, step s = .next t ∧ t.regs = { s.regs with cmd := w } ∧
      t.eng.snap =
        { cmd := w, src := s.regs.srcAddr, dst := s.regs.dstAddr, spitch := s.regs.srcPitch,
          dpitch := s.regs.dstPitch, width := s.regs.dims.extractLsb' 0 16,
          height := s.regs.dims.extractLsb' 16 16 } ∧
      t.busy = true ∧ t.status = { done := false, warn := false, err := .ok, lost := s.status.lost } ∧
      t.mem = s.mem ∧ t.params = s.params

/-- R171: a host write to CMD while the engine is busy is dropped: CMD, the snapshot and the command in flight stay,
and LOST is set. That the command in flight has one cycle less is assumption 5; that a store at `REG_BASE` is aligned
whatever REG_BASE is, assumption 9. -/
def Obligations.BusyCommandIsDropped : Prop :=
  ∀ (s : State) (rest : List HostAction) (w : Word) (n : Nat), s.eng.state = .busy → s.eng.progress = n + 1 →
    s.host.queue = .busWrite s.params.regBase (leBytes w.toNat 4) :: rest →
    ∃ t, step s = .next t ∧ t.regs = s.regs ∧ t.eng = { s.eng with progress := n } ∧
      t.status = { s.status with lost := true } ∧ t.mem = s.mem ∧ t.params = s.params ∧ t.draws = s.draws ∧
      t.host = { s.host with queue := rest }

/-- R122, R150: a register write while the engine is busy, a reset by CTRL aside, takes effect at once and leaves the
snapshot and the command in flight as they are. -/
def Obligations.BusyRegisterWritesLeaveTheSnapshot : Prop :=
  ∀ (s : State) (r : Reg) (w : Word), s.eng.state = .busy → (r = .ctrl → w.getLsbD 0 = false) →
    (writeReg r w s).eng = s.eng ∧ (writeReg r w s).mem = s.mem ∧
      (r ∈ [Reg.srcAddr, .dstAddr, .srcPitch, .dstPitch, .dims] → readReg r (writeReg r w s) = w) ∧
      ∀ r', r' ≠ r → r' ≠ .status → readReg r' (writeReg r w s) = readReg r' s

/-- R700: after power-on reset and after a CTRL write with bit 0 set, on the host's turn, every register reads 0, STATUS
among them, the engine is idle, and, with no command in flight, the buffer memory is unchanged. That a store at
`REG_BASE + 8` is aligned whatever REG_BASE is is assumption 9. -/
def Obligations.ResetState : Prop :=
  ∀ (s : State) (rest : List HostAction) (v : Word), v.getLsbD 0 = true →
    (s.eng.state = .idle ∨ ∃ n, s.eng.progress = n + 1) →
    (s.host.queue = .reset :: rest ∨ s.host.queue = .busWrite (s.params.regBase + 0x08) (leBytes v.toNat 4) :: rest) →
    ∃ t, step s = .next t ∧ (∀ r, readReg r t = 0) ∧ t.regs = ⟨0, 0, 0, 0, 0, 0, 0, 0⟩ ∧ t.statusWord = 0 ∧
      t.eng.state = .idle ∧ (s.eng.state = .idle → t.mem = s.mem) ∧ t.params = s.params ∧ t.host.queue = rest

/-- R701: reset, of either kind, while a command is in flight abandons it without a completion: the state is that of
R700, every byte outside its destination span is unchanged, every byte inside is unspecified (the free values of
assumption 6, the model's way to say so). An illegal word in flight has no span (R305) and leaves the whole buffer memory
unchanged. That a store at `REG_BASE + 8` is aligned whatever REG_BASE is is assumption 9. -/
def Obligations.ResetAbandonsTheCommandInFlight : Prop :=
  ∀ (s : State) (rest : List HostAction) (v : Word) (n : Nat), s.eng.state = .busy →
    s.eng.progress = n + 1 → v.getLsbD 0 = true →
    (s.host.queue = .reset :: rest ∨ s.host.queue = .busWrite (s.params.regBase + 0x08) (leBytes v.toNat 4) :: rest) →
    ∃ t, step s = .next t ∧ t.regs = Regs.reset ∧ t.statusWord = 0 ∧ t.eng.state = .idle ∧
      (∀ i, decode s.eng.snap.cmd = some i → ∀ a, a < 2 ^ 32 → t.mem.read a =
        if (spansOf i s.eng.snap).inDst a then Config.freeByte (s.draws + (a - s.eng.snap.dst.toNat))
        else s.mem.read a) ∧
      (decode s.eng.snap.cmd = none → t.mem = s.mem)

/-- R702: at reset defaults an image command or MIP_DOWN ends with ERR_DIMS, a tile command with ERR_OVERLAP, and SIZE
of a known format sizes a 1×1 image. (ENC_IMAGE of an unsupported format ends with ERR_DIMS too: the dimensions are
checked first.) -/
def Obligations.CommandsAtResetDefaults : Prop :=
  ∀ i : Instr, i.wf = true →
    let s := State.reset.withFetchWord 32 (encode i).toNat
    ∃ t, step s = .next t ∧ t.mem = [] ∧
      match i with
      | .encImage _ | .decImage _ | .mipDown => t.statusWord = 0x202
      | .encDxt1Tile | .encDxt5Tile | .decDxt1Tile _ | .decDxt3Tile | .decDxt5Tile => t.statusWord = 0x502
      | .size f => ∀ n, calculateImageSize 1 1 f = some n → t.statusWord = 2 ∧ t.regs.resultLo.toNat = n

/-- R720: from acceptance to the STATUS read that shows completion, on every turn of the host, busy or idle, a host access
to a byte of the command's spans is refused; to another byte it takes effect; an address of 2^32 or more does not exist
(R210) and faults. How the model keeps that window is assumption 8: acceptance puts the command's spans on the list of
those owed, where they stand as long as the command is in flight (an invariant of every step); an aligned STATUS load of
an idle engine empties the list, and no step but such a load and a reset takes a span off it. That a host access outside
the window does not ask `MEM_OK` is assumption 17; that alignment is judged on the offset from REG_BASE, assumption 9. -/
def Obligations.SpanHazardIsRefused : Prop :=
  (∀ (s : State) (act : HostAction) (rest : List HostAction) (a : Nat) (b : Byte),
    HostsTurn s → (act = .memRead a ∨ act = .memWrite a b) → s.host.queue = act :: rest →
    let hit := ∃ p ∈ s.host.owed, (p.src ≤ a ∧ a < p.src + p.slen) ∨ (p.dst ≤ a ∧ a < p.dst + p.dlen)
    (2 ^ 32 ≤ a → step s = .fault .noSuchAddress) ∧
    (a < 2 ^ 32 → hit → step s = .refused .spanHazard) ∧
    (a < 2 ^ 32 → ¬hit → ∃ t, step s = .next t ∧ (act = .memRead a → t.host.memData = s.mem.read a ∧ t.mem = s.mem) ∧
      (act = .memWrite a b → t.mem.read a = b ∧ ∀ k, k ≠ a → t.mem.read k = s.mem.read k))) ∧
  (∀ (s : State) (i : Instr), Inv s → s.busy = true → decode s.eng.snap.cmd = some i →
    spansOf i s.eng.snap ∈ s.host.owed) ∧
  (∀ (s : State) (rest : List HostAction) (w : Word) (i : Instr), s.eng.state = .idle → decode w = some i →
    s.host.queue = .busWrite s.params.regBase (leBytes w.toNat 4) :: rest →
    ∃ t, step s = .next t ∧ t.host.owed = spansOf i t.eng.snap :: s.host.owed) ∧
  (∀ (s : State) (rest : List HostAction), s.eng.state = .idle →
    s.host.queue = .busRead (s.params.regBase + 0x04) 4 :: rest →
    ∃ t, step s = .next t ∧ t.host.busData = leBytes s.statusWord.toNat 4 ∧ t.host.owed = []) ∧
  ∀ s t : State, step s = .next t → (∀ p ∈ s.host.owed, p ∈ t.host.owed) ∨
    (s.eng.state = .idle ∧ ∃ rest, s.host.queue = .busRead (s.params.regBase + 0x04) 4 :: rest) ∨
    (HostsTurn s ∧ ∃ rest, s.host.queue = .reset :: rest ∨
      ∃ data, data.length = 4 ∧ leNat data % 2 = 1 ∧ s.host.queue = .busWrite (s.params.regBase + 0x08) data :: rest)

/-- R730, R172: whatever the host does in the meantime, a command in flight with `n` cycles left is over after at most
`n + 1` steps, completed by the engine or abandoned by a reset, unless the host stops the machine by an access it
must not make. -/
def Obligations.CommandInFlightEnds : Prop :=
  ∀ s : State, s.busy = true →
    ∃ k, k ≤ s.eng.progress + 1 ∧ ∀ t, Sys2Proof.core.run k s = .next t → t.busy = false

/-- R730, R645: a host that leaves the block alone sees the command in flight completed after exactly one step more
than it has cycles left, and nothing change after that. -/
def Obligations.UndisturbedCommandCompletes : Prop :=
  ∀ s : State, s.busy = true → s.host.queue = [] →
    ∃ t, Sys2Proof.core.run (s.eng.progress + 1) s = .next t ∧ t.busy = false ∧ t.status.done = true ∧
      ∀ k, Sys2Proof.core.run k t = .next t

/-- R150: the snapshot is "never read while IDLE": no step of an idle engine depends on what it holds. -/
def Obligations.SnapshotUnreadWhileIdle : Prop :=
  ∀ (s t : State) (sn : Snap), s.eng.state = .idle → step s = .next t →
    ∃ t', step { s with eng := { s.eng with snap := sn } } = .next t' ∧
      (t' = t ∨ t' = { t with eng := { t.eng with snap := sn } })
end

