-- ==== Sys2Proof/Laws/State.lean ====
section
/-! SUPPORT. One lemma per field per named update of the state, true by rfl. -/

namespace Sys2Proof.Machine

open Sys2Proof

section Status
variable (st : Status) (w : Word) (e : ErrCode) (b : Bool)
@[simp] theorem Status.hostWrite_done : (st.hostWrite w).done = st.done := rfl
@[simp] theorem Status.hostWrite_warn : (st.hostWrite w).warn = st.warn := rfl
@[simp] theorem Status.hostWrite_lost : (st.hostWrite w).lost = (st.lost && !w.getLsbD 3) := rfl
@[simp] theorem Status.hostWrite_err : (st.hostWrite w).err = st.err := rfl
@[simp] theorem Status.accepted_done : st.accepted.done = false := rfl
@[simp] theorem Status.accepted_warn : st.accepted.warn = false := rfl
@[simp] theorem Status.accepted_lost : st.accepted.lost = st.lost := rfl
@[simp] theorem Status.accepted_err : st.accepted.err = .ok := rfl
@[simp] theorem Status.dropped_done : st.dropped.done = st.done := rfl
@[simp] theorem Status.dropped_warn : st.dropped.warn = st.warn := rfl
@[simp] theorem Status.dropped_lost : st.dropped.lost = true := rfl
@[simp] theorem Status.dropped_err : st.dropped.err = st.err := rfl
@[simp] theorem Status.completed_done : (st.completed e b).done = true := rfl
@[simp] theorem Status.completed_warn : (st.completed e b).warn = b := rfl
@[simp] theorem Status.completed_lost : (st.completed e b).lost = st.lost := rfl
@[simp] theorem Status.completed_err : (st.completed e b).err = e := rfl
@[simp] theorem Status.reset_done : Status.reset.done = false := rfl
@[simp] theorem Status.reset_warn : Status.reset.warn = false := rfl
@[simp] theorem Status.reset_lost : Status.reset.lost = false := rfl
@[simp] theorem Status.reset_err : Status.reset.err = .ok := rfl
end Status

section Accept
variable (w : Word) (n : Nat) (s : State)
@[simp] theorem accept_regs : (accept w n s).regs = { s.regs with cmd := w } := rfl
@[simp] theorem accept_status : (accept w n s).status = s.status.accepted := rfl
@[simp] theorem accept_eng : (accept w n s).eng = ⟨.busy, s.regs.snapshot w, n⟩ := rfl
@[simp] theorem accept_mem : (accept w n s).mem = s.mem := rfl
@[simp] theorem accept_host :
    (accept w n s).host = { s.host with owed := wordSpans (s.regs.snapshot w) :: s.host.owed } := rfl
@[simp] theorem accept_params : (accept w n s).params = s.params := rfl
@[simp] theorem accept_draws : (accept w n s).draws = s.draws := rfl
@[simp] theorem accept_busy : (accept w n s).busy = true := rfl
end Accept

section Complete
variable (e : ErrCode) (b : Bool) (r : DWord) (s : State)
@[simp] theorem complete_regs :
    (complete e b r s).regs = { s.regs with resultLo := r.extractLsb' 0 32, resultHi := r.extractLsb' 32 32 } := rfl
@[simp] theorem complete_status : (complete e b r s).status = s.status.completed e b := rfl
@[simp] theorem complete_eng : (complete e b r s).eng = { s.eng with state := .idle } := rfl
@[simp] theorem complete_mem : (complete e b r s).mem = s.mem := rfl
@[simp] theorem complete_host : (complete e b r s).host = s.host := rfl
@[simp] theorem complete_params : (complete e b r s).params = s.params := rfl
@[simp] theorem complete_draws : (complete e b r s).draws = s.draws := rfl
@[simp] theorem complete_busy : (complete e b r s).busy = false := rfl
@[simp] theorem raiseError_regs : (raiseError e s).regs = { s.regs with resultLo := 0, resultHi := 0 } := rfl
@[simp] theorem raiseError_status : (raiseError e s).status = s.status.completed e false := rfl
@[simp] theorem raiseError_eng : (raiseError e s).eng = { s.eng with state := .idle } := rfl
@[simp] theorem raiseError_mem : (raiseError e s).mem = s.mem := rfl
@[simp] theorem raiseError_host : (raiseError e s).host = s.host := rfl
@[simp] theorem raiseError_params : (raiseError e s).params = s.params := rfl
@[simp] theorem raiseError_draws : (raiseError e s).draws = s.draws := rfl
@[simp] theorem raiseError_busy : (raiseError e s).busy = false := rfl
end Complete

section Scramble
variable (p : Spans) (s : State)
@[simp] theorem scrambleDst_regs : (scrambleDst p s).regs = s.regs := rfl
@[simp] theorem scrambleDst_status : (scrambleDst p s).status = s.status := rfl
@[simp] theorem scrambleDst_eng : (scrambleDst p s).eng = s.eng := rfl
@[simp] theorem scrambleDst_mem : (scrambleDst p s).mem = s.mem.scramble p.dst s.draws p.dlen := rfl
@[simp] theorem scrambleDst_host : (scrambleDst p s).host = s.host := rfl
@[simp] theorem scrambleDst_params : (scrambleDst p s).params = s.params := rfl
@[simp] theorem scrambleDst_draws : (scrambleDst p s).draws = s.draws + p.dlen := rfl
end Scramble

section Reset
variable (s : State)
@[simp] theorem resetBlock_regs : (resetBlock s).regs = Regs.reset := rfl
@[simp] theorem resetBlock_status : (resetBlock s).status = Status.reset := rfl
@[simp] theorem resetBlock_eng : (resetBlock s).eng = Engine.reset := rfl
@[simp] theorem resetBlock_busy : (resetBlock s).busy = false := rfl
theorem resetBlock_mem :
    (resetBlock s).mem = if s.busy then (scrambleDst (wordSpans s.eng.snap) s).mem else s.mem := by
  unfold resetBlock; split <;> rfl
@[simp] theorem resetBlock_host : (resetBlock s).host = { s.host with owed := [] } := by
  unfold resetBlock; split <;> rfl
@[simp] theorem resetBlock_params : (resetBlock s).params = s.params := by
  unfold resetBlock; split <;> rfl
theorem resetBlock_draws :
    (resetBlock s).draws = if s.busy then s.draws + (wordSpans s.eng.snap).dlen else s.draws := by
  unfold resetBlock; split <;> rfl
end Reset

section Spans
variable (i : Instr) (sn : Snap)
@[simp] theorem spansOf_src : (spansOf i sn).src = sn.src.toNat := rfl
@[simp] theorem spansOf_dst : (spansOf i sn).dst = sn.dst.toNat := rfl
@[simp] theorem spansOf_slen : (spansOf i sn).slen = (spanLengths i sn).1 := rfl
@[simp] theorem spansOf_dlen : (spansOf i sn).dlen = (spanLengths i sn).2 := rfl
end Spans

section Cycled
variable (s : State)
@[simp] theorem State.cycled_regs : s.cycled.regs = s.regs := by unfold State.cycled; split <;> rfl
@[simp] theorem State.cycled_status : s.cycled.status = s.status := by unfold State.cycled; split <;> rfl
@[simp] theorem State.cycled_mem : s.cycled.mem = s.mem := by unfold State.cycled; split <;> rfl
@[simp] theorem State.cycled_host : s.cycled.host = s.host := by unfold State.cycled; split <;> rfl
@[simp] theorem State.cycled_params : s.cycled.params = s.params := by unfold State.cycled; split <;> rfl
@[simp] theorem State.cycled_draws : s.cycled.draws = s.draws := by unfold State.cycled; split <;> rfl
@[simp] theorem State.cycled_snap : s.cycled.eng.snap = s.eng.snap := by unfold State.cycled; split <;> rfl
@[simp] theorem State.cycled_engState : s.cycled.eng.state = s.eng.state := by
  unfold State.cycled; split <;> rfl
@[simp] theorem State.cycled_busy : s.cycled.busy = s.busy := by simp [State.busy]
@[simp] theorem State.cycled_statusWord : s.cycled.statusWord = s.statusWord := by simp [State.statusWord]
end Cycled

end Sys2Proof.Machine
end

