-- ==== Sys2Proof/Laws/Memory.lean ====
section
/-! SUPPORT. The buffer memory: what a read gives after a write, and that every operation keeps the canonical form. -/

namespace Sys2Proof.Machine

open Sys2Proof

@[simp] theorem Memory.read_nil (a : Nat) : Memory.read [] a = unlisted := rfl

theorem Memory.read_cons (c : Host.Cell) (m : Memory) (a : Nat) :
    Memory.read (c :: m) a = if c.1 = a then c.2 else Memory.read m a := rfl

theorem Memory.read_erase (m : Memory) (a k : Nat) :
    (m.erase a).read k = if a = k then unlisted else m.read k := by
  induction m with
  | nil => simp [Memory.erase]
  | cons c m ih =>
    simp only [Memory.erase] at ih
    by_cases h : c.1 = a
    · by_cases hk : a = k <;> simp_all [Memory.erase, Memory.read_cons]
    · by_cases hk : c.1 = k
      · have : a ≠ k := by omega
        simp_all [Memory.erase, Memory.read_cons]
      · simp_all [Memory.erase, Memory.read_cons]

theorem Memory.read_insert (m : Memory) (a k : Nat) (b : Byte) :
    ((m.erase a).insert a b).read k = if a = k then b else m.read k := by
  have hk : ∀ c ∈ m.erase a, c.1 ≠ a := by simp [Memory.erase]
  have key : ∀ l : Memory, (∀ c ∈ l, c.1 ≠ a) → (l.insert a b).read k = if a = k then b else l.read k := by
    intro l hl
    induction l with
    | nil => simp [Memory.insert, Memory.read_cons]
    | cons c l ih =>
      have hc : c.1 ≠ a := hl c (by simp)
      have := ih fun d hd => hl d (by simp [hd])
      unfold Memory.insert
      split
      · rw [Memory.read_cons]
      · rw [Memory.read_cons, this, Memory.read_cons]
        split <;> split <;> first | rfl | omega
  rw [key _ hk, Memory.read_erase]
  split <;> simp

/-- Read after write. -/
theorem Memory.read_write (m : Memory) (a k : Nat) (b : Byte) :
    (m.write a b).read k = if a = k then b else m.read k := by
  unfold Memory.write
  split
  · next h => rw [Memory.read_erase, h]
  · exact Memory.read_insert m a k b

@[simp] theorem Memory.read_write_same (m : Memory) (a : Nat) (b : Byte) : (m.write a b).read a = b := by
  simp [Memory.read_write]

theorem Memory.read_write_other (m : Memory) {a k : Nat} (b : Byte) (h : a ≠ k) :
    (m.write a b).read k = m.read k := by
  simp [Memory.read_write, h]

@[simp] theorem Memory.writeAll_nil (m : Memory) : m.writeAll [] = m := rfl

@[simp] theorem Memory.writeAll_cons (m : Memory) (w : Nat × Byte) (ws : List (Nat × Byte)) :
    m.writeAll (w :: ws) = (m.write w.1 w.2).writeAll ws := rfl

theorem Memory.writeAll_append (m : Memory) (us ws : List (Nat × Byte)) :
    m.writeAll (us ++ ws) = (m.writeAll us).writeAll ws := by
  induction us generalizing m with
  | nil => rfl
  | cons u us ih => simp [ih]

/-- A byte no write hits keeps its value. -/
theorem Memory.read_writeAll_other {ws : List (Nat × Byte)} {k : Nat} (h : ∀ w ∈ ws, w.1 ≠ k) (m : Memory) :
    (m.writeAll ws).read k = m.read k := by
  induction ws generalizing m with
  | nil => rfl
  | cons w ws ih =>
    rw [Memory.writeAll_cons, ih fun v hv => h v (by simp [hv]),
      Memory.read_write_other _ _ (h w (by simp))]

/-- A byte that some write hits, every write to it storing the same value, holds that value. -/
theorem Memory.read_writeAll_same {ws : List (Nat × Byte)} {k : Nat} {b : Byte} (hmem : ∃ w ∈ ws, w.1 = k)
    (h : ∀ w ∈ ws, w.1 = k → w.2 = b) (m : Memory) : (m.writeAll ws).read k = b := by
  induction ws generalizing m with
  | nil => simp at hmem
  | cons w ws ih =>
    rw [Memory.writeAll_cons]
    by_cases hx : ∃ v ∈ ws, v.1 = k
    · exact ih hx (fun v hv => h v (by simp [hv])) _
    · have hno : ∀ v ∈ ws, v.1 ≠ k := fun v hv e => hx ⟨v, hv, e⟩
      have hw : w.1 = k := by
        obtain ⟨v, hv, e⟩ := hmem
        rcases List.mem_cons.mp hv with rfl | hv
        · exact e
        · exact absurd e (hno v hv)
      rw [Memory.read_writeAll_other hno, ← hw, Memory.read_write_same]
      exact h w (by simp) hw

/-- A byte's last write stands: when no write of `ws` after the prefix `us` hits `k`, only `us` counts. -/
theorem Memory.read_writeAll_append_other {ws : List (Nat × Byte)} {k : Nat} (h : ∀ w ∈ ws, w.1 ≠ k)
    (us : List (Nat × Byte)) (m : Memory) : (m.writeAll (us ++ ws)).read k = (m.writeAll us).read k := by
  rw [Memory.writeAll_append, Memory.read_writeAll_other h]

/-! ### The canonical form -/

theorem Memory.wfAbove_cons {lo : Option Nat} {c : Host.Cell} {m : Memory} :
    Memory.wfAbove lo (c :: m) = true ↔
      (∀ l, lo = some l → l < c.1) ∧ c.1 < 2 ^ 32 ∧ c.2 ≠ unlisted ∧ Memory.wfAbove (some c.1) m = true := by
  cases lo <;> simp [Memory.wfAbove, and_assoc]

theorem Memory.wfAbove_mono {lo lo' : Option Nat} {m : Memory} (h : ∀ l', lo' = some l' → ∃ l, lo = some l ∧ l' ≤ l)
    (hm : Memory.wfAbove lo m = true) : Memory.wfAbove lo' m = true := by
  cases m with
  | nil => rfl
  | cons c m =>
    rw [Memory.wfAbove_cons] at hm ⊢
    refine ⟨fun l' hl' => ?_, hm.2⟩
    obtain ⟨l, hl, hle⟩ := h l' hl'
    exact lt_of_le_of_lt hle (hm.1 l hl)

theorem Memory.wfAbove_erase {lo : Option Nat} {m : Memory} (a : Nat) (hm : Memory.wfAbove lo m = true) :
    Memory.wfAbove lo (m.erase a) = true := by
  induction m generalizing lo with
  | nil => rfl
  | cons c m ih =>
    rw [Memory.wfAbove_cons] at hm
    have ih' := ih hm.2.2.2
    by_cases h : c.1 = a
    · have : Memory.erase (c :: m) a = Memory.erase m a := by simp [Memory.erase, h]
      rw [this]
      exact Memory.wfAbove_mono (fun l hl => ⟨c.1, rfl, (hm.1 l hl).le⟩) ih'
    · have : Memory.erase (c :: m) a = c :: Memory.erase m a := by simp [Memory.erase, h]
      rw [this, Memory.wfAbove_cons]
      exact ⟨hm.1, hm.2.1, hm.2.2.1, ih'⟩

theorem Memory.wfAbove_insert {lo : Option Nat} {m : Memory} {a : Nat} {b : Byte}
    (hlo : ∀ l, lo = some l → l < a) (ha : a < 2 ^ 32) (hb : b ≠ unlisted) (hno : ∀ c ∈ m, c.1 ≠ a)
    (hm : Memory.wfAbove lo m = true) : Memory.wfAbove lo (m.insert a b) = true := by
  induction m generalizing lo with
  | nil => exact Memory.wfAbove_cons.mpr ⟨hlo, ha, hb, rfl⟩
  | cons c m ih =>
    rw [Memory.wfAbove_cons] at hm
    have hc : c.1 ≠ a := hno c (by simp)
    unfold Memory.insert
    split
    · next h =>
      rw [Memory.wfAbove_cons, Memory.wfAbove_cons]
      exact ⟨hlo, ha, hb, fun l hl => by cases hl; exact h, hm.2⟩
    · next h =>
      rw [Memory.wfAbove_cons]
      refine ⟨hm.1, hm.2.1, hm.2.2.1, ih (fun l hl => ?_) (fun d hd => hno d (by simp [hd])) hm.2.2.2⟩
      cases hl; omega

/-- A write to an address of the buffer memory keeps the canonical form. -/
theorem Memory.wf_write {m : Memory} {a : Nat} (b : Byte) (ha : a < 2 ^ 32) (hm : m.wf = true) :
    (m.write a b).wf = true := by
  unfold Memory.write
  split
  · exact Memory.wfAbove_erase a hm
  · next hb =>
    exact Memory.wfAbove_insert (fun l hl => by cases hl) ha hb (by simp [Memory.erase]) (Memory.wfAbove_erase a hm)

theorem Memory.wf_writeAll {ws : List (Nat × Byte)} (h : ∀ w ∈ ws, w.1 < 2 ^ 32) {m : Memory} (hm : m.wf = true) :
    (m.writeAll ws).wf = true := by
  induction ws generalizing m with
  | nil => exact hm
  | cons w ws ih => exact ih (fun v hv => h v (by simp [hv])) (Memory.wf_write _ (h w (by simp)) hm)

theorem Memory.wf_scramble {m : Memory} (a k n : Nat) (hm : m.wf = true) : (m.scramble a k n).wf = true := by
  induction n with
  | zero => exact hm
  | succ n ih =>
    unfold Memory.scramble
    dsimp only
    split
    · next h => exact Memory.wf_write _ h ih
    · exact ih

/-- What a byte reads as after a scramble: a fresh free value inside the range, its old value elsewhere. -/
theorem Memory.read_scramble (m : Memory) (a k n j : Nat) :
    (m.scramble a k n).read j =
      if a ≤ j ∧ j < a + n ∧ j < 2 ^ 32 then Config.freeByte (k + (j - a)) else m.read j := by
  induction n with
  | zero => simp [Memory.scramble]; intros; omega
  | succ n ih =>
    unfold Memory.scramble
    dsimp only
    split
    · next h =>
      rw [Memory.read_write, ih]
      by_cases hj : a + n = j
      · subst hj
        rw [if_pos rfl, if_pos ⟨by omega, by omega, h⟩, Nat.add_sub_cancel_left]
      · rw [if_neg hj]
        congr 1
        apply propext
        omega
    · next h =>
      rw [ih]
      congr 1
      apply propext
      omega

theorem Memory.read_scramble_other (m : Memory) {a k n j : Nat} (h : ¬(a ≤ j ∧ j < a + n)) :
    (m.scramble a k n).read j = m.read j := by
  rw [Memory.read_scramble, if_neg (by tauto)]

/-! ### Ranges of bytes -/

@[simp] theorem addrs_length (a n : Nat) : (addrs a n).length = n := by simp [addrs]

@[simp] theorem mem_addrs {a n k : Nat} : k ∈ addrs a n ↔ a ≤ k ∧ k < a + n := by
  simp only [addrs, List.mem_map, List.mem_range]
  constructor
  · rintro ⟨j, hj, rfl⟩; omega
  · intro h; exact ⟨k - a, by omega, by omega⟩

@[simp] theorem Memory.bytes_length (m : Memory) (a n : Nat) : (m.bytes a n).length = n := by simp [Memory.bytes]

theorem Memory.bytes_getD (m : Memory) (a : Nat) {n k : Nat} (h : k < n) : (m.bytes a n).getD k 0 = m.read (a + k) := by
  simp [Memory.bytes, List.getD, h]

/-- A write of `storeBytes` stores byte `k` of the list at address `a + k`. -/
theorem mem_storeBytes {a : Nat} {bs : List Byte} {w : Nat × Byte} :
    w ∈ storeBytes a bs ↔ ∃ k, k < bs.length ∧ w = (a + k, bs.getD k 0) := by
  unfold storeBytes addrs
  rw [List.mem_iff_getElem]
  constructor
  · rintro ⟨k, hk, rfl⟩
    simp only [List.length_zip, List.length_map, List.length_range, min_self] at hk
    exact ⟨k, hk, by simp [List.getD, hk]⟩
  · rintro ⟨k, hk, rfl⟩
    exact ⟨k, by simpa using hk, by simp [List.getD, hk]⟩

/-- `storeBytes` writes only inside its range. -/
theorem storeBytes_range {a : Nat} {bs : List Byte} {w : Nat × Byte} (h : w ∈ storeBytes a bs) :
    a ≤ w.1 ∧ w.1 < a + bs.length := by
  obtain ⟨k, hk, rfl⟩ := mem_storeBytes.mp h
  exact ⟨by simp, by simpa using hk⟩

/-- What memory holds after a list of bytes is stored. -/
theorem Memory.read_store (m : Memory) (a : Nat) (bs : List Byte) (k : Nat) :
    (m.writeAll (storeBytes a bs)).read k =
      if a ≤ k ∧ k < a + bs.length then bs.getD (k - a) 0 else m.read k := by
  split
  · next h =>
    refine Memory.read_writeAll_same ⟨(k, bs.getD (k - a) 0), mem_storeBytes.mpr ⟨k - a, by omega, ?_⟩, rfl⟩ ?_ m
    · rw [Nat.add_sub_cancel' h.1]
    · rintro w hw rfl
      obtain ⟨j, hj, rfl⟩ := mem_storeBytes.mp hw
      simp
  · next h =>
    refine Memory.read_writeAll_other (fun w hw e => h ?_) m
    subst e
    exact storeBytes_range hw

/-- The items of `gridList` are those made at the grid's points. -/
@[simp] theorem mem_gridList {α : Type} {w h : Nat} {f : Nat → Nat → List α} {v : α} :
    v ∈ gridList w h f ↔ ∃ x y, x < w ∧ y < h ∧ v ∈ f x y := by
  simp only [gridList, List.mem_flatMap, List.mem_range]
  constructor
  · rintro ⟨y, hy, x, hx, hv⟩; exact ⟨x, y, hx, hy, hv⟩
  · rintro ⟨x, y, hx, hy, hv⟩; exact ⟨y, hy, x, hx, hv⟩

end Sys2Proof.Machine
end

