-- ==== Sys2Proof/Laws/Ops.lean ====
section
/-! SUPPORT. What each shared operation can do, said once: the checks, the body of a command, the host's actions and
one step. -/

namespace Sys2Proof.Machine

open Sys2Proof

/-! ### Checks -/

theorem Spans.inSrc_iff (p : Spans) (a : Nat) : p.inSrc a = true ↔ p.src ≤ a ∧ a < p.src + p.slen := by
  simp [Spans.inSrc]

theorem Spans.inDst_iff (p : Spans) (a : Nat) : p.inDst a = true ↔ p.dst ≤ a ∧ a < p.dst + p.dlen := by
  simp [Spans.inDst]

theorem SpansClear_iff (p : Spans) : SpansClear p ↔ p.outOfRange = false ∧ p.overlap = false := by
  unfold SpansClear Spans.outOfRange Spans.overlap
  simp only [decide_eq_false_iff_not]
  omega

/-- A command's checks all pass exactly when neither the dimensions nor the format fail and its spans are clear. -/
theorem check_eq_none_iff (i : Instr) (sn : Snap) :
    check i sn = none ↔ dimsFail i sn = false ∧ formatFail i = false ∧ SpansClear (spansOf i sn) := by
  rw [SpansClear_iff]
  unfold check
  cases dimsFail i sn <;> cases formatFail i <;> cases (spansOf i sn).outOfRange <;> cases (spansOf i sn).overlap <;> simp

/-- The error a command's checks report. -/
theorem check_eq_some {i : Instr} {sn : Snap} {e : ErrCode} (h : check i sn = some e) :
    (e = .dims ∧ dimsFail i sn = true) ∨ (e = .unsupportedFormat ∧ formatFail i = true) ∨
      (e = .range ∧ (spansOf i sn).outOfRange = true) ∨ (e = .overlap ∧ (spansOf i sn).overlap = true) := by
  unfold check at h
  split at h
  · next hd => exact .inl ⟨by cases h; rfl, hd⟩
  split at h
  · next hf => exact .inr (.inl ⟨by cases h; rfl, hf⟩)
  split at h
  · next hr => exact .inr (.inr (.inl ⟨by cases h; rfl, hr⟩))
  split at h
  · next ho => exact .inr (.inr (.inr ⟨by cases h; rfl, ho⟩))
  · cases h

theorem check_ne_ok {i : Instr} {sn : Snap} {e : ErrCode} (h : check i sn = some e) : e ≠ .ok := by
  rcases check_eq_some h with ⟨rfl, -⟩ | ⟨rfl, -⟩ | ⟨rfl, -⟩ | ⟨rfl, -⟩ <;> decide

/-- No dimension check fails when both dimensions are positive. -/
theorem dimsFail_of_pos (i : Instr) {sn : Snap} (hw : sn.width.toNat ≠ 0) (hh : sn.height.toNat ≠ 0) :
    dimsFail i sn = false := by
  have h1 : (sn.width == 0) = false := by
    rw [beq_eq_false_iff_ne]; rintro e; simp [e] at hw
  have h2 : (sn.height == 0) = false := by
    rw [beq_eq_false_iff_ne]; rintro e; simp [e] at hh
  cases i <;> simp only [dimsFail, h1, h2, Bool.or_false]

/-- An image command or `MIP_DOWN` whose dimensions check passes has positive dimensions. -/
theorem pos_of_dimsFail {i : Instr} {sn : Snap} (hi : i = .mipDown ∨ ∃ f, i = .encImage f ∨ i = .decImage f)
    (h : dimsFail i sn = false) : sn.width.toNat ≠ 0 ∧ sn.height.toNat ≠ 0 := by
  have h2 : sn.width ≠ 0 ∧ sn.height ≠ 0 := by
    rcases hi with rfl | ⟨f, rfl | rfl⟩ <;> simpa [dimsFail] using h
  exact ⟨fun e => h2.1 (BitVec.eq_of_toNat_eq e), fun e => h2.2 (BitVec.eq_of_toNat_eq e)⟩

theorem ceilDiv_four (n : Nat) : ceilDiv n 4 = (n + 3) / 4 := by simp [ceilDiv]

theorem Format.bsize_of_bpp {f : Format} {n : Nat} (h : Format.bpp f = some n) : Format.bsize f = none := by
  cases f <;> simp_all [Format.bsize, Format.bpp]

/-- The size of a packed image of a pixel format with positive dimensions (R581). -/
theorem imageBytes_of_bpp {w h n : Nat} {f : Format} (hw : w ≠ 0) (hh : h ≠ 0) (hb : Format.bpp f = some n) :
    imageBytes w h f = n * (w * h) := by
  simp only [imageBytes, calculateImageSize, Format.bsize_of_bpp hb, hb, Option.getD_some, show max 1 w = w by omega,
    show max 1 h = h by omega]
  ring

/-- The size of a block image with positive dimensions (R581). -/
theorem imageBytes_of_bsize {w h n : Nat} {f : Format} (hw : w ≠ 0) (hh : h ≠ 0) (hb : Format.bsize f = some n) :
    imageBytes w h f = n * ((w + 3) / 4 * ((h + 3) / 4)) := by
  simp only [imageBytes, calculateImageSize, hb, Option.getD_some, show max 1 w = w by omega,
    show max 1 h = h by omega, ceilDiv_four]
  ring

theorem canRead_iff {p : Config.Params} {a n : Nat} : CanRead p a n ↔ ∀ b ∈ addrs a n, readOk p b = true := by
  refine ⟨fun h b hb => ?_, fun h k hk => h _ (mem_addrs.mpr (by omega))⟩
  obtain ⟨h1, h2⟩ := mem_addrs.mp hb
  have := h (b - a) (by omega)
  rwa [Nat.add_sub_cancel' h1] at this

theorem canWrite_iff {p : Config.Params} {a n : Nat} : CanWrite p a n ↔ ∀ b ∈ addrs a n, writeOk p b = true := by
  refine ⟨fun h b hb => ?_, fun h k hk => h _ (mem_addrs.mpr (by omega))⟩
  obtain ⟨h1, h2⟩ := mem_addrs.mp hb
  have := h (b - a) (by omega)
  rwa [Nat.add_sub_cancel' h1] at this

/-! ### The body of a command -/

/-- The state after a job whose accesses are all accepted. -/
def jobDone (j : Job) (s : State) : State :=
  complete .ok j.warn (BitVec.ofNat 64 j.result) { s with mem := s.mem.writeAll j.writes }

/-- The state after a command ended by `ERR_BUS`. -/
def busFailed (i : Instr) (s : State) : State := raiseError .bus (scrambleDst (spansOf i s.eng.snap) s)

theorem perform_of_check {i : Instr} {j : Job} {s : State} {e : ErrCode} (h : check i s.eng.snap = some e) :
    perform i j s = .next (raiseError e s) := by
  simp [perform, h]

theorem perform_of_ok {i : Instr} {j : Job} {s : State} (h : check i s.eng.snap = none)
    (ha : j.accessOk s.params = true) : perform i j s = .next (jobDone j s) := by
  simp [perform, h, ha, jobDone]

theorem perform_of_denied {i : Instr} {j : Job} {s : State} (h : check i s.eng.snap = none)
    (ha : j.accessOk s.params = false) : perform i j s = .next (busFailed i s) := by
  simp [perform, h, ha, busFailed]

/-- Everything the body of a command can do. -/
theorem perform_cases (i : Instr) (j : Job) (s : State) :
    (∃ e, check i s.eng.snap = some e ∧ perform i j s = .next (raiseError e s)) ∨
      (check i s.eng.snap = none ∧ j.accessOk s.params = true ∧ perform i j s = .next (jobDone j s)) ∨
      (check i s.eng.snap = none ∧ j.accessOk s.params = false ∧ perform i j s = .next (busFailed i s)) := by
  cases h : check i s.eng.snap with
  | some e => exact .inl ⟨e, rfl, perform_of_check h⟩
  | none =>
    cases ha : j.accessOk s.params with
    | true => exact .inr (.inl ⟨rfl, rfl, perform_of_ok h ha⟩)
    | false => exact .inr (.inr ⟨rfl, rfl, perform_of_denied h ha⟩)

theorem Job.accessOk_iff (p : Config.Params) (j : Job) :
    j.accessOk p = true ↔ (∀ a ∈ j.reads, readOk p a = true) ∧ ∀ w ∈ j.writes, writeOk p w.1 = true := by
  simp [Job.accessOk]

theorem writeOk_lt {p : Config.Params} {a : Nat} (h : writeOk p a = true) : a < 2 ^ 32 := by
  simp only [writeOk, Bool.and_eq_true, decide_eq_true_eq] at h
  exact h.1

/-- An accepted job's completion touches only RESULT, STATUS, the engine's state and the buffer memory. -/
theorem jobDone_completed (j : Job) (s : State) : Completed s (jobDone j s) .ok j.warn (BitVec.ofNat 64 j.result) :=
  ⟨rfl, rfl, rfl, rfl, rfl⟩

@[simp] theorem jobDone_mem (j : Job) (s : State) : (jobDone j s).mem = s.mem.writeAll j.writes := rfl
@[simp] theorem jobDone_draws (j : Job) (s : State) : (jobDone j s).draws = s.draws := rfl

theorem raiseError_completed (e : ErrCode) (s : State) : Completed s (raiseError e s) e false 0 :=
  ⟨rfl, rfl, rfl, rfl, rfl⟩

theorem busFailed_completed (i : Instr) (s : State) : Completed s (busFailed i s) .bus false 0 :=
  ⟨rfl, rfl, rfl, rfl, rfl⟩

@[simp] theorem busFailed_mem (i : Instr) (s : State) :
    (busFailed i s).mem = s.mem.scramble s.eng.snap.dst.toNat s.draws (spansOf i s.eng.snap).dlen := rfl

/-- The job each command hands to `perform`. -/
def jobOf (i : Instr) (s : State) : Job :=
  match i with
  | .encDxt1Tile => tileEncodeJob (compressDXT1 s.params.paletteSource) s
  | .encDxt5Tile => tileEncodeJob (compressDXT5 s.params.paletteSource) s
  | .decDxt1Tile a => tileDecodeJob 8 (fun b => decodeDXT1 b a) s
  | .decDxt3Tile => tileDecodeJob 16 decodeDXT3 s
  | .decDxt5Tile => tileDecodeJob 16 decodeDXT5 s
  | .encImage f => encodeImageJob f s
  | .decImage f => decodeImageJob f s
  | .mipDown => mipDownJob s
  | .size f => sizeJob f s

/-- Every command is the shared body over its own job. -/
theorem exec_eq_perform (i : Instr) (s : State) : exec i s = perform i (jobOf i s) s := by
  cases i <;> rfl

/-- A command whose checks pass and whose accesses are all accepted completes its job. -/
theorem exec_of_ok {i : Instr} {s : State} (hc : check i s.eng.snap = none)
    (hr : ∀ a ∈ (jobOf i s).reads, readOk s.params a = true)
    (hw : ∀ w ∈ (jobOf i s).writes, writeOk s.params w.1 = true) : exec i s = .next (jobDone (jobOf i s) s) := by
  rw [exec_eq_perform, perform_of_ok hc ((Job.accessOk_iff _ _).mpr ⟨hr, hw⟩)]

/-! ### Acceptance -/

theorem writeCmd_idle {w : Word} {s : State} (h : s.eng.state = .idle) :
    writeCmd w s = { accept w (Config.latency s.draws) s with draws := s.draws + 1 } := by
  simp [writeCmd, h]

theorem writeCmd_busy {w : Word} {s : State} (h : s.eng.state = .busy) :
    writeCmd w s = { s with status := s.status.dropped } := by
  simp [writeCmd, h]

theorem State.busy_iff (s : State) : s.busy = true ↔ s.eng.state = .busy := by
  simp [State.busy]

theorem State.not_busy_iff (s : State) : s.busy = false ↔ s.eng.state = .idle := by
  cases h : s.eng.state <;> simp [State.busy, h]

/-! ### The host -/

/-- Everything a host store can do: nothing, or one register write. -/
theorem busWrite_cases (addr : Nat) (data : List Byte) (s : State) :
    busWrite addr data s = s ∨ ∃ r w, busWrite addr data s = writeReg r w s := by
  unfold busWrite
  split
  · exact .inr ⟨_, _, rfl⟩
  · exact .inl rfl

/-- A host load changes the host's side only. -/
theorem busRead_eq (addr n : Nat) (s : State) :
    busRead addr n s = { s with host := (busRead addr n s).host } := by
  unfold busRead
  split
  · rfl
  · split <;> rfl

/-- A host load keeps the queue, and ends the hand-over only when the engine is idle. -/
theorem busRead_host (addr n : Nat) (s : State) :
    (busRead addr n s).host.queue = s.host.queue ∧
      (s.busy = true → (busRead addr n s).host.owed = s.host.owed) := by
  unfold busRead
  split
  · exact ⟨rfl, fun h => by simp [readEnds, h]⟩
  · split <;> exact ⟨rfl, fun _ => rfl⟩

/-- Everything a host access to the buffer memory can do. -/
theorem hostMemAccess_cases (a : Nat) (eff s : State) :
    (2 ^ 32 ≤ a ∧ hostMemAccess a eff s = .fault .noSuchAddress) ∨
      (a < 2 ^ 32 ∧ spanHazardAt s a = true ∧ hostMemAccess a eff s = .refused .spanHazard) ∨
      (a < 2 ^ 32 ∧ spanHazardAt s a = false ∧ hostMemAccess a eff s = .next eff) := by
  unfold hostMemAccess
  split
  · next h => exact .inl ⟨h, rfl⟩
  · next h =>
    split
    · next hh => exact .inr (.inl ⟨by omega, hh, rfl⟩)
    · next hh => exact .inr (.inr ⟨by omega, by simpa using hh, rfl⟩)

/-- Everything a host action can do, when it takes a next state. -/
theorem hostAct_next {act : HostAction} {s t : State} (h : hostAct act s = .next t) :
    t = s ∨ t = resetBlock s ∨ (∃ r w, t = writeReg r w s) ∨ (∃ addr n, t = busRead addr n s) ∨
      (∃ a b, a < 2 ^ 32 ∧ spanHazardAt s a = false ∧ t = { s with mem := s.mem.write a b }) ∨
      (∃ a, t = { s with host := { s.host with memData := s.mem.read a } }) := by
  cases act with
  | pause => cases h; exact .inl rfl
  | reset => cases h; exact .inr (.inl rfl)
  | busWrite addr data =>
    cases h
    rcases busWrite_cases addr data s with e | ⟨r, w, e⟩
    · exact .inl e
    · exact .inr (.inr (.inl ⟨r, w, e⟩))
  | busRead addr n => cases h; exact .inr (.inr (.inr (.inl ⟨addr, n, rfl⟩)))
  | memWrite a b =>
    rcases hostMemAccess_cases a { s with mem := s.mem.write a b } s with ⟨-, e⟩ | ⟨-, -, e⟩ | ⟨ha, hh, e⟩ <;>
      simp only [hostAct, e] at h <;> cases h
    exact .inr (.inr (.inr (.inr (.inl ⟨a, b, ha, hh, rfl⟩))))
  | memRead a =>
    rcases hostMemAccess_cases a { s with host := { s.host with memData := s.mem.read a } } s with
      ⟨-, e⟩ | ⟨-, -, e⟩ | ⟨-, -, e⟩ <;> simp only [hostAct, e] at h <;> cases h
    exact .inr (.inr (.inr (.inr (.inr ⟨a, rfl⟩))))

/-- The host's turn: nothing to do, or the first action of the queue. -/
theorem hostTurn_nil {s : State} (h : s.host.queue = []) : hostTurn s = .next s := by
  simp [hostTurn, h]

theorem hostTurn_cons {s : State} {act : HostAction} {rest : List HostAction} (h : s.host.queue = act :: rest) :
    hostTurn s = hostAct act { s with host := { s.host with queue := rest } } := by
  simp [hostTurn, h]

/-! ### One step -/

theorem step_idle {s : State} (h : s.eng.state = .idle) : step s = hostTurn s := by
  simp [step, h]

theorem step_busy_succ {s : State} {n : Nat} (h : s.eng.state = .busy) (hp : s.eng.progress = n + 1) :
    step s = hostTurn { s with eng := { s.eng with progress := n } } := by
  simp [step, h, hp]

theorem step_busy_zero {s : State} (h : s.eng.state = .busy) (hp : s.eng.progress = 0) : step s = engineTurn s := by
  simp [step, h, hp]

/-- Everything one step can be: the host's turn with the engine idle, the host's turn in one cycle of a command in
flight, or the engine's turn. -/
theorem step_cases (s : State) :
    (s.eng.state = .idle ∧ step s = hostTurn s) ∨
      (∃ n, s.eng.state = .busy ∧ s.eng.progress = n + 1 ∧
        step s = hostTurn { s with eng := { s.eng with progress := n } }) ∨
      (s.eng.state = .busy ∧ s.eng.progress = 0 ∧ step s = engineTurn s) := by
  cases h : s.eng.state with
  | idle => exact .inl ⟨rfl, step_idle h⟩
  | busy =>
    cases hp : s.eng.progress with
    | zero => exact .inr (.inr ⟨rfl, rfl, step_busy_zero h hp⟩)
    | succ n => exact .inr (.inl ⟨n, rfl, rfl, step_busy_succ h hp⟩)

/-- On the host's turn a step is the host's next action on the state one cycle on. -/
theorem step_hostsTurn {s : State} (h : HostsTurn s) : step s = hostTurn s.cycled := by
  cases hs : s.eng.state with
  | idle => simp [step, State.cycled, hs]
  | busy =>
    obtain ⟨n, hn⟩ : ∃ n, s.eng.progress = n + 1 := by simpa [HostsTurn, hs] using h
    rw [step_busy_succ hs hn, State.cycled, hs, hn]
    rfl

end Sys2Proof.Machine
end

