-- ==== Sys2Proof/Laws/Codec.lean ====
section
/-! SUPPORT. The numbers of the codec: bit fields, little-endian bytes, packed index fields, extremes, nearest entries
and the bounds that keep every computed channel in 8 bits. -/

namespace Sys2Proof.Machine

open Sys2Proof

/-! ### Fields and bytes -/

theorem field_eq (v hi lo : Nat) : field v hi lo = v / 2 ^ lo % 2 ^ (hi + 1 - lo) := by
  simp [field, Nat.shiftRight_eq_div_pow]

theorem field_lt (v hi lo : Nat) : field v hi lo < 2 ^ (hi + 1 - lo) := Nat.mod_lt _ (by positivity)

theorem leNat_lt (bs : List Byte) : leNat bs < 256 ^ bs.length := by
  induction bs with
  | nil => simp [leNat]
  | cons b bs ih =>
    have := b.isLt
    simp only [leNat, List.length_cons, pow_succ]
    omega

@[simp] theorem leBytes_length (v n : Nat) : (leBytes v n).length = n := by simp [leBytes]

theorem leBytes_getD (v : Nat) {n k : Nat} (h : k < n) : (leBytes v n).getD k 0 = BitVec.ofNat 8 (v >>> (8 * k)) := by
  simp [leBytes, List.getD, h]

theorem leBytes_succ (v n : Nat) : leBytes v (n + 1) = BitVec.ofNat 8 v :: leBytes (v / 256) n := by
  simp only [leBytes, List.range_succ_eq_map, List.map_cons, List.map_map]
  congr 1
  refine List.map_congr_left fun k _ => ?_
  simp only [Function.comp_apply, Nat.shiftRight_eq_div_pow, Nat.succ_eq_add_one, Nat.mul_add, mul_one, pow_add]
  rw [mul_comm, ← Nat.div_div_eq_div_mul]
  norm_num

/-- Reading back the little-endian bytes of a number. -/
theorem leNat_leBytes (v n : Nat) : leNat (leBytes v n) = v % 256 ^ n := by
  induction n generalizing v with
  | zero => simp [leBytes, leNat, Nat.mod_one]
  | succ n ih =>
    rw [leBytes_succ, leNat, ih, pow_succ, mul_comm (256 ^ n), Nat.mod_mul]
    simp

theorem leNat_append (bs cs : List Byte) : leNat (bs ++ cs) = leNat bs + 256 ^ bs.length * leNat cs := by
  induction bs with
  | nil => simp [leNat]
  | cons b bs ih => simp only [List.cons_append, leNat, ih, List.length_cons, pow_succ]; ring

/-- The field of a byte list that starts after a prefix. -/
theorem leField_append_right (as bs : List Byte) (o n : Nat) : leField (as ++ bs) (as.length + o) n = leField bs o n := by
  have : as.drop (as.length + o) = [] := List.drop_eq_nil_of_le (by omega)
  simp [leField, List.drop_append, this]

/-- The field of a byte list that is exactly one part of it. -/
theorem leField_part (as bs cs : List Byte) {o n : Nat} (ho : o = as.length) (hn : n = bs.length) :
    leField (as ++ bs ++ cs) o n = leNat bs := by
  subst ho hn
  simp [leField, List.append_assoc]

/-! ### Packed index fields -/

theorem packFields_lt {bits : Nat} {f : Nat → Nat} (hf : ∀ i, f i < 2 ^ bits) (n : Nat) :
    packFields bits f n < 2 ^ (bits * n) := by
  induction n with
  | zero => simp [packFields]
  | succ n ih =>
    rw [packFields, Nat.or_comm, ← Nat.shiftLeft_add_eq_or_of_lt ih, Nat.shiftLeft_eq, Nat.mul_succ, pow_add]
    have h1 := hf n
    have h2 : f n + 1 ≤ 2 ^ bits := h1
    calc f n * 2 ^ (bits * n) + packFields bits f n < f n * 2 ^ (bits * n) + 2 ^ (bits * n) := by omega
      _ = (f n + 1) * 2 ^ (bits * n) := by ring
      _ ≤ 2 ^ bits * 2 ^ (bits * n) := Nat.mul_le_mul_right _ h2
      _ = 2 ^ (bits * n) * 2 ^ bits := by ring

theorem packFields_succ {bits : Nat} {f : Nat → Nat} (hf : ∀ i, f i < 2 ^ bits) (n : Nat) :
    packFields bits f (n + 1) = packFields bits f n + 2 ^ (bits * n) * f n := by
  rw [packFields, Nat.or_comm, ← Nat.shiftLeft_add_eq_or_of_lt (packFields_lt hf n), Nat.shiftLeft_eq]
  ring

/-- Field `i` of a packed word is what was packed there (R455, R457 against R323, R325). -/
theorem packFields_div_mod {bits : Nat} {f : Nat → Nat} (hf : ∀ i, f i < 2 ^ bits) {i n : Nat} (hi : i < n) :
    packFields bits f n / 2 ^ (bits * i) % 2 ^ bits = f i := by
  induction n with
  | zero => omega
  | succ n ih =>
    rw [packFields_succ hf]
    rcases Nat.lt_succ_iff_lt_or_eq.mp hi with h | rfl
    · obtain ⟨d, rfl⟩ : ∃ d, n = i + 1 + d := ⟨n - (i + 1), by omega⟩
      have : 2 ^ (bits * (i + 1 + d)) = 2 ^ (bits * i) * (2 ^ bits * 2 ^ (bits * d)) := by
        rw [← pow_add, ← pow_add]; congr 1; ring
      rw [this, mul_assoc, mul_assoc, Nat.add_mul_div_left _ _ (by positivity), Nat.add_mul_mod_self_left]
      exact ih h
    · rw [Nat.add_mul_div_left _ _ (by positivity), Nat.div_eq_of_lt (packFields_lt hf i), zero_add,
        Nat.mod_eq_of_lt (hf i)]

/-! ### Nearest entry -/

theorem nearestLoop_snd (d : Nat → Nat) (n : Nat) : (nearestLoop d n).2 = d (nearestLoop d n).1 := by
  induction n with
  | zero => rfl
  | succ n ih => simp only [nearestLoop]; split <;> simp [ih]

theorem nearest_succ (d : Nat → Nat) (n : Nat) :
    nearest d (n + 1) = if d (n + 1) < d (nearest d n) then n + 1 else nearest d n := by
  simp only [nearest, nearestLoop, nearestLoop_snd]
  exact apply_ite Prod.fst _ _ _

theorem nearest_le (d : Nat → Nat) (n : Nat) : nearest d n ≤ n := by
  induction n with
  | zero => exact le_refl 0
  | succ n ih => rw [nearest_succ]; split <;> omega

/-- No entry is nearer than the chosen one. -/
theorem nearest_min (d : Nat → Nat) {n k : Nat} (h : k ≤ n) : d (nearest d n) ≤ d k := by
  induction n with
  | zero => simp [show k = 0 by omega, nearest, nearestLoop]
  | succ n ih =>
    rw [nearest_succ]
    rcases Nat.le_succ_iff.mp h with hk | hk
    · have := ih hk
      split <;> omega
    · subst hk
      simp only [Nat.succ_eq_add_one]
      split <;> omega

/-- Every lower index is strictly farther. -/
theorem nearest_first (d : Nat → Nat) {n k : Nat} (h : k < nearest d n) : d (nearest d n) < d k := by
  induction n with
  | zero => simp [nearest, nearestLoop] at h
  | succ n ih =>
    rw [nearest_succ] at h ⊢
    split at h
    · next hlt =>
      rw [if_pos hlt]
      exact lt_of_lt_of_le hlt (nearest_min d (by omega))
    · next hlt =>
      rw [if_neg hlt]
      exact ih h

/-! ### Extremes -/

theorem maxOver_lt (f : Nat → Byte) (n : Nat) : maxOver f n < 256 := by
  induction n with
  | zero => simp [maxOver]
  | succ n ih => have := (f n).isLt; simp only [maxOver]; omega

theorem le_maxOver (f : Nat → Byte) {i n : Nat} (h : i < n) : (f i).toNat ≤ maxOver f n := by
  induction n with
  | zero => omega
  | succ n ih =>
    simp only [maxOver]
    rcases Nat.lt_succ_iff_lt_or_eq.mp h with h | rfl
    · have := ih h; omega
    · omega

theorem maxOver_attained (f : Nat → Byte) (n : Nat) : ∃ i, i < n + 1 ∧ (f i).toNat = maxOver f (n + 1) := by
  induction n with
  | zero => exact ⟨0, by omega, by simp [maxOver]⟩
  | succ n ih =>
    obtain ⟨i, hi, e⟩ := ih
    simp only [maxOver] at e ⊢
    rcases le_total (f (n + 1)).toNat (f i).toNat with h | h
    · exact ⟨i, by omega, by omega⟩
    · exact ⟨n + 1, by omega, by omega⟩

theorem minOver_lt (f : Nat → Byte) (n : Nat) : minOver f n < 256 := by
  induction n with
  | zero => simp [minOver]
  | succ n ih => simp only [minOver]; omega

theorem minOver_le (f : Nat → Byte) {i n : Nat} (h : i < n) : minOver f n ≤ (f i).toNat := by
  induction n with
  | zero => omega
  | succ n ih =>
    simp only [minOver]
    rcases Nat.lt_succ_iff_lt_or_eq.mp h with h | rfl
    · have := ih h; omega
    · omega

theorem minOver_attained (f : Nat → Byte) (n : Nat) : ∃ i, i < n + 1 ∧ (f i).toNat = minOver f (n + 1) := by
  induction n with
  | zero => exact ⟨0, by omega, by have := (f 0).isLt; simp only [minOver]; omega⟩
  | succ n ih =>
    obtain ⟨i, hi, e⟩ := ih
    simp only [minOver] at e ⊢
    rcases le_total (f (n + 1)).toNat (f i).toNat with h | h
    · exact ⟨n + 1, by omega, by omega⟩
    · exact ⟨i, by omega, by omega⟩

/-! ### Every computed channel fits in 8 bits -/

theorem twoToOne_lt {p q : Nat} (hp : p < 256) (hq : q < 256) : twoToOne p q < 256 := by unfold twoToOne; omega

theorem oneToTwo_lt {p q : Nat} (hp : p < 256) (hq : q < 256) : oneToTwo p q < 256 := by unfold oneToTwo; omega

theorem midpoint_lt {p q : Nat} (hp : p < 256) (hq : q < 256) : midpoint p q < 256 := by unfold midpoint; omega

theorem Rgb.map2_toNat {f : Nat → Nat → Nat} (hf : ∀ p q, p < 256 → q < 256 → f p q < 256) (p q : Rgb) :
    (Rgb.map2 f p q).r.toNat = f p.r.toNat q.r.toNat ∧ (Rgb.map2 f p q).g.toNat = f p.g.toNat q.g.toNat ∧
      (Rgb.map2 f p q).b.toNat = f p.b.toNat q.b.toNat := by
  simp only [Rgb.map2, BitVec.toNat_ofNat]
  exact ⟨Nat.mod_eq_of_lt (hf _ _ p.r.isLt q.r.isLt), Nat.mod_eq_of_lt (hf _ _ p.g.isLt q.g.isLt),
    Nat.mod_eq_of_lt (hf _ _ p.b.isLt q.b.isLt)⟩

theorem eightStep_le {a0 a1 i m : Nat} (h0 : a0 ≤ m) (h1 : a1 ≤ m) (hi : i ≤ 5) : eightStep a0 a1 i ≤ m := by
  unfold eightStep
  interval_cases i <;> omega

theorem sixStep_le {a0 a1 i m : Nat} (h0 : a0 ≤ m) (h1 : a1 ≤ m) (hi : i ≤ 3) : sixStep a0 a1 i ≤ m := by
  unfold sixStep
  interval_cases i <;> omega

/-- The average of numbers below 256 is below 256. -/
theorem average_lt {vs : List Nat} (h : ∀ v ∈ vs, v < 256) : average vs < 256 := by
  unfold average
  rcases vs with _ | ⟨v, vs⟩
  · simp
  · have hs : ∀ l : List Nat, (∀ v ∈ l, v < 256) → l.sum ≤ 255 * l.length := by
      intro l hl
      induction l with
      | nil => simp
      | cons u l ih =>
        have h1 := hl u (by simp)
        have h2 := ih fun w hw => hl w (by simp [hw])
        simp only [List.sum_cons, List.length_cons]
        omega
    have := hs _ h
    rw [Nat.div_lt_iff_lt_mul (by simp)]
    simp only [List.length_cons] at this ⊢
    omega

end Sys2Proof.Machine
end

