-- ==== Sys2Proof/Laws/Encoding.lean ====
section
/-! SUPPORT. The fields of a command word: what the encoder puts in them and that they make up the word again. -/

namespace Sys2Proof

theorem Format.ofCode_code (f : Format) (h : f.wf = true) : Format.ofCode f.code = f := by
  cases f with
  | unknown c =>
    simp only [Format.wf, decide_eq_true_eq] at h
    simp only [Format.code, Format.ofCode]
    split <;> first | rfl | omega
  | _ => rfl

theorem Format.code_ofCode (c : Byte) : (Format.ofCode c).code = c ∧ (Format.ofCode c).wf = true := by
  revert c; decide

@[simp] theorem opField_commandWord (op fmt : Byte) (a : Bool) : opField (commandWord op fmt a) = op := by
  unfold opField commandWord
  ext i hi
  simp [hi, show i < 32 by omega, show i < 16 by omega]

@[simp] theorem fmtField_commandWord (op fmt : Byte) (a : Bool) : fmtField (commandWord op fmt a) = fmt := by
  unfold fmtField commandWord
  ext i hi
  simp [hi, show 8 + i < 32 by omega, show 8 + i < 16 by omega]

@[simp] theorem aField_commandWord (op fmt : Byte) (a : Bool) : aField (commandWord op fmt a) = a := by
  simp [aField, commandWord]

@[simp] theorem reservedField_commandWord (op fmt : Byte) (a : Bool) : reservedField (commandWord op fmt a) = 0 := by
  unfold reservedField commandWord
  ext i hi
  have h1 : BitVec.getLsbD op (17 + i) = false := BitVec.getLsbD_of_ge _ _ (by omega)
  have h2 : BitVec.getLsbD fmt (17 + i - 8) = false := BitVec.getLsbD_of_ge _ _ (by omega)
  simp [show 17 + i < 32 by omega, show ¬(17 + i < 16) by omega, show 17 + i - 16 = i + 1 by omega, h1, h2]

/-- A word without reserved bits is made of its OP, FMT and A fields (R300). -/
theorem commandWord_of_fields (w : Word) (h : reservedField w = 0) :
    commandWord (opField w) (fmtField w) (aField w) = w := by
  unfold commandWord opField fmtField aField reservedField at *
  have hb : ∀ j, j < 15 → w.getLsbD (17 + j) = false := fun j hj => by
    have := congrArg (fun v => v.getLsbD j) h
    simpa [hj] using this
  ext i hi
  rw [← BitVec.getLsbD_eq_getElem]
  by_cases h1 : i < 8
  · simp [h1, hi, show i < 16 by omega]
  by_cases h2 : i < 16
  · simp [h1, h2, hi, show i - 8 < 8 by omega, show 8 + (i - 8) = i by omega]
  by_cases h3 : i = 16
  · subst h3; simp
  · have := hb (i - 17) (by omega)
    rw [show 17 + (i - 17) = i by omega, BitVec.getLsbD_eq_getElem hi] at this
    simp [h1, h2, hi, this, show ¬(i - 8 < 8) by omega, show i - 16 ≠ 0 by omega]

end Sys2Proof
end

