-- ==== Sys2Proof/Laws/Images.lean ====
section
/-! SUPPORT. Packed images and tiles in the buffer memory: the addresses of their items are distinct and stay inside
the image, and what the byte writes of an image or a tile leave in memory. -/

namespace Sys2Proof.Machine

open Sys2Proof

/-! ### Grid arithmetic -/

/-- Item `(x, y)` of a grid comes before its end. -/
theorem grid_lt {w h x y : Nat} (hx : x < w) (hy : y < h) : y * w + x < w * h := by
  calc y * w + x < y * w + w := by omega
    _ = w * (y + 1) := by ring
    _ ≤ w * h := Nat.mul_le_mul_left w hy

/-- Two items of a grid at one place are the same item. -/
theorem grid_inj {w x y x' y' : Nat} (hx : x < w) (hx' : x' < w) (h : y * w + x = y' * w + x') : x = x' ∧ y = y' := by
  have hw : 0 < w := by omega
  have h1 : (y * w + x) / w = y := by rw [mul_comm, Nat.mul_add_div hw, Nat.div_eq_of_lt hx, add_zero]
  have h2 : (y' * w + x') / w = y' := by rw [mul_comm, Nat.mul_add_div hw, Nat.div_eq_of_lt hx', add_zero]
  have hy : y = y' := by rw [← h1, ← h2, h]
  subst hy
  exact ⟨by omega, rfl⟩

/-- Byte `k` of item `c` comes before the end of `m` items of `n` bytes. -/
theorem cell_lt {n c k m : Nat} (hc : c < m) (hk : k < n) : n * c + k < n * m := by
  calc n * c + k < n * c + n := by omega
    _ = n * (c + 1) := by ring
    _ ≤ n * m := Nat.mul_le_mul_left n hc

/-- Two bytes of items of `n` bytes at one place are the same byte of the same item. -/
theorem cell_inj {n c c' k k' : Nat} (hk : k < n) (hk' : k' < n) (h : n * c + k = n * c' + k') : c = c' ∧ k = k' := by
  have := grid_inj hk hk' (y := c) (y' := c') (by rw [mul_comm c, mul_comm c']; exact h)
  exact ⟨this.2, this.1⟩

theorem gridList_congr {α : Type} {w h : Nat} {f g : Nat → Nat → List α}
    (hfg : ∀ x y, x < w → y < h → f x y = g x y) : gridList w h f = gridList w h g := by
  simp only [gridList, List.flatMap]
  congr 1
  refine List.map_congr_left fun y hy => ?_
  congr 1
  exact List.map_congr_left fun x hx => hfg x y (List.mem_range.mp hx) (List.mem_range.mp hy)

/-! ### Images -/

/-- Byte writes that are exactly the bytes of a packed image, in any order, write that image. -/
theorem imageWritten_of_writes {m : Memory} {ws : List (Nat × Byte)} {dst n w h : Nat} {item : Nat → Nat → List Byte}
    (hin : ∀ v ∈ ws, ∃ x y k, x < w ∧ y < h ∧ k < n ∧ v = (dst + n * (y * w + x) + k, (item x y).getD k 0))
    (hall : ∀ x y k, x < w → y < h → k < n → (dst + n * (y * w + x) + k, (item x y).getD k 0) ∈ ws) :
    ImageWritten m (m.writeAll ws) dst n w h item := by
  constructor
  · intro x y k hx hy hk
    refine Memory.read_writeAll_same ⟨_, hall x y k hx hy hk, rfl⟩ ?_ m
    intro v hv e
    obtain ⟨x', y', k', hx', hy', hk', rfl⟩ := hin v hv
    obtain ⟨hc, rfl⟩ := cell_inj (c := y' * w + x') (c' := y * w + x) hk' hk (by simp only at e; omega)
    obtain ⟨rfl, rfl⟩ := grid_inj hx' hx hc
    rfl
  · intro a ha
    refine Memory.read_writeAll_other (fun v hv e => ?_) m
    obtain ⟨x, y, k, hx, hy, hk, rfl⟩ := hin v hv
    have := cell_lt (grid_lt hx hy) hk
    simp only at e
    omega

/-- The writes of an image stored item by item (R327). -/
theorem imageWritten_gridList (m : Memory) (dst n w h : Nat) (item : Nat → Nat → List Byte)
    (hlen : ∀ x y, x < w → y < h → (item x y).length = n) :
    ImageWritten m (m.writeAll (gridList w h fun x y => storeBytes (imageAddr dst n w x y) (item x y))) dst n w h item := by
  refine imageWritten_of_writes (fun v hv => ?_) fun x y k hx hy hk => ?_
  · obtain ⟨x, y, hx, hy, hv⟩ := mem_gridList.mp hv
    obtain ⟨k, hk, rfl⟩ := mem_storeBytes.mp hv
    exact ⟨x, y, k, hx, hy, by rwa [hlen x y hx hy] at hk, rfl⟩
  · exact mem_gridList.mpr ⟨x, y, hx, hy, mem_storeBytes.mpr ⟨k, by rwa [hlen x y hx hy], rfl⟩⟩

/-! ### Tiles -/

@[simp] theorem Pixel.bytes_length (p : Pixel) : p.bytes.length = 4 := rfl

/-- The writes of tile row `y`. -/
def tileRowWrites (dst pitch : Nat) (t : Tile) (y : Nat) : List (Nat × Byte) :=
  (List.range 4).flatMap fun x => storeBytes (tileAddr dst pitch x y) (t (4 * y + x)).bytes

theorem mem_tileRowWrites {dst pitch y : Nat} {t : Tile} {v : Nat × Byte} :
    v ∈ tileRowWrites dst pitch t y ↔
      ∃ x k, x < 4 ∧ k < 4 ∧ v = (dst + y * pitch + 4 * x + k, (t (4 * y + x)).bytes.getD k 0) := by
  simp only [tileRowWrites, List.mem_flatMap, List.mem_range, mem_storeBytes, Pixel.bytes_length, tileAddr]
  constructor
  · rintro ⟨x, hx, k, hk, rfl⟩; exact ⟨x, k, hx, hk, rfl⟩
  · rintro ⟨x, k, hx, hk, rfl⟩; exact ⟨x, hx, k, hk, rfl⟩

/-- A write of tile row `y` falls in the row. -/
theorem tileRowWrites_inRow {dst pitch y : Nat} {t : Tile} {v : Nat × Byte} (h : v ∈ tileRowWrites dst pitch t y) :
    inTileRow dst pitch y v.1 := by
  obtain ⟨x, k, hx, hk, rfl⟩ := mem_tileRowWrites.mp h
  unfold inTileRow
  simp only
  omega

/-- Every write of a tile is a write of one of its four rows. -/
theorem mem_tileWrites {dst pitch : Nat} {t : Tile} {v : Nat × Byte} :
    v ∈ tileWrites dst pitch t ↔ ∃ y, y < 4 ∧ v ∈ tileRowWrites dst pitch t y := by
  simp only [tileWrites, gridList, tileRowWrites, List.mem_flatMap, List.mem_range]

/-- What the writes of a tile leave in memory (R408, R217). -/
theorem tileWritten_tileWrites (m : Memory) (dst pitch : Nat) (t : Tile) :
    TileWritten m (m.writeAll (tileWrites dst pitch t)) dst pitch t := by
  constructor
  · intro x y k hx hy hk hlast
    have hsplit : ∀ n, y < n → n ≤ 4 →
        (m.writeAll ((List.range n).flatMap (tileRowWrites dst pitch t))).read (dst + y * pitch + 4 * x + k) =
          (t (4 * y + x)).bytes.getD k 0 := by
      intro n hn hn4
      induction n with
      | zero => omega
      | succ n ih =>
        rw [List.range_succ, List.flatMap_append, List.flatMap_singleton]
        rcases Nat.lt_succ_iff_lt_or_eq.mp hn with h | rfl
        · rw [Memory.read_writeAll_append_other (fun v hv e => ?_), ih h (by omega)]
          exact hlast n h (by omega) (e ▸ tileRowWrites_inRow hv)
        · rw [Memory.writeAll_append]
          refine Memory.read_writeAll_same ⟨_, mem_tileRowWrites.mpr ⟨x, k, hx, hk, rfl⟩, rfl⟩ ?_ _
          intro v hv e
          obtain ⟨x', k', hx', hk', rfl⟩ := mem_tileRowWrites.mp hv
          obtain ⟨rfl, rfl⟩ : x' = x ∧ k' = k := by simp only at e; omega
          rfl
    exact hsplit 4 hy (le_refl 4)
  · intro a ha
    refine Memory.read_writeAll_other (fun v hv e => ?_) m
    obtain ⟨y, hy, hv⟩ := mem_tileWrites.mp hv
    exact ha y hy (e ▸ tileRowWrites_inRow hv)

theorem mem_tileReads {src pitch a : Nat} : a ∈ tileReads src pitch ↔ ∃ y j, y < 4 ∧ j < 16 ∧ a = src + y * pitch + j := by
  simp only [tileReads, mem_gridList, mem_addrs, tileAddr]
  constructor
  · rintro ⟨x, y, hx, hy, h⟩
    exact ⟨y, a - (src + y * pitch), hy, by omega, by omega⟩
  · rintro ⟨y, j, hy, hj, rfl⟩
    exact ⟨j / 4, y, by omega, hy, by omega⟩

/-! ### What the codec reads -/

theorem readPixel_congr {m m' : Memory} {a : Nat} (h : ∀ b ∈ addrs a 4, m'.read b = m.read b) :
    readPixel m' a = readPixel m a := by
  simp only [mem_addrs] at h
  simp [readPixel, h a (by omega), h (a + 1) (by omega), h (a + 2) (by omega), h (a + 3) (by omega)]

theorem Memory.bytes_congr {m m' : Memory} {a n : Nat} (h : ∀ b ∈ addrs a n, m'.read b = m.read b) :
    m'.bytes a n = m.bytes a n :=
  List.map_congr_left fun k hk => h _ (mem_addrs.mpr (by have := List.mem_range.mp hk; omega))

theorem maxOver_congr {f g : Nat → Byte} {n : Nat} (h : ∀ i, i < n → f i = g i) : maxOver f n = maxOver g n := by
  induction n with
  | zero => rfl
  | succ n ih => simp only [maxOver, ih fun i hi => h i (by omega), h n (by omega)]

theorem minOver_congr {f g : Nat → Byte} {n : Nat} (h : ∀ i, i < n → f i = g i) : minOver f n = minOver g n := by
  induction n with
  | zero => rfl
  | succ n ih => simp only [minOver, ih fun i hi => h i (by omega), h n (by omega)]

theorem packFields_congr {bits : Nat} {f g : Nat → Nat} {n : Nat} (h : ∀ i, i < n → f i = g i) :
    packFields bits f n = packFields bits g n := by
  induction n with
  | zero => rfl
  | succ n ih => simp only [packFields, ih fun i hi => h i (by omega), h n (by omega)]

theorem dxt1Endpoints_congr {t u : Tile} (h : ∀ i, i < 16 → t i = u i) : dxt1Endpoints t = dxt1Endpoints u := by
  have emax : ∀ c : Pixel → Byte, maxOver (fun i => c (t i)) 16 = maxOver (fun i => c (u i)) 16 := fun c =>
    maxOver_congr fun i hi => by rw [h i hi]
  have emin : ∀ c : Pixel → Byte, minOver (fun i => c (t i)) 16 = minOver (fun i => c (u i)) 16 := fun c =>
    minOver_congr fun i hi => by rw [h i hi]
  have hmax : tileMax t = tileMax u := by simp only [tileMax, emax Pixel.r, emax Pixel.g, emax Pixel.b]
  have hmin : tileMin t = tileMin u := by simp only [tileMin, emin Pixel.r, emin Pixel.g, emin Pixel.b]
  unfold dxt1Endpoints
  rw [hmax, hmin]

/-- The compressed block depends on the 16 pixels only. -/
theorem compressDXT1_congr {src : Config.PaletteSource} {t u : Tile} (h : ∀ i, i < 16 → t i = u i) :
    compressDXT1 src t = compressDXT1 src u := by
  have hi : dxt1IndexField src t = dxt1IndexField src u := by
    unfold dxt1IndexField
    rw [dxt1Endpoints_congr h]
    exact packFields_congr fun i hi => by rw [h i hi]
  unfold compressDXT1
  rw [dxt1Endpoints_congr h, hi]

theorem compressDXT5_congr {src : Config.PaletteSource} {t u : Tile} (h : ∀ i, i < 16 → t i = u i) :
    compressDXT5 src t = compressDXT5 src u := by
  have hmax : alphaMax t = alphaMax u := maxOver_congr fun i hi => by rw [h i hi]
  have hmin : alphaMin t = alphaMin u := minOver_congr fun i hi => by rw [h i hi]
  have hx : dxt5IndexField t = dxt5IndexField u := by
    unfold dxt5IndexField
    rw [hmax, hmin]
    exact packFields_congr fun i hi => by rw [h i hi]
  unfold compressDXT5 dxt5AlphaHalf
  rw [hmax, hmin, hx, compressDXT1_congr h]

/-! ### Block sizes -/

@[simp] theorem compressDXT1_length (src : Config.PaletteSource) (t : Tile) : (compressDXT1 src t).length = 8 := by
  simp [compressDXT1]

@[simp] theorem dxt5AlphaHalf_length (t : Tile) : (dxt5AlphaHalf t).length = 8 := by
  simp [dxt5AlphaHalf]

@[simp] theorem compressDXT5_length (src : Config.PaletteSource) (t : Tile) : (compressDXT5 src t).length = 16 := by
  simp [compressDXT5]

/-- An encoded pixel of a format of `ENC_SET` has the format's byte count. -/
theorem encodePixel_length {f : Format} {q : Pixel} {bs : List Byte} (h : encodePixel f q = some bs) :
    Format.bpp f = some bs.length := by
  cases f <;> simp only [encodePixel] at h <;> cases h <;> rfl

end Sys2Proof.Machine
end

