-- ==== Sys2Proof/Laws/PerInstr.lean ====
section
/-! SUPPORT. The statements made once per command: how a command uses the fields of its word (R301, R303). -/

namespace Sys2Proof.Laws

open Sys2Proof

/-- The word of a command has an OP that R301 names, no reserved bit, FMT only where the command takes a format and A
only in `DEC_DXT1_TILE` (R303). -/
def FieldUse.Statement (i : Instr) : Prop :=
  reservedField (encode i) = 0 ∧
  (1 ≤ (opField (encode i)).toNat ∧ (opField (encode i)).toNat ≤ 9) ∧
  (fmtField (encode i) ≠ 0 → opField (encode i) ∈ [0x06#8, 0x07#8, 0x09#8]) ∧
  (aField (encode i) = true → opField (encode i) = 0x03#8)

theorem FieldUse.encDxt1Tile : FieldUse.Statement .encDxt1Tile := by
  simp [FieldUse.Statement, encode]

theorem FieldUse.encDxt5Tile : FieldUse.Statement .encDxt5Tile := by
  simp [FieldUse.Statement, encode]

theorem FieldUse.decDxt1Tile (hasAlpha : Bool) : FieldUse.Statement (.decDxt1Tile hasAlpha) := by
  simp [FieldUse.Statement, encode]

theorem FieldUse.decDxt3Tile : FieldUse.Statement .decDxt3Tile := by
  simp [FieldUse.Statement, encode]

theorem FieldUse.decDxt5Tile : FieldUse.Statement .decDxt5Tile := by
  simp [FieldUse.Statement, encode]

theorem FieldUse.encImage (f : Format) : FieldUse.Statement (.encImage f) := by
  simp [FieldUse.Statement, encode]

theorem FieldUse.decImage (f : Format) : FieldUse.Statement (.decImage f) := by
  simp [FieldUse.Statement, encode]

theorem FieldUse.mipDown : FieldUse.Statement .mipDown := by
  simp [FieldUse.Statement, encode]

theorem FieldUse.size (f : Format) : FieldUse.Statement (.size f) := by
  simp [FieldUse.Statement, encode]

end Sys2Proof.Laws
end

