-- ==== Sys2Proof/Tests/Slice0.lean ====
section
/-! SUPPORT. Tests: the checks of WellFormed, decoding of words written out from R300 and R301, one step of each
command on vectors of spec/95_test_vectors.md, and a witness for the hypotheses of every statement. -/

namespace Sys2Proof.Tests

open Sys2Proof Sys2Proof.Machine

-- One theorem after another: kernel evaluations that run side by side hold a thread (and its stack) each.
set_option Elab.async false

/-! ### Helpers -/

/-- Source bytes at 0x100, destination 0x200, both pitches 16, DIMS `w × h` (the conventions of
spec/95_test_vectors.md). -/
def setup (bs : List Byte) (w h : Nat) : State :=
  { State.reset with
    regs :=
      { Regs.reset with
        srcAddr := 0x100, dstAddr := 0x200, srcPitch := 16, dstPitch := 16, dims := BitVec.ofNat 32 (h * 65536 + w) }
    mem := Memory.writeAll [] (storeBytes 0x100 bs) }

/-- One step on the command word `w`. -/
def run (w : Nat) (s : State) : Host.Outcome State Fault Refusal := step (s.withFetchWord 32 w)

/-- `n` bytes at 0x200 after a next state. -/
def stored (n : Nat) : Host.Outcome State Fault Refusal → Option (List Byte)
  | .next t => some (t.mem.bytes 0x200 n)
  | _ => none

/-- STATUS and RESULT after a next state. -/
def ended : Host.Outcome State Fault Refusal → Option (Word × Word × Word)
  | .next t => some (t.statusWord, t.regs.resultLo, t.regs.resultHi)
  | _ => none

/-- The tile of grey pixels `(17i, 17i, 17i, 255)` of V-ENC1-1. -/
def greyTile : List Byte :=
  (List.range 16).flatMap fun i => [BitVec.ofNat 8 (17 * i), BitVec.ofNat 8 (17 * i), BitVec.ofNat 8 (17 * i), 255]

/-- The tile of V-ENC1-5. -/
def twoGreysTile : List Byte :=
  (List.range 16).flatMap fun i => if i < 8 then [100, 100, 100, 255] else [103, 101, 99, 255]

/-- The tile of V-ENC1-6. -/
def nearTile : List Byte :=
  [103, 101, 100, 255, 100, 100, 99, 255] ++ (List.range 14).flatMap fun _ => [101, 100, 99, 255]

/-- The tile with the pixels of a byte list. -/
def tileOf (bs : List Byte) : Tile := fun i =>
  ⟨bs.getD (4 * i) 0, bs.getD (4 * i + 1) 0, bs.getD (4 * i + 2) 0, bs.getD (4 * i + 3) 0⟩

/-- `n` bytes of a byte list from index `k` on. -/
def slice (o : Option (List Byte)) (k n : Nat) : Option (List Byte) := o.map fun bs => (bs.drop k).take n

/-! ### WellFormed -/

theorem test_wf_refuses_named_code_in_size : (Instr.size (.unknown 13)).wf = false := by decide
theorem test_wf_refuses_named_code_in_encImage : (Instr.encImage (.unknown 0)).wf = false := by decide
theorem test_wf_refuses_named_code_in_decImage : (Instr.decImage (.unknown 26)).wf = false := by decide
theorem test_wf_accepts_unnamed_code : (Instr.decImage (.unknown 27)).wf = true := by decide

/-! ### Decode: words written out from R300, R301 and the table V-ENC-W -/

theorem test_decode_encDxt1Tile : decode 0b000000000000000_0_00000000_00000001 = some .encDxt1Tile := by decide
theorem test_decode_encDxt5Tile : decode 0b000000000000000_0_00000000_00000010 = some .encDxt5Tile := by decide
theorem test_decode_decDxt1Tile_a0 : decode 0b000000000000000_0_00000000_00000011 = some (.decDxt1Tile false) := by
  decide
theorem test_decode_decDxt1Tile_a1 : decode 0b000000000000000_1_00000000_00000011 = some (.decDxt1Tile true) := by
  decide
theorem test_decode_decDxt3Tile : decode 0b000000000000000_0_00000000_00000100 = some .decDxt3Tile := by decide
theorem test_decode_decDxt5Tile : decode 0b000000000000000_0_00000000_00000101 = some .decDxt5Tile := by decide
theorem test_decode_encImage_dxt5 : decode 0b000000000000000_0_00001111_00000110 = some (.encImage .dxt5) := by decide
theorem test_decode_decImage_bgr888 : decode 0b000000000000000_0_00000011_00000111 = some (.decImage .bgr888) := by
  decide
theorem test_decode_decImage_99 : decode 0b000000000000000_0_01100011_00000111 = some (.decImage (.unknown 99)) := by
  decide
theorem test_decode_mipDown : decode 0b000000000000000_0_00000000_00001000 = some .mipDown := by decide
theorem test_decode_size_dxt1 : decode 0b000000000000000_0_00001101_00001001 = some (.size .dxt1) := by decide
theorem test_decode_illegal :
    [0x00000000, 0x0000000A, 0x000000FF, 0x00000101, 0x00010004, 0x80000001, 0x00020003].map decode =
      List.replicate 7 none := by decide
theorem test_decode_every_named_format :
    (List.range 256).all fun c => decode (BitVec.ofNat 32 (c * 256 + 9)) == some (.size (Format.ofCode (BitVec.ofNat 8 c))) := by
  decide +kernel
theorem test_table_row_decImage : decodeTableWord 32 0x1407 = some (.decImage .dxt1OneBitAlpha) := by decide

/-! ### Field arithmetic (V-ENC-W) -/

theorem test_expand565 : expand565 0x1234 = ⟨16, 69, 165⟩ := by decide
theorem test_pack565 : pack565 ⟨103, 101, 100⟩ = 0x632C ∧ pack565 ⟨7, 7, 7⟩ = 0x0020 := by decide
theorem test_eight_step_palette : (List.range 8).map (dxt5AlphaPalette 7 0) = [7, 0, 6, 5, 4, 3, 2, 1] := by decide

/-! ### Tile decode -/

/-- V-DEC1-2, row 0: three-colour mode. -/
theorem test_decDxt1Tile_three_colour :
    slice (stored 64 (run 0x10003 (setup [0x1F, 0, 0, 0xF8, 0xE4, 0xE4, 0xE4, 0xE4] 0 0))) 0 16 =
      some [0, 0, 255, 255, 255, 0, 0, 255, 127, 0, 127, 255, 0, 0, 0, 0] := by decide +kernel

/-- V-DEC1-2b, row 3: `hasAlpha = 0` forces four-colour mode. -/
theorem test_decDxt1Tile_four_colour :
    slice (stored 64 (run 0x00003 (setup [0x1F, 0, 0, 0xF8, 0xE4, 0xE4, 0xE4, 0xE4] 0 0))) 48 16 =
      some [0, 0, 255, 255, 255, 0, 0, 255, 85, 0, 170, 255, 170, 0, 85, 255] := by decide +kernel

/-- V-DEC3-1, row 3. -/
theorem test_decDxt3Tile :
    slice (stored 64 (run 4 (setup
      [0x10, 0x32, 0x54, 0x76, 0x98, 0xBA, 0xDC, 0xFE, 0, 0xF8, 0x1F, 0, 0xE4, 0xE4, 0xE4, 0xE4] 0 0))) 48 16 =
      some [255, 0, 0, 204, 0, 0, 255, 221, 170, 0, 85, 238, 85, 0, 170, 255] := by decide +kernel

/-- V-DEC3-2, row 0: the colour half is four-colour with `color0 < color1`. -/
theorem test_decDxt3Tile_four_colour :
    slice (stored 64 (run 4 (setup
      [255, 255, 255, 255, 255, 255, 255, 255, 0x1F, 0, 0, 0xF8, 0xE4, 0xE4, 0xE4, 0xE4] 0 0))) 0 16 =
      some [0, 0, 255, 255, 255, 0, 0, 255, 85, 0, 170, 255, 170, 0, 85, 255] := by decide +kernel

/-- V-DEC5-1, rows 0 and 1: the 8-step branch. -/
theorem test_decDxt5Tile_eight_step :
    slice (stored 64 (run 5 (setup
      [0xFF, 0, 0x88, 0xC6, 0xFA, 0x88, 0xC6, 0xFA, 0, 0xF8, 0x1F, 0, 0xE4, 0xE4, 0xE4, 0xE4] 0 0))) 0 32 =
      some [255, 0, 0, 255, 0, 0, 255, 0, 170, 0, 85, 218, 85, 0, 170, 182,
        255, 0, 0, 145, 0, 0, 255, 109, 170, 0, 85, 72, 85, 0, 170, 36] := by decide +kernel

/-- V-DEC5-4, rows 0 and 1: the 6-step branch. -/
theorem test_decDxt5Tile_six_step :
    slice (stored 64 (run 5 (setup
      [0x64, 0xC8, 0x88, 0xC6, 0xFA, 0x88, 0xC6, 0xFA, 0, 0xF8, 0x1F, 0, 0xE4, 0xE4, 0xE4, 0xE4] 0 0))) 0 32 =
      some [255, 0, 0, 100, 0, 0, 255, 200, 170, 0, 85, 120, 85, 0, 170, 140,
        255, 0, 0, 160, 0, 0, 255, 180, 170, 0, 85, 0, 85, 0, 170, 255] := by decide +kernel

/-- V-DEC-P: with pitch 0 the last row stands. -/
theorem test_decDxt1Tile_pitch_zero :
    stored 20 (run 0x10003 { setup [0, 0xF8, 0x1F, 0, 0xE4, 0xE4, 0xE4, 0xE4] 0 0 with
      regs := { Regs.reset with srcAddr := 0x100, dstAddr := 0x200 } }) =
      some [255, 0, 0, 255, 0, 0, 255, 255, 170, 0, 85, 255, 85, 0, 170, 255, 0, 0, 0, 0] := by decide +kernel

/-! ### Tile encode -/

/-- V-ENC1-1. -/
theorem test_encDxt1Tile :
    stored 8 (run 1 (setup greyTile 0 0)) = some [0xFF, 0xFF, 0, 0, 0xD5, 0xFF, 0xAA, 0x02] := by decide +kernel

/-- V-ENC1-5 and V-ENC1-5q: the two palette sources differ. -/
theorem test_encDxt1Tile_palette_sources :
    stored 8 (run 1 (setup twoGreysTile 0 0)) = some [0x2C, 0x63, 0x2C, 0x63, 0x55, 0x55, 0, 0] ∧
      stored 8 (run 1 { setup twoGreysTile 0 0 with params := { defaultParams with paletteSource := .quantized565 } }) =
        some [0x2C, 0x63, 0x2C, 0x63, 0, 0, 0, 0] := by decide +kernel

/-- V-ENC1-6. -/
theorem test_compressDXT1_equal_endpoints :
    compressDXT1 .rawMinMax (tileOf nearTile) = [0x2C, 0x63, 0x2C, 0x63, 0xF4, 0xFF, 0xFF, 0xFF] := by decide +kernel

/-- V-ENC5-1. -/
theorem test_encDxt5Tile :
    stored 16 (run 2 (setup ((List.range 64).map fun k => BitVec.ofNat 8 (17 * (k / 4))) 0 0)) =
      some [0xFF, 0, 0xC9, 0x6F, 0xB7, 0xE4, 0x26, 0x01, 0xFF, 0xFF, 0, 0, 0xD5, 0xFF, 0xAA, 0x02] := by decide +kernel

/-- V-ENC5-4: alpha 65 ties between entries 0 and 2 and keeps 0. -/
theorem test_encDxt5Tile_tie :
    stored 16 (run 2 (setup ([0, 0, 0, 70, 0, 0, 0, 0] ++ (List.range 14).flatMap fun _ => [0, 0, 0, 65]) 0 0)) =
      some [0x46, 0, 8, 0, 0, 0, 0, 0, 0, 0, 0, 0, 0, 0, 0, 0] := by decide +kernel

/-! ### Image commands -/

/-- V-IMG-1. -/
theorem test_decImage_bgr888 :
    stored 8 (run 0x0307 (setup [1, 2, 3, 4, 5, 6] 2 1)) = some [3, 2, 1, 255, 6, 5, 4, 255] := by decide +kernel

/-- V-IMG-6: the part of a block outside the image is not written; RESULT is 20. -/
theorem test_decImage_dxt1_clips :
    stored 22 (run 0x0D07 (setup [0, 0xF8, 0, 0xF8, 0, 0, 0, 0, 0x1F, 0, 0x1F, 0, 0, 0, 0, 0] 5 1)) =
      some [255, 0, 0, 255, 255, 0, 0, 255, 255, 0, 0, 255, 255, 0, 0, 255, 0, 0, 255, 255, 0, 0] := by decide +kernel

/-- V-IMG-3: magenta, WARN set, ERR 0. -/
theorem test_decImage_unsupported :
    stored 16 (run 0x6307 (setup [] 2 2)) =
        some [255, 0, 255, 255, 255, 0, 255, 255, 255, 0, 255, 255, 255, 0, 255, 255] ∧
      ended (run 0x6307 (setup [] 2 2)) = some (6, 16, 0) := by decide +kernel

/-- V-IMG-2 and V-IMG-2b. -/
theorem test_encImage_pixels :
    stored 8 (run 0x0C06 (setup [1, 2, 3, 4, 5, 6, 7, 8] 2 1)) = some [3, 2, 1, 4, 7, 6, 5, 8] ∧
      stored 8 (run 0x0206 (setup [1, 2, 3, 4, 5, 6, 7, 8] 2 1)) = some [1, 2, 3, 5, 6, 7, 0, 0] := by decide +kernel

/-- V-IMG-5 and V-IMG-5z: the two edge fills. -/
theorem test_encImage_dxt1_edges :
    let bs : List Byte := [255, 0, 0, 255, 255, 0, 0, 255, 255, 0, 0, 255, 255, 0, 0, 255, 0, 0, 255, 255]
    stored 16 (run 0x0D06 (setup bs 5 1)) = some [0, 0xF8, 0, 0xF8, 0, 0, 0, 0, 0x1F, 0, 0x1F, 0, 0, 0, 0, 0] ∧
      stored 16 (run 0x0D06 { setup bs 5 1 with params := { defaultParams with edgeFill := .zero } }) =
        some [0, 0xF8, 0, 0, 0, 0x55, 0x55, 0x55, 0x1F, 0, 0, 0, 0x54, 0x55, 0x55, 0x55] := by decide +kernel

/-! ### MIP_DOWN and SIZE -/

/-- V-MIP-1. -/
theorem test_mipDown_four_samples :
    stored 4 (run 8 (setup [0, 0, 0, 0, 255, 255, 255, 255, 1, 2, 3, 4, 3, 2, 1, 0] 2 2)) = some [64, 64, 64, 64] := by
  decide +kernel

/-- V-MIP-3: two samples where the width is 1, the odd last row dropped. -/
theorem test_mipDown_column :
    let s := setup [0, 0, 0, 0, 1, 2, 3, 4, 2, 4, 6, 8, 3, 6, 9, 12, 4, 8, 12, 16] 1 5
    stored 10 (run 8 s) = some [0, 1, 1, 2, 2, 5, 7, 10, 0, 0] ∧ ended (run 8 s) = some (2, 0x00020001, 0) := by
  decide +kernel

/-- V-SIZE-2 and V-SIZE-12. -/
theorem test_size :
    ended (run 0x0D09 (setup [] 5 5)) = some (2, 32, 0) ∧
      ended (run 0x1809 (setup [] 65535 65535)) = some (2, 0xFFF00008, 7) := by decide +kernel

/-- V-SIZE-14. -/
theorem test_size_unknown : ended (run 0x1B09 (setup [] 4 4)) = some (0x302, 0, 0) := by decide +kernel

/-! ### Errors and the check order (V-ERR) -/

/-- V-ERR-6, V-ERR-8, V-ERR-17, V-ERR-19. -/
theorem test_check_order :
    ended (run 0x10D06 State.reset) = some (0x102, 0, 0) ∧
      ended (run 0x0E06 (setup [] 4 0)) = some (0x202, 0, 0) ∧
      ended (run 3 { State.reset with regs := { Regs.reset with srcAddr := 0xFFFFFFF8, dstAddr := 0xFFFFFFF8 } }) =
        some (0x402, 0, 0) ∧
      ended (run 1 State.reset) = some (0x502, 0, 0) := by decide +kernel

/-- V-ERR-16: an exact fit at the top of the memory is legal. -/
theorem test_exact_fit_at_the_top :
    ended (run 3 { setup [1, 1, 1, 1, 1, 1, 1, 1] 0 0 with
      regs := { Regs.reset with srcAddr := 0x100, dstAddr := 0xFFFFFFF0 } }) = some (2, 64, 0) := by decide +kernel

/-- A state whose byte 0x203 cannot be written (V-ERR-22). -/
def noWrite203 : State :=
  { setup [0, 0xF8, 0x1F, 0, 0xE4, 0xE4, 0xE4, 0xE4] 0 0 with
    params := { defaultParams with denied := [{ lo := 0x203, len := 1, reads := false, writes := true }] } }

/-- V-ERR-22: the completion of a denied write; the destination bytes are free values. -/
theorem test_err_bus : ended (run 0x10003 noWrite203) = some (0x602, 0, 0) := by rfl

/-! ### The register window (V-REG) -/

/-- A host with these actions to take. -/
def hosted (q : List HostAction) (s : State) : State := { s with host := { s.host with queue := q } }

/-- V-REG-5 and V-REG-6: a 16-bit write of DIMS has no effect, a 32-bit one does. -/
theorem test_dims_write :
    ((match step (hosted [.busWrite 0x1C [5, 0]] State.reset) with | .next t => t.regs.dims | _ => 1) = 0) ∧
      (match step (hosted [.busWrite 0x1C [5, 0, 3, 0]] State.reset) with | .next t => t.regs.dims | _ => 1) =
        0x00030005 := by decide +kernel

/-- V-REG-3: only a written bit 3 of STATUS has an effect. -/
theorem test_status_write :
    (match step (hosted [.busWrite 4 [255, 255, 255, 255]] { State.reset with
        status := { done := true, warn := true, lost := true, err := .ok } }) with
      | .next t => t.statusWord
      | _ => 0) = 6 := by decide +kernel

/-- V-REG-8: a CMD write while a command is in flight sets LOST and leaves CMD. -/
theorem test_command_dropped :
    (match step { hosted [.busWrite 0 [9, 0, 0, 0]] State.reset with
        regs := { Regs.reset with cmd := 1 }, eng := { Engine.reset with state := .busy, progress := 3 } } with
      | .next t => (t.statusWord, t.regs.cmd, t.eng.progress)
      | _ => (0, 0, 0)) = (9, 1, 2) := by decide +kernel

/-! ### Witnesses: for every statement with hypotheses, a state and operands that meet them -/

/-- `setup` with the command word `w` in flight and no cycle left. -/
def ready (w : Nat) (bs : List Byte) (width height : Nat) : State := (setup bs width height).withFetchWord 32 w

theorem witness_DecodeOfEncode : (Instr.encImage (.unknown 255)).wf = true := by decide

theorem witness_EncodeOfDecode : decode 0x0001FF07 = none ∧ decode 0x0000FF07 = some (.decImage (.unknown 255)) := by
  decide

/-- One word for each of the three ways to break R303. -/
theorem witness_FieldUseConstraints :
    ((0x00000108#32).extractLsb' 8 8 ≠ 0 ∧ (0x00000108#32).extractLsb' 0 8 ≠ 0x06#8 ∧
        (0x00000108#32).extractLsb' 0 8 ≠ 0x07#8 ∧ (0x00000108#32).extractLsb' 0 8 ≠ 0x09#8) ∧
      ((0x00010004#32).getLsbD 16 = true ∧ (0x00010004#32).extractLsb' 0 8 ≠ 0x03#8) ∧
      (0x00020003#32).extractLsb' 17 15 ≠ 0 := by decide

theorem witness_IllegalWordsCompleteWithIllegalOp :
    (ready 0x0A [] 0 0).eng.state = .busy ∧ (ready 0x0A [] 0 0).eng.progress = 0 ∧
      decode (ready 0x0A [] 0 0).eng.snap.cmd = none := by decide

/-- A command with no cycle left, one with a cycle left, an idle engine, a table word. -/
theorem witness_StepRunsDecodedCommand :
    ((ready 8 [] 2 2).eng.state = .busy ∧ (ready 8 [] 2 2).eng.progress = 0 ∧
        decode (ready 8 [] 2 2).eng.snap.cmd = some .mipDown) ∧
      ((accept 8 1 (setup [] 2 2)).eng.state = .busy ∧ (accept 8 1 (setup [] 2 2)).eng.progress = 0 + 1) ∧
      (setup [] 2 2).eng.state = .idle ∧ decodeTableWord 32 8 = some .mipDown := by decide

theorem inv_ready : Inv (ready 9 [] 5 5) :=
  ⟨by decide, by decide, by decide, by decide, by decide, by decide, by decide⟩

/-- A command in flight that its step completes. -/
theorem witness_StepKeepsInvariant : Inv (ready 9 [] 5 5) ∧ ∃ t, step (ready 9 [] 5 5) = .next t :=
  ⟨inv_ready, _, rfl⟩

theorem witness_CommandsWriteOnlyTheirDestinationSpan :
    ∃ t, exec .mipDown (ready 8 [1, 2, 3, 4] 1 1) = .next t := ⟨_, rfl⟩

/-- The byte at 0x104, after the source span [0x100, 0x104), differs. -/
theorem witness_CommandsReadOnlyTheirSourceSpan :
    SameBytes (fun a => (spansOf .mipDown (ready 8 [1, 2, 3, 4] 1 1).eng.snap).inSrc a = true)
        (ready 8 [1, 2, 3, 4] 1 1).mem (ready 8 [1, 2, 3, 4, 5] 1 1).mem ∧
      (ready 8 [1, 2, 3, 4] 1 1).mem.read 0x104 ≠ (ready 8 [1, 2, 3, 4, 5] 1 1).mem.read 0x104 ∧
      (∃ t, exec .mipDown (ready 8 [1, 2, 3, 4] 1 1) = .next t) ∧
      ∃ t, exec .mipDown { ready 8 [1, 2, 3, 4] 1 1 with mem := (ready 8 [1, 2, 3, 4, 5] 1 1).mem } = .next t := by
  refine ⟨fun a h => ?_, by decide, ⟨_, rfl⟩, ⟨_, rfl⟩⟩
  have hr : 0x100 ≤ a ∧ a < 0x104 := of_decide_eq_true h
  have : a = 0x100 ∨ a = 0x101 ∨ a = 0x102 ∨ a = 0x103 := by omega
  rcases this with rfl | rfl | rfl | rfl <;> decide

/-- Each of the four errors at a boundary: height 0; format 27; a span one byte past 2^32; spans that share one byte.
None of the last three fails an earlier check, and one byte less of the last two fails none. -/
theorem witness_ChecksReportTheFirstFailure :
    let sn := (ready 8 [] 1 1).eng.snap
    (ready 8 [] 4 0).eng.snap.height = 0 ∧
      ((ready 0x1B09 [] 4 4).eng.snap.height ≠ 0 ∧ Format.ofCode 27 = .unknown 27) ∧
      (sn.width ≠ 0 ∧ sn.height ≠ 0) ∧
      ((spansOf .mipDown { sn with src := 0xFFFFFFFD }).outOfRange = true ∧
        (spansOf .mipDown { sn with src := 0xFFFFFFFC }).outOfRange = false) ∧
      ((spansOf .mipDown { sn with dst := 0x103 }).overlap = true ∧
        (spansOf .mipDown { sn with dst := 0x103 }).outOfRange = false) ∧
      (spansOf .mipDown { sn with dst := 0x104 }).overlap = false := by decide

theorem witness_NoContentRaisesAnError :
    (∃ t, exec .mipDown (ready 8 [1, 2, 3, 4] 1 1) = .next t) ∧
      ∃ t, exec .mipDown { ready 8 [1, 2, 3, 4] 1 1 with mem := [] } = .next t := ⟨⟨_, rfl⟩, ⟨_, rfl⟩⟩

/-- A range that denies byte 0x203 for writes, or byte 0x107 for reads. -/
def denying (lo : Nat) (r w : Bool) (s : State) : State :=
  { s with params := { s.params with denied := [{ lo := lo, len := 1, reads := r, writes := w }] } }

/-- The span and access hypotheses of DeniedAccessEndsWithBusError for command `i` on `s`. -/
def Denies (i : Instr) (s : State) : Prop :=
  SpansClear (spansOf i s.eng.snap) ∧
    ¬(ReadsAccepted s.params i s.eng.snap ∧ WritesAccepted s.params i s.eng.snap)

/-- A tile row read, a block write, a block read and a tile row write, each denied at its last byte. -/
theorem witness_DeniedAccessEndsWithBusError_tiles :
    Denies .encDxt1Tile (denying 0x13F true false (ready 1 [] 0 0)) ∧
      Denies .encDxt5Tile (denying 0x20F false true (ready 2 [] 0 0)) ∧
      Denies (.decDxt1Tile true) (denying 0x107 true false (ready 3 [] 0 0)) ∧
      Denies .decDxt3Tile (denying 0x23F false true (ready 4 [] 0 0)) ∧
      Denies .decDxt5Tile (denying 0x10F true false (ready 5 [] 0 0)) := by
  refine ⟨⟨?_, fun h => absurd (h.1 3 (by decide) 15 (by decide)) (by decide)⟩,
    ⟨?_, fun h => absurd (h.2 15 (by decide)) (by decide)⟩, ⟨?_, fun h => absurd (h.1 7 (by decide)) (by decide)⟩,
    ⟨?_, fun h => absurd (h.2 3 (by decide) 15 (by decide)) (by decide)⟩,
    ⟨?_, fun h => absurd (h.1 15 (by decide)) (by decide)⟩⟩ <;>
  unfold SpansClear <;> decide

/-- The last byte of the source or of the destination of each image command and of MIP_DOWN, 2×2 images; the
dimensions and the format pass their checks. -/
theorem witness_DeniedAccessEndsWithBusError_images :
    Denies (.encImage .rgb888) (denying 0x10F true false (ready 0x206 [] 2 2)) ∧
      Denies (.encImage .dxt1) (denying 0x207 false true (ready 0xD06 [] 2 2)) ∧
      Denies (.decImage .bgr888) (denying 0x10B true false (ready 0x307 [] 2 2)) ∧
      Denies (.decImage .dxt5) (denying 0x20F false true (ready 0xF07 [] 2 2)) ∧
      Denies .mipDown (denying 0x10F true false (ready 8 [] 2 2)) ∧
      Denies .mipDown (denying 0x203 false true (ready 8 [] 2 2)) ∧
      (ready 8 [] 2 2).eng.snap.width ≠ 0 ∧ (ready 8 [] 2 2).eng.snap.height ≠ 0 ∧
      Format.rgb888 ∈ [Format.rgba8888, .rgb888, .bgr888, .bgra8888, .dxt1, .dxt5] := by
  refine ⟨⟨?_, fun h => absurd (h.1 15 (by decide)) (by decide)⟩, ⟨?_, fun h => absurd (h.2 7 (by decide)) (by decide)⟩,
    ⟨?_, fun h => absurd (h.1 11 (by decide)) (by decide)⟩, ⟨?_, fun h => absurd (h.2 15 (by decide)) (by decide)⟩,
    ⟨?_, fun h => absurd (h.1 1 1 (by decide) (by decide) (by decide) (by decide) 3 (by decide)) (by decide)⟩,
    ⟨?_, fun h => absurd (h.2 3 (by decide)) (by decide)⟩, by decide, by decide, by decide⟩ <;>
  unfold SpansClear <;> decide

theorem witness_DecDxt1TileWritesTheTile :
    let s := ready 3 [] 0 0
    SpansClear ⟨s.eng.snap.src.toNat, 8, s.eng.snap.dst.toNat, 3 * s.eng.snap.dpitch.toNat + 16⟩ ∧
      CanRead s.params s.eng.snap.src.toNat 8 ∧
      ∀ y, y < 4 → CanWrite s.params (s.eng.snap.dst.toNat + y * s.eng.snap.dpitch.toNat) 16 := by
  unfold SpansClear CanRead CanWrite; decide +kernel

/-- Rows that overlap (pitch 0) in the last 16 bytes of the memory. -/
theorem witness_DecDxt3TileWritesTheTile :
    let s := State.withFetchWord
      { setup [] 0 0 with regs := { Regs.reset with srcAddr := 0x100, dstAddr := 0xFFFFFFF0 } } 32 4
    SpansClear ⟨s.eng.snap.src.toNat, 16, s.eng.snap.dst.toNat, 3 * s.eng.snap.dpitch.toNat + 16⟩ ∧
      CanRead s.params s.eng.snap.src.toNat 16 ∧
      ∀ y, y < 4 → CanWrite s.params (s.eng.snap.dst.toNat + y * s.eng.snap.dpitch.toNat) 16 := by
  unfold SpansClear CanRead CanWrite; decide +kernel

theorem witness_DecDxt5TileWritesTheTile :
    let s := ready 5 [] 0 0
    SpansClear ⟨s.eng.snap.src.toNat, 16, s.eng.snap.dst.toNat, 3 * s.eng.snap.dpitch.toNat + 16⟩ ∧
      CanRead s.params s.eng.snap.src.toNat 16 ∧
      ∀ y, y < 4 → CanWrite s.params (s.eng.snap.dst.toNat + y * s.eng.snap.dpitch.toNat) 16 := by
  unfold SpansClear CanRead CanWrite; decide +kernel

theorem witness_EncDxt1TileStoresTheBlock :
    let s := ready 1 [] 0 0
    SpansClear ⟨s.eng.snap.src.toNat, 3 * s.eng.snap.spitch.toNat + 16, s.eng.snap.dst.toNat, 8⟩ ∧
      (∀ y, y < 4 → CanRead s.params (s.eng.snap.src.toNat + y * s.eng.snap.spitch.toNat) 16) ∧
      CanWrite s.params s.eng.snap.dst.toNat 8 := by
  unfold SpansClear CanRead CanWrite; decide +kernel

theorem witness_EncDxt5TileStoresTheBlock :
    let s := ready 2 [] 0 0
    SpansClear ⟨s.eng.snap.src.toNat, 3 * s.eng.snap.spitch.toNat + 16, s.eng.snap.dst.toNat, 16⟩ ∧
      (∀ y, y < 4 → CanRead s.params (s.eng.snap.src.toNat + y * s.eng.snap.spitch.toNat) 16) ∧
      CanWrite s.params s.eng.snap.dst.toNat 16 := by
  unfold SpansClear CanRead CanWrite; decide +kernel

/-- A 2×1 image of BGR888. -/
theorem witness_DecImageConvertsEveryPixel :
    let sn := (ready 0x307 [] 2 1).eng.snap
    let n := sn.width.toNat * sn.height.toNat
    Format.bgr888 ∈ [Format.rgba8888, .abgr8888, .rgb888, .bgr888, .i8, .ia88, .a8, .argb8888, .bgra8888, .bgrx8888] ∧
      Format.bpp .bgr888 = some 3 ∧ sn.width.toNat ≠ 0 ∧ sn.height.toNat ≠ 0 ∧
      SpansClear ⟨sn.src.toNat, 3 * n, sn.dst.toNat, 4 * n⟩ ∧ CanRead (ready 0x307 [] 2 1).params sn.src.toNat (3 * n) ∧
      CanWrite (ready 0x307 [] 2 1).params sn.dst.toNat (4 * n) := by
  unfold SpansClear CanRead CanWrite; decide +kernel

/-- A 5×1 image of DXT1_ONEBITALPHA, two blocks. -/
theorem witness_DecImageDecodesEveryBlock :
    ∃ dec : List Byte → Tile, dec = (fun b => decodeDXT1 b true) ∧
      let sn := (ready 0x1407 [] 5 1).eng.snap
      let n := (sn.width.toNat + 3) / 4 * ((sn.height.toNat + 3) / 4)
      sn.width.toNat ≠ 0 ∧ sn.height.toNat ≠ 0 ∧
        SpansClear ⟨sn.src.toNat, 8 * n, sn.dst.toNat, 4 * (sn.width.toNat * sn.height.toNat)⟩ ∧
        CanRead (ready 0x1407 [] 5 1).params sn.src.toNat (8 * n) ∧
        CanWrite (ready 0x1407 [] 5 1).params sn.dst.toNat (4 * (sn.width.toNat * sn.height.toNat)) := by
  refine ⟨_, rfl, ?_⟩
  unfold SpansClear CanRead CanWrite; decide +kernel

/-- Code 99, a 2×2 image. -/
theorem witness_DecImageOfUnsupportedFormatIsMagenta :
    let sn := (ready 0x6307 [] 2 2).eng.snap
    Format.unknown 99 ∉ [Format.rgba8888, .abgr8888, .rgb888, .bgr888, .i8, .ia88, .a8, .argb8888, .bgra8888, .bgrx8888,
        .dxt1, .dxt3, .dxt5, .dxt1OneBitAlpha] ∧ sn.width.toNat ≠ 0 ∧ sn.height.toNat ≠ 0 ∧
      sn.dst.toNat + 4 * (sn.width.toNat * sn.height.toNat) ≤ 2 ^ 32 ∧
      CanWrite (ready 0x6307 [] 2 2).params sn.dst.toNat (4 * (sn.width.toNat * sn.height.toNat)) := by
  unfold CanWrite; decide +kernel

/-- A 2×1 image to RGB888. -/
theorem witness_EncImageConvertsEveryPixel :
    let sn := (ready 0x206 [] 2 1).eng.snap
    let n := sn.width.toNat * sn.height.toNat
    Format.rgb888 ∈ [Format.rgba8888, .rgb888, .bgr888, .bgra8888] ∧ Format.bpp .rgb888 = some 3 ∧
      sn.width.toNat ≠ 0 ∧ sn.height.toNat ≠ 0 ∧ SpansClear ⟨sn.src.toNat, 4 * n, sn.dst.toNat, 3 * n⟩ ∧
      CanRead (ready 0x206 [] 2 1).params sn.src.toNat (4 * n) ∧
      CanWrite (ready 0x206 [] 2 1).params sn.dst.toNat (3 * n) := by
  unfold SpansClear CanRead CanWrite; decide +kernel

/-- A 5×1 image to DXT5, two blocks. -/
theorem witness_EncImageEncodesEveryBlock :
    ∃ enc : Tile → List Byte, enc = compressDXT5 (ready 0xF06 [] 5 1).params.paletteSource ∧
      let sn := (ready 0xF06 [] 5 1).eng.snap
      let n := (sn.width.toNat + 3) / 4 * ((sn.height.toNat + 3) / 4)
      sn.width.toNat ≠ 0 ∧ sn.height.toNat ≠ 0 ∧
        SpansClear ⟨sn.src.toNat, 4 * (sn.width.toNat * sn.height.toNat), sn.dst.toNat, 16 * n⟩ ∧
        CanRead (ready 0xF06 [] 5 1).params sn.src.toNat (4 * (sn.width.toNat * sn.height.toNat)) ∧
        CanWrite (ready 0xF06 [] 5 1).params sn.dst.toNat (16 * n) := by
  refine ⟨_, rfl, ?_⟩
  unfold SpansClear CanRead CanWrite; decide +kernel

/-- A 3×1 image, whose last column no footprint reaches. -/
theorem witness_MipDownWritesTheNextLevel :
    let s := ready 8 [] 3 1
    s.eng.snap.width.toNat = 3 ∧ s.eng.snap.height.toNat = 1 ∧
      SpansClear ⟨s.eng.snap.src.toNat, 4 * (3 * 1), s.eng.snap.dst.toNat, 4 * (1 * 1)⟩ ∧
      (∀ x, x < 3 → ∀ y, y < 1 → x / 2 < 1 → y / 2 < 1 →
        CanRead s.params (s.eng.snap.src.toNat + 4 * (y * 3 + x)) 4) ∧
      CanWrite s.params s.eng.snap.dst.toNat (4 * (1 * 1)) := by
  unfold SpansClear CanRead CanWrite; decide +kernel

/-- Format 26, the last with a size, and code 27, the first without. -/
theorem witness_SizeGivesTheImageSize :
    calculateImageSize 0 0 (Format.ofCode 26) = some 4 ∧ Format.ofCode 27 = .unknown 27 := by decide

/-- A format of each group; the 64-bit bound at the largest image of the largest format. -/
theorem witness_ImageSizeFormula :
    Format.dxt1OneBitAlpha ∈ [Format.dxt1, .dxt1OneBitAlpha] ∧ Format.dxt3 ∈ [Format.dxt3, .dxt5] ∧
      (Format.rgba16161616, 8) ∈ [(Format.rgba16161616f, 8), (Format.rgba16161616, 8)] ∧
      Format.bpp .rgb888 = some 3 ∧ Format.ofCode 255 = .unknown 255 ∧
      calculateImageSize 65535 65535 .rgba16161616 = some 34358689800 := by decide

/-- Each of the four cases at its least dimensions, the last destination pixel. -/
theorem witness_MipSampleCounts :
    (2 ≤ 2 ∧ 0 < max 1 (2 / 2)) ∧ (2 ≤ 3 ∧ 0 < max 1 (3 / 2) ∧ 0 < max 1 (1 / 2)) ∧
      (2 ≤ 5 ∧ 1 < max 1 (5 / 2) ∧ 0 < max 1 (1 / 2)) ∧ 0 < max 1 (1 / 2) ∧
      Pixel.a ∈ [Pixel.r, Pixel.g, Pixel.b, Pixel.a] := by
  refine ⟨by decide, by decide, by decide, by decide, ?_⟩
  simp

theorem witness_MipChainDimensions : (1 ≠ 0 ∧ 65535 ≠ 0) ∧ Nat.log2 (max 1 65535) = 15 := by decide

/-- Both modes, the second at equality. -/
theorem witness_Dxt1PaletteModes :
    ((2 : Half).toNat > (1 : Half).toNat ∨ true = false) ∧ ¬((1 : Half).toNat > (1 : Half).toNat ∨ true = false) := by
  decide

theorem witness_BlockFieldsAndLookup : 8 ≤ (List.replicate 8 (0 : Byte)).length ∧ 15 < 16 := by decide

theorem witness_Dxt3AlphaReplicatesTheNibble : 8 ≤ (List.replicate 8 (0 : Byte)).length ∧ 15 < 16 := by decide

/-- Both branches, the second at equality, each with its last interpolated entry. -/
theorem witness_Dxt5AlphaPaletteBranches :
    ((1 : Byte).toNat > (0 : Byte).toNat ∧ 5 ≤ 5) ∧ (200 : Byte).toNat ≤ (200 : Byte).toNat ∧ 3 ≤ 3 := by decide

theorem witness_EndpointTriplesAreTheExtremes :
    ((Pixel.b, Rgb.b) : (Pixel → Byte) × (Rgb → Byte)) ∈ [(Pixel.r, Rgb.r), (Pixel.g, Rgb.g), (Pixel.b, Rgb.b)] := by simp

theorem witness_ColourIndexIsNearestLowestFirst : 0 < dxt1Index ⟨9, 9, 9, 0⟩ (fun k => ⟨BitVec.ofNat 8 (3 * k), 9, 9⟩) := by
  decide

/-- A tile with equal endpoints, an index 3 in it under RAW_MINMAX (V-ENC1-6), and none under QUANTIZED_565. -/
theorem witness_EqualEndpointsDecode :
    let b := compressDXT1 .rawMinMax (tileOf nearTile)
    let q := compressDXT1 .quantized565 (tileOf nearTile)
    (blockColor0 b = blockColor1 b ∧ colorIndex b 15 = 3) ∧ blockColor0 q = blockColor1 q ∧ colorIndex q 15 = 0 := by
  decide +kernel

/-- A tile whose alphas differ and one whose alphas are all 255, the last pixel of each. -/
theorem witness_Dxt5AlphaDecodesAsEncoded :
    15 < 16 ∧ alphaMin (tileOf [0, 0, 0, 255]) < alphaMax (tileOf [0, 0, 0, 255]) ∧
      alphaMin (tileOf greyTile) = alphaMax (tileOf greyTile) := by decide +kernel

/-- A 5×1 image: the second block holds one pixel of it. -/
theorem witness_ClampFillCopiesImagePixels : 4 * 1 < 5 ∧ 4 * 0 < 1 ∧ 4 * 1 + 0 % 4 < 5 ∧ ¬4 * 1 + 1 % 4 < 5 := by decide

/-- The host's turn with the engine idle, and with a command in flight that has one cycle left. -/
theorem turn_idle (q : List HostAction) : HostsTurn (hosted q State.reset) := .inl rfl
theorem turn_busy (q : List HostAction) : HostsTurn (hosted q (accept 9 1 State.reset)) := .inr ⟨0, rfl⟩

/-- A store at the last offset, on an idle engine's turn and on a busy one's. -/
theorem witness_AlignedStoreWritesItsRegister :
    let q : List HostAction := [.busWrite (0 + 0x3C) (leBytes (7 : Word).toNat 4)]
    let next := fun s : State => { s.cycled with host := { s.host with queue := [] } }
    HostsTurn (hosted q State.reset) ∧ HostsTurn (hosted q (accept 9 1 State.reset)) ∧
      (hosted q (accept 9 1 State.reset)).host.queue =
        .busWrite (State.reset.params.regBase + 0x3C) (leBytes (7 : Word).toNat 4) :: [] ∧
      let s' := next (hosted q (accept 9 1 State.reset))
      (0x3C, s') ∈
        [(0x00, writeCmd 7 s'), (0x04, { s' with status := { s'.status with lost := s'.status.lost && !(7 : Word).getLsbD 3 } }),
          (0x08, if (7 : Word).getLsbD 0 then resetBlock s' else s'), (0x0C, { s' with regs := { s'.regs with srcAddr := 7 } }),
          (0x10, { s' with regs := { s'.regs with dstAddr := 7 } }), (0x14, { s' with regs := { s'.regs with srcPitch := 7 } }),
          (0x18, { s' with regs := { s'.regs with dstPitch := 7 } }), (0x1C, { s' with regs := { s'.regs with dims := 7 } }),
          (0x20, s'), (0x24, s'), (0x28, s'), (0x2C, s'), (0x30, s'), (0x34, s'), (0x38, s'), (0x3C, s')] :=
  ⟨turn_idle _, turn_busy _, rfl, by simp⟩

/-- Each of the four reasons: width, alignment, a read-only register, CTRL with bit 0 clear. -/
theorem witness_IneffectiveStoresChangeNothing :
    HostsTurn (hosted [.busWrite 0x1C [5, 0]] State.reset) ∧
      HostsTurn (hosted [.busWrite 0x1C [5, 0]] (accept 9 1 State.reset)) ∧
      (hosted [.busWrite 0x1C [5, 0]] State.reset).host.queue =
        .busWrite (State.reset.params.regBase + 0x1C) [5, 0] :: [] ∧
      [5, 0].length ≠ 4 ∧ 0x0D % 4 ≠ 0 ∧ 0x20 ≤ 0x20 ∧ leNat [0xFE, 0xFF, 0xFF, 0xFF] % 2 = 0 :=
  ⟨turn_idle _, turn_busy _, rfl, by decide, by decide, by decide, by decide⟩

/-- An idle engine, and a command in flight with two cycles left. -/
theorem witness_OperandRegistersReadAsWritten :
    let q : List HostAction := [.busWrite (0 + 0x1C) (leBytes (7 : Word).toNat 4), .busRead (0 + 0x1C) 4]
    (hosted q State.reset).eng.state = .idle ∧ (hosted q (accept 9 2 State.reset)).eng.progress = 0 + 2 ∧
      (0x1C, { Regs.reset with dims := 7 }) ∈ [(0x18, { Regs.reset with dstPitch := 7 }), (0x1C, { Regs.reset with dims := 7 })] ∧
      (hosted q State.reset).host.queue =
        .busWrite (State.reset.params.regBase + 0x1C) (leBytes (7 : Word).toNat 4) ::
          .busRead (State.reset.params.regBase + 0x1C) 4 :: [] := by decide

/-- A STATUS load on an idle engine's turn and on a busy one's; each of the four reasons to read 0. -/
theorem witness_WindowLoadsGiveTheRegisters :
    HostsTurn (hosted [.busRead 4 4] State.reset) ∧ HostsTurn (hosted [.busRead 4 4] (accept 9 1 State.reset)) ∧
      (hosted [.busRead 4 4] (accept 9 1 State.reset)).host.queue =
        .busRead (State.reset.params.regBase + 0x04) 4 :: [] ∧
      (∃ s : State, s = hosted [.busRead 4 4] (accept 9 1 State.reset) ∧
        s.statusWord = 1 ∧
          (0x04, s.statusWord) ∈
            [(0x00, s.regs.cmd), (0x04, s.statusWord), (0x08, 0), (0x0C, s.regs.srcAddr), (0x10, s.regs.dstAddr),
              (0x14, s.regs.srcPitch), (0x18, s.regs.dstPitch), (0x1C, s.regs.dims), (0x20, s.regs.resultLo),
              (0x24, s.regs.resultHi), (0x28, 0), (0x2C, 0), (0x30, 0), (0x34, 0), (0x38, 0), (0x3C, 0)]) ∧
      2 ≠ 4 ∧ 0x1E % 4 ≠ 0 ∧ 0x28 ≤ 0x28 ∧ 0x28 < 64 :=
  ⟨turn_idle _, turn_busy _, rfl, ⟨_, rfl, by decide, by simp⟩, by decide, by decide, by decide, by decide⟩

theorem witness_IdleCommandIsAccepted :
    (hosted [.busWrite 0 (leBytes (8 : Word).toNat 4)] State.reset).eng.state = .idle ∧
      (hosted [.busWrite 0 (leBytes (8 : Word).toNat 4)] State.reset).host.queue =
        .busWrite State.reset.params.regBase (leBytes (8 : Word).toNat 4) :: [] := by decide

theorem witness_BusyCommandIsDropped :
    let s := hosted [.busWrite 0 (leBytes (8 : Word).toNat 4)] (accept 9 1 State.reset)
    s.eng.state = .busy ∧ s.eng.progress = 0 + 1 ∧
      s.host.queue = .busWrite s.params.regBase (leBytes (8 : Word).toNat 4) :: [] := by decide

/-- An operand register, and CTRL with bit 0 clear. -/
theorem witness_BusyRegisterWritesLeaveTheSnapshot :
    (accept 9 1 State.reset).eng.state = .busy ∧ (Reg.ctrl = Reg.ctrl → (2 : Word).getLsbD 0 = false) ∧
      Reg.dims ∈ [Reg.srcAddr, .dstAddr, .srcPitch, .dstPitch, .dims] ∧ Reg.srcAddr ≠ Reg.dims ∧
      Reg.srcAddr ≠ Reg.status := by decide

/-- A power-on reset with the engine idle, a CTRL write of 1 with a command in flight. -/
theorem witness_ResetState :
    let q : List HostAction := [.busWrite 8 (leBytes (1 : Word).toNat 4)]
    (1 : Word).getLsbD 0 = true ∧ (hosted [.reset] (setup [1] 1 1)).eng.state = .idle ∧
      (hosted [.reset] (setup [1] 1 1)).host.queue = .reset :: [] ∧
      (hosted q (accept 9 1 State.reset)).eng.progress = 0 + 1 ∧
      (hosted q (accept 9 1 State.reset)).host.queue =
        .busWrite (State.reset.params.regBase + 0x08) (leBytes (1 : Word).toNat 4) :: [] := by decide

/-- Either kind of reset of a MIP_DOWN in flight, and of an illegal word; the last byte of its destination span, and the next byte. -/
theorem witness_ResetAbandonsTheCommandInFlight :
    let s := accept 8 1 (setup [] 2 2)
    let q : List HostAction := [.busWrite 8 (leBytes (1 : Word).toNat 4)]
    s.eng.state = .busy ∧ s.eng.progress = 0 + 1 ∧ (1 : Word).getLsbD 0 = true ∧
      (hosted [.reset] s).host.queue = .reset :: [] ∧
      (hosted q s).host.queue = .busWrite (s.params.regBase + 0x08) (leBytes (1 : Word).toNat 4) :: [] ∧
      (accept 0x0A 1 (setup [] 2 2)).eng.progress = 0 + 1 ∧ decode (accept 0x0A 1 (setup [] 2 2)).eng.snap.cmd = none ∧
      decode s.eng.snap.cmd = some .mipDown ∧ (spansOf .mipDown s.eng.snap).inDst 0x203 = true ∧
      (spansOf .mipDown s.eng.snap).inDst 0x204 = false := by decide

theorem witness_CommandsAtResetDefaults :
    (Instr.size .uvlx8888).wf = true ∧ calculateImageSize 1 1 .uvlx8888 = some 4 ∧ Instr.mipDown.wf = true := by decide

/-- A completed MIP_DOWN of a 2×2 image whose STATUS read is owed. -/
def owing (act : HostAction) : State :=
  let s := ready 8 [] 2 2
  { s with eng := { s.eng with state := .idle }, host := { s.host with queue := [act] } }

/-- Spans owed that hold the last source and the last destination byte, and neither of the bytes after them; a CMD
write and a STATUS load of an idle engine. -/
theorem witness_SpanHazardIsRefused :
    (owing (.memRead 0x10F)).eng.state = .idle ∧ 0xFFFFFFFF < 2 ^ 32 ∧ 2 ^ 32 ≤ 0x100000000 ∧
      (owing (.memRead 0x10F)).host.queue = .memRead 0x10F :: [] ∧
      (owing (.memRead 0x10F)).host.owed = [⟨0x100, 16, 0x200, 4⟩] ∧
      (0x100 ≤ 0x10F ∧ 0x10F < 0x100 + 16) ∧ ¬0x110 < 0x100 + 16 ∧ (0x200 ≤ 0x203 ∧ 0x203 < 0x200 + 4) ∧
      ¬0x204 < 0x200 + 4 ∧ decode 8 = some .mipDown ∧
      (hosted [.busWrite 0 (leBytes (8 : Word).toNat 4)] State.reset).host.queue =
        .busWrite State.reset.params.regBase (leBytes (8 : Word).toNat 4) :: [] ∧
      (owing (.busRead 4 4)).host.queue = .busRead (State.reset.params.regBase + 0x04) 4 :: [] := by decide

/-- The spans of a completed command stay owed over a pause of the host. -/
theorem witness_SpanHazardIsRefused_step :
    (owing .pause).host.owed = [⟨0x100, 16, 0x200, 4⟩] ∧
      ∃ t, step (owing .pause) = .next t ∧ t.host.owed = [⟨0x100, 16, 0x200, 4⟩] := ⟨by decide, _, rfl, by decide⟩

/-- The same spans with the command in flight, on the host's turn, and the invariant of that state. -/
theorem witness_SpanHazardIsRefused_busy :
    let s := hosted [.memWrite 0x203 1] (accept 8 1 (setup [] 2 2))
    HostsTurn s ∧ s.host.owed = [⟨0x100, 16, 0x200, 4⟩] ∧ Inv s ∧ s.busy = true ∧
      decode s.eng.snap.cmd = some .mipDown ∧ step s = .refused .spanHazard :=
  ⟨.inr ⟨0, rfl⟩, by decide,
    ⟨by decide, by decide, by decide, by decide, by decide, by decide, by decide⟩, by decide, by decide, by rfl⟩

/-- A command with two cycles left, which completes in the third step. -/
theorem witness_CommandInFlightEnds :
    (accept 9 2 State.reset).busy = true ∧ ∃ t, Sys2Proof.core.run 3 (accept 9 2 State.reset) = .next t :=
  ⟨by decide, _, rfl⟩

theorem witness_UndisturbedCommandCompletes :
    (accept 9 2 State.reset).busy = true ∧ (accept 9 2 State.reset).host.queue = [] := by decide

/-- A CMD write to an idle engine. -/
theorem witness_SnapshotUnreadWhileIdle :
    (hosted [.busWrite 0 [8, 0, 0, 0]] State.reset).eng.state = .idle ∧
      ∃ t, step (hosted [.busWrite 0 [8, 0, 0, 0]] State.reset) = .next t := ⟨by decide, _, rfl⟩

end Sys2Proof.Tests
end

section
/-! SUPPORT. The host's turn on the register window, and the statements about registers, acceptance and the machine's
invariant: what one access of the host does, said once, then each statement from it. -/

namespace Sys2Proof.Machine

open Sys2Proof

/-! ### The host's turn -/

/-- The state in which the host's next action takes effect: one cycle less left for a command in flight, the action gone
from the queue. -/
def State.onTurn (s : State) (rest : List HostAction) : State :=
  { s.cycled with host := { s.host with queue := rest } }

section OnTurn
variable (s : State) (rest : List HostAction)
@[simp] theorem State.onTurn_regs : (s.onTurn rest).regs = s.regs := s.cycled_regs
@[simp] theorem State.onTurn_status : (s.onTurn rest).status = s.status := s.cycled_status
@[simp] theorem State.onTurn_mem : (s.onTurn rest).mem = s.mem := s.cycled_mem
@[simp] theorem State.onTurn_params : (s.onTurn rest).params = s.params := s.cycled_params
@[simp] theorem State.onTurn_draws : (s.onTurn rest).draws = s.draws := s.cycled_draws
@[simp] theorem State.onTurn_engState : (s.onTurn rest).eng.state = s.eng.state := s.cycled_engState
@[simp] theorem State.onTurn_snap : (s.onTurn rest).eng.snap = s.eng.snap := s.cycled_snap
@[simp] theorem State.onTurn_host : (s.onTurn rest).host = { s.host with queue := rest } := rfl
@[simp] theorem State.onTurn_busy : (s.onTurn rest).busy = s.busy := s.cycled_busy
@[simp] theorem State.onTurn_statusWord : (s.onTurn rest).statusWord = s.statusWord := s.cycled_statusWord

theorem readReg_onTurn (r : Reg) : readReg r (s.onTurn rest) = readReg r s := by
  cases r <;> simp [readReg]

theorem readEnds_onTurn (r : Reg) : readEnds r (s.onTurn rest) = readEnds r s := by
  simp [readEnds]
end OnTurn

theorem State.cycled_busy_succ {s : State} {n : Nat} (h : s.eng.state = .busy) (hp : s.eng.progress = n + 1) :
    s.cycled = { s with eng := { s.eng with progress := n } } := by
  simp [State.cycled, h, hp]

/-- On the host's turn the first action of the queue takes effect. -/
theorem step_hostAct {s : State} {act : HostAction} {rest : List HostAction} (ht : HostsTurn s)
    (hq : s.host.queue = act :: rest) : step s = hostAct act (s.onTurn rest) := by
  have hq' : s.cycled.host.queue = act :: rest := by rw [State.cycled_host, hq]
  rw [step_hostsTurn ht, hostTurn_cons hq', State.cycled_host]
  rfl

/-! ### Accesses to the register window -/

/-- R121: of the accesses that start inside the window, the aligned ones of 4 bytes reach the offset they start at. -/
theorem accessOffset_window (p : Config.Params) {off : Nat} (n : Nat) (h : off < 64) :
    accessOffset p (p.regBase + off) n = if n = 4 ∧ off % 4 = 0 then some off else none := by
  simp [accessOffset, inWindow, h]

theorem inWindow_regBase_add (p : Config.Params) {off : Nat} (h : off < 64) :
    inWindow p (p.regBase + off) = true := by
  simp [inWindow, h]

/-- A host store that starts inside the window: a register write when it is aligned and 4 bytes wide, else nothing. -/
theorem busWrite_window (s : State) {off : Nat} (data : List Byte) (h : off < 64) :
    busWrite (s.params.regBase + off) data s =
      if data.length = 4 ∧ off % 4 = 0 then writeReg (regAt off) (BitVec.ofNat 32 (leNat data)) s else s := by
  rw [busWrite, accessOffset_window _ _ h]
  by_cases ha : data.length = 4 ∧ off % 4 = 0
  · simp only [if_pos ha]
  · simp only [if_neg ha]

/-- An aligned host load of 4 bytes inside the window gives the register's bytes. -/
theorem busRead_aligned (s : State) {off : Nat} (h : off < 64) (ha : off % 4 = 0) :
    busRead (s.params.regBase + off) 4 s =
      { s with host := { s.host with
          busData := leBytes (readReg (regAt off) s).toNat 4
          owed := if readEnds (regAt off) s then [] else s.host.owed } } := by
  simp [busRead, accessOffset_window _ _ h, ha]

/-- A host load inside the window of another width or alignment gives zeros. -/
theorem busRead_undefined (s : State) {off n : Nat} (h : off < 64) (hn : ¬(n = 4 ∧ off % 4 = 0)) :
    busRead (s.params.regBase + off) n s = { s with host := { s.host with busData := List.replicate n 0 } } := by
  simp [busRead, accessOffset_window _ _ h, hn, inWindow_regBase_add _ h]

/-- A word is the little-endian value of its four bytes. -/
theorem ofNat_leNat_leBytes (v : Word) : BitVec.ofNat 32 (leNat (leBytes v.toNat 4)) = v := by
  rw [leNat_leBytes, show 256 ^ 4 = 2 ^ 32 by norm_num, Nat.mod_eq_of_lt v.isLt, BitVec.ofNat_toNat, BitVec.setWidth_eq]

/-- A store inside the window, on the host's turn. -/
theorem step_busWrite {s : State} {rest : List HostAction} {off : Nat} {data : List Byte} (ht : HostsTurn s)
    (h : off < 64) (hq : s.host.queue = .busWrite (s.params.regBase + off) data :: rest) :
    step s = .next (if data.length = 4 ∧ off % 4 = 0
      then writeReg (regAt off) (BitVec.ofNat 32 (leNat data)) (s.onTurn rest) else s.onTurn rest) := by
  rw [step_hostAct ht hq, hostAct, ← busWrite_window (s.onTurn rest) data h, State.onTurn_params]

/-- An aligned store of the four bytes of `v`, on the host's turn, writes `v` to the register at its offset. -/
theorem step_busWrite_word {s : State} {rest : List HostAction} {off : Nat} {v : Word} (ht : HostsTurn s)
    (h : off < 64) (ha : off % 4 = 0)
    (hq : s.host.queue = .busWrite (s.params.regBase + off) (leBytes v.toNat 4) :: rest) :
    step s = .next (writeReg (regAt off) v (s.onTurn rest)) := by
  rw [step_busWrite ht h hq, if_pos ⟨leBytes_length _ _, ha⟩, ofNat_leNat_leBytes]

/-- An aligned load of 4 bytes, on the host's turn, gives the bytes of the register at its offset. -/
theorem step_busRead_word {s : State} {rest : List HostAction} {off : Nat} (ht : HostsTurn s)
    (h : off < 64) (ha : off % 4 = 0) (hq : s.host.queue = .busRead (s.params.regBase + off) 4 :: rest) :
    step s = .next { s.cycled with
      host := { s.host with
        queue := rest
        busData := leBytes (readReg (regAt off) s).toNat 4
        owed := if readEnds (regAt off) s then [] else s.host.owed } } := by
  rw [step_hostAct ht hq, hostAct, ← s.onTurn_params rest, busRead_aligned _ h ha, readReg_onTurn, readEnds_onTurn]
  rfl

/-- The offsets of the map (R110). -/
def windowOffsets : List Nat :=
  [0x00, 0x04, 0x08, 0x0C, 0x10, 0x14, 0x18, 0x1C, 0x20, 0x24, 0x28, 0x2C, 0x30, 0x34, 0x38, 0x3C]

theorem lt_and_aligned_of_mem_windowOffsets : ∀ off ∈ windowOffsets, off < 64 ∧ off % 4 = 0 := by decide

/-- The registers behind the offsets from 0x20 on ignore a write (R119, R120). -/
theorem writeReg_regAt_of_le {off : Nat} (h : 0x20 ≤ off) (w : Word) (s : State) : writeReg (regAt off) w s = s := by
  unfold regAt
  split <;> simp_all [writeReg]

theorem readReg_regAt_of_le {off : Nat} (h : 0x28 ≤ off) (s : State) : readReg (regAt off) s = 0 := by
  unfold regAt
  split <;> simp_all [readReg]

/-- Only the load of STATUS, at offset 4, ends the host's hand-over duty. -/
theorem regAt_eq_status_iff (off : Nat) : regAt off = .status ↔ off = 0x04 := by
  unfold regAt
  split <;> simp_all

theorem readEnds_regAt (off : Nat) (s : State) : readEnds (regAt off) s = true ↔ off = 0x04 ∧ s.busy = false := by
  simp [readEnds, regAt_eq_status_iff]

theorem writeReg_ctrl_of_clear {w : Word} (h : w.getLsbD 0 = false) (s : State) : writeReg .ctrl w s = s := by
  simp only [writeReg, h, Bool.false_eq_true, if_false]

theorem getLsbD_zero_ofNat_of_even {n : Nat} (h : n % 2 = 0) : (BitVec.ofNat 32 n).getLsbD 0 = false := by
  rw [BitVec.getLsbD_ofNat, Nat.testBit_zero]
  simp [h]

/-! ### STATUS -/

/-- R112, bit by bit. -/
theorem State.statusWord_getLsbD (s : State) (k : Nat) :
    s.statusWord.getLsbD k =
      (decide (k = 0) && s.busy || decide (k = 1) && s.status.done || decide (k = 2) && s.status.warn ||
        decide (k = 3) && s.status.lost || decide (8 ≤ k) && s.status.err.code.getLsbD (k - 8)) := by
  have htop : 32 ≤ k → s.status.err.code.getLsbD (k - 8) = false := fun h => BitVec.getLsbD_of_ge _ _ (by omega)
  simp only [State.statusWord, BitVec.getLsbD_or, BitVec.getLsbD_shiftLeft, BitVec.getLsbD_setWidth, BitVec.getLsbD_ofBool]
  grind

/-- The reserved bits of STATUS, and the place of the error code. -/
theorem State.statusWord_fields (s : State) :
    s.statusWord.extractLsb' 4 4 = 0 ∧ s.statusWord.extractLsb' 8 4 = s.status.err.code ∧
      s.statusWord.extractLsb' 12 20 = 0 := by
  refine ⟨?reserved, ?err, ?top⟩
  case reserved =>
    refine BitVec.eq_of_getLsbD_eq fun k hk => ?_
    simp only [BitVec.getLsbD_extractLsb', State.statusWord_getLsbD, BitVec.ofNat_eq_ofNat, BitVec.getLsbD_zero]
    grind
  case err =>
    refine BitVec.eq_of_getLsbD_eq fun k hk => ?_
    simp only [BitVec.getLsbD_extractLsb', State.statusWord_getLsbD]
    grind
  case top =>
    refine BitVec.eq_of_getLsbD_eq fun k hk => ?_
    have herr : s.status.err.code.getLsbD (12 + k - 8) = false := BitVec.getLsbD_of_ge _ _ (by omega)
    simp only [BitVec.getLsbD_extractLsb', State.statusWord_getLsbD, BitVec.ofNat_eq_ofNat, BitVec.getLsbD_zero, herr]
    grind

/-- A host write of STATUS clears bit 3 where the word written has it, and no other bit. -/
theorem statusWord_writeReg_status (w : Word) (s : State) :
    (writeReg .status w s).statusWord = if w.getLsbD 3 then s.statusWord &&& ~~~8#32 else s.statusWord := by
  cases hw : w.getLsbD 3 with
  | false =>
    have hkeep : s.status.hostWrite w = s.status := by simp only [Status.hostWrite, hw, Bool.not_false, Bool.and_true]
    rw [writeReg, hkeep]
    rfl
  | true =>
    have hbit : ∀ k, (8#32).getLsbD k = decide (k = 3) := fun k => by
      rw [show (8#32) = BitVec.twoPow 32 3 by decide, BitVec.getLsbD_twoPow]
      grind
    refine BitVec.eq_of_getLsbD_eq fun k hk => ?_
    simp only [if_true, BitVec.getLsbD_and, BitVec.getLsbD_not, hbit, State.statusWord_getLsbD, writeReg, State.busy,
      Status.hostWrite, hw]
    grind

/-! ### Registers -/

/-- The registers that a host write sets as a whole and nothing else writes before reset (R114 to R118). -/
def operandRegs : List Reg := [.srcAddr, .dstAddr, .srcPitch, .dstPitch, .dims]

theorem writeReg_eng_mem_of_busy {r : Reg} {w : Word} {s : State} (hb : s.eng.state = .busy)
    (hc : r = .ctrl → w.getLsbD 0 = false) : (writeReg r w s).eng = s.eng ∧ (writeReg r w s).mem = s.mem := by
  cases r with
  | cmd => rw [writeReg, writeCmd_busy hb]; exact ⟨rfl, rfl⟩
  | ctrl => rw [writeReg_ctrl_of_clear (hc rfl)]; exact ⟨rfl, rfl⟩
  | _ => exact ⟨rfl, rfl⟩

/-- A read of a register but STATUS depends on `regs` only. -/
theorem readReg_congr {r : Reg} {s t : State} (hr : r ≠ .status) (h : t.regs = s.regs) : readReg r t = readReg r s := by
  cases r <;> simp_all [readReg]

theorem readReg_writeReg_operand {r : Reg} (hr : r ∈ operandRegs) (w : Word) (s : State) :
    readReg r (writeReg r w s) = w := by
  cases r <;> simp_all [operandRegs, readReg, writeReg]

/-- A write of one operand register leaves what every other register reads as: each read looks at one field of `regs`. -/
theorem readReg_writeReg_operand_other {r r' : Reg} (hr : r ∈ operandRegs) (hne : r' ≠ r) (hs : r' ≠ .status) (w : Word)
    (s : State) : readReg r' (writeReg r w s) = readReg r' s := by
  simp only [operandRegs, List.mem_cons, List.not_mem_nil, or_false] at hr
  rcases hr with rfl | rfl | rfl | rfl | rfl <;> cases r' <;> first | rfl | contradiction

/-- While the engine is busy a host write leaves `regs` alone unless it is to an operand register or resets. -/
theorem writeReg_regs_of_busy {r : Reg} {w : Word} {s : State} (hb : s.eng.state = .busy)
    (hc : r = .ctrl → w.getLsbD 0 = false) (hr : r ∉ operandRegs) : (writeReg r w s).regs = s.regs := by
  cases r with
  | cmd => rw [writeReg, writeCmd_busy hb]
  | ctrl => rw [writeReg_ctrl_of_clear (hc rfl)]
  | status | resultLo | resultHi | reserved => rfl
  | _ => simp [operandRegs] at hr

/-- A write of an operand register changes `regs` only, and by what `regs` held. -/
theorem writeReg_operand_eq {r : Reg} (hr : r ∈ operandRegs) (w : Word) (s : State) :
    writeReg r w s = { s with regs := (writeReg r w s).regs } := by
  cases r <;> simp_all [operandRegs, writeReg]

theorem writeReg_operand_regs_congr {r : Reg} (hr : r ∈ operandRegs) (w : Word) {s t : State} (h : t.regs = s.regs) :
    (writeReg r w t).regs = (writeReg r w s).regs := by
  cases r <;> simp_all [operandRegs, writeReg]

/-- The offsets of the operand registers (R110). -/
def operandOffsets : List Nat := [0x0C, 0x10, 0x14, 0x18, 0x1C]

theorem regAt_ne_status : ∀ off ∈ operandOffsets, regAt off ≠ .status := by decide

theorem mem_windowOffsets_of_operand : ∀ off ∈ operandOffsets, off ∈ windowOffsets := by decide

theorem regAt_mem_operandRegs : ∀ off ∈ operandOffsets, regAt off ∈ operandRegs := by decide

/-- A store to an operand register's offset, on the host's turn. -/
theorem step_busWrite_operand {s : State} {rest : List HostAction} {off : Nat} {v : Word} (ht : HostsTurn s)
    (ho : off ∈ operandOffsets) (hq : s.host.queue = .busWrite (s.params.regBase + off) (leBytes v.toNat 4) :: rest) :
    step s = .next { s.onTurn rest with regs := (writeReg (regAt off) v s).regs } := by
  obtain ⟨hlt, halign⟩ := lt_and_aligned_of_mem_windowOffsets off (mem_windowOffsets_of_operand off ho)
  have hreg := regAt_mem_operandRegs off ho
  rw [step_busWrite_word ht hlt halign hq, writeReg_operand_eq hreg,
    writeReg_operand_regs_congr hreg v (s.onTurn_regs rest)]

/-- A load of an operand register that holds what a write of `v` puts there, on the host's turn. -/
theorem step_busRead_operand {s u : State} {rest : List HostAction} {off : Nat} {v : Word} (ht : HostsTurn s)
    (ho : off ∈ operandOffsets) (hregs : s.regs = (writeReg (regAt off) v u).regs)
    (hq : s.host.queue = .busRead (s.params.regBase + off) 4 :: rest) :
    step s = .next { s.cycled with host := { s.host with queue := rest, busData := leBytes v.toNat 4 } } := by
  obtain ⟨hlt, halign⟩ := lt_and_aligned_of_mem_windowOffsets off (mem_windowOffsets_of_operand off ho)
  have hread : readReg (regAt off) s = v := by
    rw [readReg_congr (regAt_ne_status off ho) hregs, readReg_writeReg_operand (regAt_mem_operandRegs off ho)]
  have hends : readEnds (regAt off) s = false := by simp [readEnds, regAt_ne_status off ho]
  simp only [step_busRead_word ht hlt halign hq, hread, hends, Bool.false_eq_true, if_false]

/-- A turn of the host that leaves a command in flight a cycle is followed by another turn of the host. -/
theorem hostsTurn_onTurn {s : State} (h : s.eng.state = .idle ∨ ∃ n, s.eng.progress = n + 2) (rest : List HostAction) :
    HostsTurn (s.onTurn rest) := by
  cases hs : s.eng.state with
  | idle => exact .inl ((s.onTurn_engState rest).trans hs)
  | busy =>
    obtain ⟨n, hn⟩ : ∃ n, s.eng.progress = n + 2 := by simpa [hs] using h
    exact .inr ⟨n, by rw [State.onTurn, State.cycled_busy_succ hs hn]⟩

theorem cycled_onTurn_regs (s : State) (rest : List HostAction) (r : Regs) :
    State.cycled { s.onTurn rest with regs := r } =
      { s.cycled.cycled with regs := r, host := { s.host with queue := rest } } := by
  cases hs : s.eng.state <;> simp [State.onTurn, State.cycled, hs]

/-! ### Runs -/

/-- A run whose first step takes a next state goes on from there. -/
theorem coreRun_succ {M : Host.Core} {s t : M.State} {k : Nat} (h : M.step s = .next t) :
    M.run (k + 1) s = M.run k t := by
  simp only [Host.Core.run, h]

theorem run_succ_of_step {s t : State} {k : Nat} (h : step s = .next t) :
    Sys2Proof.core.run (k + 1) s = Sys2Proof.core.run k t := coreRun_succ (M := Sys2Proof.core) h

/-! ### The invariant -/

/-- Reset makes the invariant hold whatever the state was. -/
theorem inv_resetBlock {s : State} (h : s.mem.wf = true) : Inv (resetBlock s) where
  mem_wf := by
    rw [resetBlock_mem]
    split
    · exact Memory.wf_scramble _ _ _ h
    · exact h
  busy_clear hb := by simp at hb
  warn_no_err _ := rfl
  err_done h := by simp at h
  err_no_result _ := ⟨rfl, rfl⟩
  cmd_in_flight hb := by simp at hb
  busy_owed hb := by simp at hb

/-- Acceptance makes the invariant hold: the flags are clear, the snapshot is that of CMD and its spans are owed. -/
theorem inv_accept {s : State} (h : s.mem.wf = true) (w : Word) (n k : Nat) :
    Inv { accept w n s with draws := k } where
  mem_wf := h
  busy_clear _ := ⟨rfl, rfl, rfl⟩
  warn_no_err _ := rfl
  err_done h := by simp at h
  err_no_result h := absurd rfl h
  cmd_in_flight _ := rfl
  busy_owed _ := List.mem_cons_self

theorem Inv.writeCmd {s : State} (h : Inv s) (w : Word) : Inv (writeCmd w s) := by
  cases hs : s.eng.state with
  | idle => rw [writeCmd_idle hs]; exact inv_accept h.mem_wf _ _ _
  | busy => rw [writeCmd_busy hs]; exact { h with }

theorem Inv.writeReg {s : State} (h : Inv s) (r : Reg) (w : Word) : Inv (writeReg r w s) := by
  cases r with
  | cmd => exact h.writeCmd w
  | ctrl =>
    unfold Machine.writeReg
    dsimp only
    split
    · exact inv_resetBlock h.mem_wf
    · exact h
  | resultLo | resultHi | reserved => exact h
  | _ => exact { h with }

/-- A load leaves the spans of a command in flight owed. -/
theorem Inv.busRead {s : State} (h : Inv s) (addr n : Nat) : Inv (busRead addr n s) := by
  have howed := (busRead_host addr n s).2
  rw [busRead_eq]
  exact { h with busy_owed := fun hb => by rw [howed hb]; exact h.busy_owed hb }

/-- Every host action that takes a next state keeps the invariant. -/
theorem Inv.hostAct {s t : State} {act : HostAction} (h : Inv s) (ht : hostAct act s = .next t) : Inv t := by
  rcases hostAct_next ht with rfl | rfl | ⟨r, w, rfl⟩ | ⟨addr, n, rfl⟩ | ⟨a, b, ha, -, rfl⟩ | ⟨a, rfl⟩
  · exact h
  · exact inv_resetBlock h.mem_wf
  · exact h.writeReg r w
  · exact h.busRead addr n
  · exact { h with mem_wf := Memory.wf_write b ha h.mem_wf }
  · exact { h with }

theorem Inv.hostTurn {s t : State} (h : Inv s) (ht : hostTurn s = .next t) : Inv t := by
  cases hq : s.host.queue with
  | nil => rw [hostTurn_nil hq] at ht; cases ht; exact h
  | cons act rest =>
    rw [hostTurn_cons hq] at ht
    exact Inv.hostAct (s := { s with host := { s.host with queue := rest } }) { h with } ht

/-- After a completion the invariant holds, whatever held before: an error is one without WARN and with RESULT 0. -/
theorem Completed.inv {s t : State} {code : ErrCode} {warn : Bool} {result : DWord}
    (h : Completed s t code warn result) (herr : code ≠ .ok → warn = false ∧ result = 0) (hm : t.mem.wf = true) :
    Inv t := by
  have hidle : t.busy = false := by simp [State.busy, h.eng]
  refine ⟨hm, by simp [hidle], ?_, ?_, ?_, by simp [hidle], by simp [hidle]⟩
  · rw [h.status]; intro hw; by_contra hne; simp_all
  · rw [h.status]; exact fun _ => rfl
  · rw [h.status, h.regs]; intro hne; obtain ⟨-, rfl⟩ := herr hne; exact ⟨rfl, rfl⟩

/-! ### Commands -/

/-- Only `DEC_IMAGE` gives the soft warning (R512). -/
theorem jobOf_warn {i : Instr} {s : State} (h : (jobOf i s).warn = true) : ∃ f, i = .decImage f := by
  cases i with
  | decImage f => exact ⟨f, rfl⟩
  | encImage f =>
    revert h
    simp only [jobOf, encodeImageJob]
    split <;> exact fun h => by cases h
  | _ => cases h

/-- Every command completes, from every state; it keeps the canonical form of the buffer memory. -/
theorem exec_completes (i : Instr) (s : State) :
    ∃ t code warn result, exec i s = .next t ∧ Completed s t code warn result ∧
      (code ≠ .ok → warn = false ∧ result = 0) ∧ (warn = true → ∃ f, i = .decImage f) ∧
      (s.mem.wf = true → t.mem.wf = true) := by
  rw [exec_eq_perform]
  rcases perform_cases i (jobOf i s) s with ⟨e, -, he⟩ | ⟨-, ha, he⟩ | ⟨-, -, he⟩
  · exact ⟨_, e, false, 0, he, raiseError_completed e s, fun _ => ⟨rfl, rfl⟩, by simp, id⟩
  · obtain ⟨-, hw⟩ := (Job.accessOk_iff _ _).mp ha
    exact ⟨_, .ok, _, _, he, jobDone_completed _ s, fun h => absurd rfl h, jobOf_warn,
      Memory.wf_writeAll fun w hm => writeOk_lt (hw w hm)⟩
  · exact ⟨_, .bus, false, 0, he, busFailed_completed i s, fun _ => ⟨rfl, rfl⟩, by simp, Memory.wf_scramble _ _ _⟩

theorem engineTurn_of_decode {s : State} {i : Instr} (h : decode s.eng.snap.cmd = some i) :
    engineTurn s = exec i s := by
  simp [engineTurn, h]

theorem engineTurn_of_illegal {s : State} (h : decode s.eng.snap.cmd = none) :
    engineTurn s = .next (raiseError .illegalOp s) := by
  simp [engineTurn, h]

theorem Inv.engineTurn {s t : State} (h : Inv s) (ht : engineTurn s = .next t) : Inv t := by
  cases hd : decode s.eng.snap.cmd with
  | none =>
    rw [engineTurn_of_illegal hd] at ht
    cases ht
    exact (raiseError_completed .illegalOp s).inv (fun _ => ⟨rfl, rfl⟩) h.mem_wf
  | some i =>
    rw [engineTurn_of_decode hd] at ht
    obtain ⟨u, code, warn, result, hu, hc, herr, -, hm⟩ := exec_completes i s
    rw [hu] at ht
    cases ht
    exact hc.inv herr (hm h.mem_wf)

/-! ### The snapshot of an idle engine -/

/-- `s` with another snapshot. -/
def State.withSnap (s : State) (sn : Snap) : State := { s with eng := { s.eng with snap := sn } }

theorem resetBlock_withSnap {s : State} (h : s.eng.state = .idle) (sn : Snap) :
    resetBlock (s.withSnap sn) = resetBlock s := by
  simp [resetBlock, State.busy, State.withSnap, h]

theorem writeCmd_withSnap {s : State} (h : s.eng.state = .idle) (w : Word) (sn : Snap) :
    writeCmd w (s.withSnap sn) = writeCmd w s := by
  rw [writeCmd_idle h, writeCmd_idle (s := s.withSnap sn) h]
  rfl

/-- A register write of the host ignores the snapshot: it overwrites it (CMD, a reset) or leaves it alone. -/
theorem writeReg_withSnap {s : State} (h : s.eng.state = .idle) (r : Reg) (w : Word) (sn : Snap) :
    writeReg r w (s.withSnap sn) = writeReg r w s ∨ writeReg r w (s.withSnap sn) = (writeReg r w s).withSnap sn := by
  cases r with
  | cmd => exact .inl (writeCmd_withSnap h w sn)
  | ctrl =>
    cases hw : w.getLsbD 0 with
    | true => left; simp only [writeReg, hw, if_true, resetBlock_withSnap h]
    | false => right; simp only [writeReg_ctrl_of_clear hw]
  | _ => exact .inr rfl

theorem busWrite_withSnap {s : State} (h : s.eng.state = .idle) (addr : Nat) (data : List Byte) (sn : Snap) :
    busWrite addr data (s.withSnap sn) = busWrite addr data s ∨
      busWrite addr data (s.withSnap sn) = (busWrite addr data s).withSnap sn := by
  unfold busWrite
  rw [show (s.withSnap sn).params = s.params from rfl]
  split
  · exact writeReg_withSnap h _ _ sn
  · exact .inr rfl

theorem readReg_withSnap (r : Reg) (s : State) (sn : Snap) : readReg r (s.withSnap sn) = readReg r s := by
  cases r <;> rfl

theorem busRead_withSnap (addr n : Nat) (s : State) (sn : Snap) :
    busRead addr n (s.withSnap sn) = (busRead addr n s).withSnap sn := by
  unfold busRead
  rw [show (s.withSnap sn).params = s.params from rfl]
  split
  · rw [readReg_withSnap]; rfl
  · split <;> rfl

/-- A host access to the buffer memory with another snapshot before it and in its effect. -/
theorem hostMemAccess_withSnap {a : Nat} {eff s t : State} (sn : Snap) (h : hostMemAccess a eff s = .next t) :
    hostMemAccess a (eff.withSnap sn) (s.withSnap sn) = .next (t.withSnap sn) := by
  rcases hostMemAccess_cases a eff s with ⟨-, e⟩ | ⟨-, -, e⟩ | ⟨ha, hh, e⟩ <;> rw [e] at h <;> cases h
  have hh' : spanHazardAt (s.withSnap sn) a = false := hh
  rw [hostMemAccess, if_neg (by omega), if_neg (by simp [hh'])]

/-- Every host action of an idle engine ignores the snapshot. -/
theorem hostAct_withSnap {s t : State} {act : HostAction} (hi : s.eng.state = .idle) (sn : Snap)
    (h : hostAct act s = .next t) :
    hostAct act (s.withSnap sn) = .next t ∨ hostAct act (s.withSnap sn) = .next (t.withSnap sn) := by
  cases act with
  | pause => cases h; exact .inr rfl
  | reset => cases h; exact .inl (congrArg Host.Outcome.next (resetBlock_withSnap hi sn))
  | busWrite addr data =>
    cases h
    exact (busWrite_withSnap hi addr data sn).imp (congrArg Host.Outcome.next) (congrArg Host.Outcome.next)
  | busRead addr n => cases h; exact .inr (congrArg Host.Outcome.next (busRead_withSnap addr n s sn))
  | memWrite a b => exact .inr (hostMemAccess_withSnap sn h)
  | memRead a => exact .inr (hostMemAccess_withSnap sn h)

end Sys2Proof.Machine
end

section
/-! The statements about one step, the registers, acceptance and the invariant, settled. -/

namespace Sys2Proof.Proofs

open Sys2Proof Sys2Proof.Machine

/-- Settles O8: the host's turn keeps the invariant action by action, and the engine's turn is a completion. -/
theorem stepKeepsInvariant : Obligations.StepKeepsInvariant := by
  intro s t h ht
  rcases step_cases s with ⟨-, hs⟩ | ⟨n, -, -, hs⟩ | ⟨-, -, hs⟩ <;> rw [hs] at ht
  · exact h.hostTurn ht
  · exact Inv.hostTurn (s := { s with eng := { s.eng with progress := n } }) { h with } ht
  · exact h.engineTurn ht

/-- Settles O9: each of the three endings of `perform` is a completion. -/
theorem everyCommandCompletes : Obligations.EveryCommandCompletes := by
  intro i s
  obtain ⟨t, code, warn, result, ht, hc, herr, hwarn, -⟩ := exec_completes i s
  exact ⟨t, code, warn, result, ht, hc, herr, hwarn⟩

/-- Settles O48: the window takes such a store for no register write, or for one that its register ignores. -/
theorem ineffectiveStoresChangeNothing : Obligations.IneffectiveStoresChangeNothing := by
  intro s rest off data ht hoff hq hwhy
  rw [step_busWrite ht hoff hq]
  split
  · next ha =>
    obtain ⟨hlen, halign⟩ := ha
    rcases hwhy with h | h | h | ⟨rfl, heven⟩
    · exact absurd hlen h
    · exact absurd halign h
    · rw [writeReg_regAt_of_le h]; rfl
    · exact congrArg _ (writeReg_ctrl_of_clear (getLsbD_zero_ofNat_of_even heven) _)
  · rfl

/-- Settles O60: an idle engine's step is the host's turn, and no host action reads the snapshot. -/
theorem snapshotUnreadWhileIdle : Obligations.SnapshotUnreadWhileIdle := by
  intro s t sn hi h
  rw [step_idle hi] at h
  rw [step_idle (s := { s with eng := { s.eng with snap := sn } }) hi]
  cases hq : s.host.queue with
  | nil =>
    rw [hostTurn_nil hq] at h
    cases h
    exact ⟨_, hostTurn_nil hq, .inr rfl⟩
  | cons act rest =>
    rw [hostTurn_cons hq] at h
    rw [hostTurn_cons (s := { s with eng := { s.eng with snap := sn } }) hq]
    rcases hostAct_withSnap (s := { s with host := { s.host with queue := rest } }) hi sn h with h' | h'
    · exact ⟨t, h', .inl rfl⟩
    · exact ⟨_, h', .inr rfl⟩

/-- Settles O6: a word placed by `withFetchWord` is in flight with no cycle left, the case of the engine's turn. -/
theorem stepRunsDecodedCommand : Obligations.StepRunsDecodedCommand := by
  have hrun : ∀ (s : State) (i : Instr), s.eng.state = .busy → s.eng.progress = 0 → decode s.eng.snap.cmd = some i →
      step s = exec i s := fun s i hb hp hd => by rw [step_busy_zero hb hp, engineTurn_of_decode hd]
  exact ⟨hrun, fun _ _ hb hp => step_busy_succ hb hp, fun _ hi => step_idle hi, fun _ _ i hd => hrun _ i rfl rfl hd⟩

/-- Settles O46: the fields from the bits of STATUS one by one. -/
theorem statusWordFields : Obligations.StatusWordFields := by
  intro s w
  obtain ⟨hres, herr, htop⟩ := s.statusWord_fields
  refine ⟨?_, ?_, ?_, ?_, hres, herr, htop, statusWord_writeReg_status w s⟩ <;> rw [State.statusWord_getLsbD] <;> simp

/-- Settles O47: the table lists what `writeReg` does at each offset of the map. -/
theorem alignedStoreWritesItsRegister : Obligations.AlignedStoreWritesItsRegister := by
  intro s rest off v t ht hq s' hmem
  have htable : (off, t) ∈ windowOffsets.map fun o => (o, writeReg (regAt o) v (s.onTurn rest)) := by
    simpa [windowOffsets, regAt, writeReg, Status.hostWrite, State.onTurn, s'] using hmem
  obtain ⟨o, ho, heq⟩ := List.mem_map.mp htable
  cases heq
  obtain ⟨hlt, halign⟩ := lt_and_aligned_of_mem_windowOffsets off ho
  exact step_busWrite_word ht hlt halign hq

/-- Settles O49: two turns of the host, a store to the register and a load of what it then holds. -/
theorem operandRegistersReadAsWritten : Obligations.OperandRegistersReadAsWritten := by
  intro s rest off v regs ht hmem hq
  have htable : (off, regs) ∈ operandOffsets.map fun o => (o, (writeReg (regAt o) v s).regs) := hmem
  obtain ⟨o, ho, heq⟩ := List.mem_map.mp htable
  cases heq
  have hstore := step_busWrite_operand (ht.imp_right fun ⟨n, hn⟩ => ⟨n + 1, hn⟩) ho hq
  have hload := step_busRead_operand (rest := rest)
    (s := { s.onTurn (.busRead (s.params.regBase + off) 4 :: rest) with regs := (writeReg (regAt off) v s).regs })
    (hostsTurn_onTurn ht (.busRead (s.params.regBase + off) 4 :: rest)) ho rfl (by simp)
  rw [run_succ_of_step hstore, run_succ_of_step hload, cycled_onTurn_regs]
  rfl

/-- Settles O50: the table lists what `readReg` gives at each offset of the map. -/
theorem windowLoadsGiveTheRegisters : Obligations.WindowLoadsGiveTheRegisters := by
  constructor
  · intro s rest off v ht hq hmem
    have htable : (off, v) ∈ windowOffsets.map fun o => (o, readReg (regAt o) s) := hmem
    obtain ⟨o, ho, heq⟩ := List.mem_map.mp htable
    cases heq
    obtain ⟨hlt, halign⟩ := lt_and_aligned_of_mem_windowOffsets off ho
    simp only [step_busRead_word ht hlt halign hq, readEnds_regAt]
  · intro s rest off n ht hoff hq hwhy
    by_cases ha : n = 4 ∧ off % 4 = 0
    · obtain ⟨rfl, halign⟩ := ha
      have hzero : readReg (regAt off) s = 0 := by
        rcases hwhy with h | h | rfl | h
        · exact absurd rfl h
        · exact absurd halign h
        · rfl
        · exact readReg_regAt_of_le h s
      have hends : ¬(off = 0x04 ∧ s.busy = false) := by omega
      simp only [step_busRead_word ht hoff halign hq, readEnds_regAt, hzero, if_neg hends]
      rfl
    · rw [step_hostAct ht hq, hostAct, ← s.onTurn_params rest, busRead_undefined _ hoff ha]
      rfl

/-- Settles O51: the store writes CMD, which an idle engine accepts. -/
theorem idleCommandIsAccepted : Obligations.IdleCommandIsAccepted := by
  intro s rest w hi hq
  have hstep : step s = .next (writeCmd w (s.onTurn rest)) := step_busWrite_word (off := 0) (.inl hi) (by decide) rfl hq
  rw [writeCmd_idle (s.onTurn_engState rest |>.trans hi)] at hstep
  exact ⟨_, hstep, by simp, by simp [Regs.snapshot, dimsWidth, dimsHeight], rfl, by simp [Status.accepted], by simp,
    by simp⟩

/-- Settles O52: the store writes CMD, which a busy engine drops. -/
theorem busyCommandIsDropped : Obligations.BusyCommandIsDropped := by
  intro s rest w n hb hp hq
  have hstep : step s = .next (writeCmd w (s.onTurn rest)) :=
    step_busWrite_word (off := 0) (.inr ⟨n, hp⟩) (by decide) rfl hq
  rw [writeCmd_busy (s.onTurn_engState rest |>.trans hb), State.onTurn, State.cycled_busy_succ hb hp] at hstep
  exact ⟨_, hstep, rfl, rfl, rfl, rfl, rfl, rfl, rfl⟩

/-- Settles O53: only a write of an operand register changes `regs`, and of it one field. -/
theorem busyRegisterWritesLeaveTheSnapshot : Obligations.BusyRegisterWritesLeaveTheSnapshot := by
  intro s r w hb hc
  obtain ⟨heng, hmem⟩ := writeReg_eng_mem_of_busy hb hc
  refine ⟨heng, hmem, fun hr => readReg_writeReg_operand hr w s, fun r' hne hs => ?_⟩
  by_cases hr : r ∈ operandRegs
  · exact readReg_writeReg_operand_other hr hne hs w s
  · exact readReg_congr hs (writeReg_regs_of_busy hb hc hr)

end Sys2Proof.Proofs
end

section
/-! SUPPORT. The accesses of a command: the bytes its job reads and writes, that what it writes depends on the bytes it
reads, and what the two endings with and without `ERR_BUS` leave in the buffer memory. -/

namespace Sys2Proof.Machine

open Sys2Proof

/-! ### The bytes a command reads and writes -/

/-- Command `i` reads the byte at `a`: the bytes of a tile's rows, the pixels of `MIP_DOWN`'s footprints, every byte of
any other source span (R214, R550). -/
def readsByte (i : Instr) (sn : Snap) (a : Nat) : Prop :=
  match i with
  | .encDxt1Tile | .encDxt5Tile => ∃ y, y < 4 ∧ inTileRow sn.src.toNat sn.spitch.toNat y a
  | .mipDown =>
    ∃ x y, x < sn.width.toNat ∧ y < sn.height.toNat ∧ x / 2 < halved sn.width.toNat ∧ y / 2 < halved sn.height.toNat ∧
      a ∈ addrs (imageAddr sn.src.toNat 4 sn.width.toNat x y) 4
  | .decDxt1Tile _ | .decDxt3Tile | .decDxt5Tile | .encImage _ | .decImage _ | .size _ =>
    a ∈ addrs sn.src.toNat (spansOf i sn).slen

/-- Command `i` writes the byte at `a`: the bytes of a tile's rows, every byte of any other destination span (R214). -/
def writesByte (i : Instr) (sn : Snap) (a : Nat) : Prop :=
  match i with
  | .decDxt1Tile _ | .decDxt3Tile | .decDxt5Tile => ∃ y, y < 4 ∧ inTileRow sn.dst.toNat sn.dpitch.toNat y a
  | .encDxt1Tile | .encDxt5Tile | .encImage _ | .decImage _ | .mipDown | .size _ =>
    a ∈ addrs sn.dst.toNat (spansOf i sn).dlen

/-- The rows of a tile lie in its span. -/
theorem inTileRow_mem_addrs {base pitch y a : Nat} (hy : y < 4) (h : inTileRow base pitch y a) :
    a ∈ addrs base (3 * pitch + 16) := by
  obtain ⟨hlo, hhi⟩ := h
  have : y * pitch ≤ 3 * pitch := Nat.mul_le_mul_right pitch (by omega)
  exact mem_addrs.mpr ⟨by omega, by omega⟩

/-- A byte of an image's pixel lies in the image. -/
theorem imageAddr_mem_addrs {base n w h x y a : Nat} (hx : x < w) (hy : y < h) (ha : a ∈ addrs (imageAddr base n w x y) n) :
    a ∈ addrs base (n * (w * h)) := by
  rw [mem_addrs, imageAddr] at ha
  have := cell_lt (n := n) (k := a - (base + n * (y * w + x))) (grid_lt hx hy) (by omega)
  exact mem_addrs.mpr ⟨by omega, by omega⟩

/-- Every byte of a packed image belongs to one of its items (R327). -/
theorem exists_imageAddr {base n w h a : Nat} (ha : a ∈ addrs base (n * (w * h))) :
    ∃ x y, x < w ∧ y < h ∧ a ∈ addrs (imageAddr base n w x y) n := by
  obtain ⟨hlo, hhi⟩ := mem_addrs.mp ha
  have hpos : 0 < n * (w * h) := by omega
  have hn : 0 < n := Nat.pos_of_mul_pos_right hpos
  have hw : 0 < w := Nat.pos_of_mul_pos_right (Nat.pos_of_mul_pos_left hpos)
  have hc : (a - base) / n < w * h := Nat.div_lt_of_lt_mul (by omega)
  refine ⟨(a - base) / n % w, (a - base) / n / w, Nat.mod_lt _ hw, Nat.div_lt_of_lt_mul hc, ?_⟩
  have hcell : (a - base) / n / w * w + (a - base) / n % w = (a - base) / n := Nat.div_add_mod' _ w
  have hbyte : n * ((a - base) / n) + (a - base) % n = a - base := Nat.div_add_mod _ n
  have := Nat.mod_lt (a - base) hn
  rw [imageAddr, hcell, mem_addrs]
  omega

/-- The bytes of a packed image, item by item. -/
theorem mem_gridList_imageAddr {base n w h a : Nat} :
    a ∈ gridList w h (fun x y => addrs (imageAddr base n w x y) n) ↔ a ∈ addrs base (n * (w * h)) := by
  rw [mem_gridList]
  exact ⟨fun ⟨_, _, hx, hy, ha⟩ => imageAddr_mem_addrs hx hy ha, exists_imageAddr⟩

/-- A walk over the 4×4 blocks of an image that touches the bytes of each image pixel, and outside the image nothing
but bytes of the image, touches exactly the bytes of the image. -/
theorem mem_blocksOfImage {base w h a : Nat} {f : Nat → Nat → List Nat}
    (hin : ∀ x y, x < w → y < h → f x y = addrs (imageAddr base 4 w x y) 4)
    (hout : ∀ x y, a ∈ f x y → a ∈ addrs base (4 * (w * h))) :
    a ∈ gridList (ceilDiv w 4) (ceilDiv h 4) (fun bx by' => gridList 4 4 fun x y => f (4 * bx + x) (4 * by' + y)) ↔
      a ∈ addrs base (4 * (w * h)) := by
  simp only [mem_gridList, ceilDiv_four]
  constructor
  · rintro ⟨bx, by', -, -, x, y, -, -, ha⟩
    exact hout _ _ ha
  · intro ha
    obtain ⟨x, y, hx, hy, ha⟩ := exists_imageAddr ha
    refine ⟨x / 4, y / 4, by omega, by omega, x % 4, y % 4, by omega, by omega, ?_⟩
    rwa [Nat.div_add_mod, Nat.div_add_mod, hin x y hx hy]

theorem mem_tileReads_iff_row {base pitch a : Nat} :
    a ∈ tileReads base pitch ↔ ∃ y, y < 4 ∧ inTileRow base pitch y a := by
  rw [mem_tileReads]
  constructor
  · rintro ⟨y, j, hy, hj, rfl⟩
    exact ⟨y, hy, by omega, by omega⟩
  · rintro ⟨y, hy, hlo, hhi⟩
    exact ⟨y, a - (base + y * pitch), hy, by omega, by omega⟩

/-- The edge pixels of an image's blocks are read inside the image (R515). -/
theorem mem_addrs_of_mem_edgeReads {fill : Config.EdgeFill} {src w h x y a : Nat} (hw : w ≠ 0) (hh : h ≠ 0)
    (ha : a ∈ edgeReads fill src w h x y) : a ∈ addrs src (4 * (w * h)) := by
  cases fill with
  | clamp => exact imageAddr_mem_addrs (by unfold clampCoord; omega) (by unfold clampCoord; omega) ha
  | zero =>
    rw [edgeReads] at ha
    split at ha
    · cases ha
    · exact imageAddr_mem_addrs (by omega) (by omega) ha

theorem edgeReads_inside {fill : Config.EdgeFill} {src w h x y : Nat} (hx : x < w) (hy : y < h) :
    edgeReads fill src w h x y = addrs (imageAddr src 4 w x y) 4 := by
  cases fill with
  | clamp => rw [edgeReads, clampCoord, clampCoord, min_eq_left (by omega), min_eq_left (by omega)]
  | zero => rw [edgeReads, if_neg (by omega)]

theorem mem_footprint {x sx size : Nat} : sx ∈ footprint x size ↔ sx / 2 = x ∧ sx < size := by
  simp only [footprint, List.mem_filter, List.mem_cons, List.not_mem_nil, or_false, decide_eq_true_eq]
  omega

/-! ### The addresses of byte writes -/

@[simp] theorem map_fst_storeBytes (a : Nat) (bs : List Byte) : (storeBytes a bs).map Prod.fst = addrs a bs.length :=
  List.map_fst_zip (by simp)

theorem map_gridList {α β : Type} (g : α → β) (w h : Nat) (f : Nat → Nat → List α) :
    (gridList w h f).map g = gridList w h fun x y => (f x y).map g := by
  simp only [gridList, List.map_flatMap]

@[simp] theorem map_fst_putPixel (dst w x y : Nat) (q : Pixel) :
    (putPixel dst w x y q).map Prod.fst = addrs (imageAddr dst 4 w x y) 4 := map_fst_storeBytes _ _

theorem map_fst_tileWrites (dst pitch : Nat) (t : Tile) : (tileWrites dst pitch t).map Prod.fst = tileReads dst pitch := by
  simp [tileWrites, tileReads, map_gridList]

/-- The clipped writes of an image's blocks hit exactly the bytes of the image (R514). -/
theorem mem_map_fst_blockWrites {dst w h a : Nat} {t : Nat → Nat → Tile} :
    a ∈ (gridList (ceilDiv w 4) (ceilDiv h 4) fun bx by' => blockWrites dst w h bx by' (t bx by')).map Prod.fst ↔
      a ∈ addrs dst (4 * (w * h)) := by
  simp only [map_gridList, blockWrites, apply_ite (List.map Prod.fst), map_fst_putPixel, List.map_nil]
  refine mem_blocksOfImage (f := fun x y => if x < w ∧ y < h then addrs (imageAddr dst 4 w x y) 4 else [])
    (fun x y hx hy => if_pos ⟨hx, hy⟩) fun x y ha => ?_
  split at ha
  · next hxy => exact imageAddr_mem_addrs hxy.1 hxy.2 ha
  · cases ha

/-! ### The shapes of the image jobs -/

theorem blockEncoder_length {src : Config.PaletteSource} {f : Format} {enc : Tile → List Byte} {bs : Nat}
    (he : blockEncoder src f = some enc) (hb : Format.bsize f = some bs) (t : Tile) : (enc t).length = bs := by
  cases f <;> cases he <;> cases hb
  · exact compressDXT1_length src t
  · exact compressDXT5_length src t

theorem blockEncoder_congr {src : Config.PaletteSource} {f : Format} {enc : Tile → List Byte}
    (he : blockEncoder src f = some enc) {t u : Tile} (h : ∀ i, i < 16 → t i = u i) : enc t = enc u := by
  cases f <;> cases he
  · exact compressDXT1_congr h
  · exact compressDXT5_congr h

/-- A format `ENC_IMAGE` takes is a block format with an encoder or a pixel format of `ENC_SET` (R511). -/
theorem encodable_cases {f : Format} (h : Format.encodable f = true) (src : Config.PaletteSource) :
    (∃ enc bs, blockEncoder src f = some enc ∧ Format.bsize f = some bs) ∨
      (blockEncoder src f = none ∧
        ∃ n, Format.bpp f = some n ∧ ∀ q, ((encodePixel f q).getD []).length = n) := by
  cases f with
  | dxt1 | dxt5 => exact .inl ⟨_, _, rfl, rfl⟩
  | rgba8888 | rgb888 | bgr888 | bgra8888 => exact .inr ⟨rfl, _, rfl, fun _ => rfl⟩
  | _ => cases h

/-- A format is a block format with a decoder, a pixel format of `DEC_SET`, or not decodable (R510). -/
theorem decodable_cases (f : Format) :
    (∃ dec bs, Format.decodable f = true ∧ blockDecoder f = some dec ∧ Format.bsize f = some bs) ∨
      (∃ n, Format.decodable f = true ∧ blockDecoder f = none ∧ Format.bpp f = some n) ∨
        (Format.decodable f = false ∧ blockDecoder f = none) := by
  cases f with
  | dxt1 | dxt3 | dxt5 | dxt1OneBitAlpha => exact .inl ⟨_, _, rfl, rfl, rfl⟩
  | rgba8888 | abgr8888 | rgb888 | bgr888 | i8 | ia88 | a8 | argb8888 | bgra8888 | bgrx8888 =>
    exact .inr (.inl ⟨_, rfl, rfl, rfl⟩)
  | _ => exact .inr (.inr ⟨rfl, rfl⟩)

section ImageJobs
variable {f : Format} {s : State} {a : Nat}

theorem mem_reads_encodeImageJob (hf : Format.encodable f = true) (hw : s.eng.snap.width.toNat ≠ 0)
    (hh : s.eng.snap.height.toNat ≠ 0) :
    a ∈ (encodeImageJob f s).reads ↔
      a ∈ addrs s.eng.snap.src.toNat (4 * (s.eng.snap.width.toNat * s.eng.snap.height.toNat)) := by
  rcases encodable_cases hf s.params.paletteSource with ⟨enc, bs, he, hb⟩ | ⟨he, n, hn, -⟩
  · simp only [encodeImageJob, he, hb, encodeBlockImage]
    exact mem_blocksOfImage (fun _ _ => edgeReads_inside) fun _ _ => mem_addrs_of_mem_edgeReads hw hh
  · simp only [encodeImageJob, he, encodePixelImage]
    exact mem_gridList_imageAddr

theorem mem_writes_encodeImageJob (hf : Format.encodable f = true) (hw : s.eng.snap.width.toNat ≠ 0)
    (hh : s.eng.snap.height.toNat ≠ 0) :
    a ∈ (encodeImageJob f s).writes.map Prod.fst ↔
      a ∈ addrs s.eng.snap.dst.toNat (imageBytes s.eng.snap.width.toNat s.eng.snap.height.toNat f) := by
  rcases encodable_cases hf s.params.paletteSource with ⟨enc, bs, he, hb⟩ | ⟨he, n, hn, hlen⟩
  · simp only [encodeImageJob, he, hb, encodeBlockImage, map_gridList, map_fst_storeBytes, blockEncoder_length he hb,
      imageBytes_of_bsize hw hh hb, ← ceilDiv_four]
    exact mem_gridList_imageAddr
  · simp only [encodeImageJob, he, hn, encodePixelImage, map_gridList, map_fst_storeBytes, Option.getD_some, hlen,
      imageBytes_of_bpp hw hh hn]
    exact mem_gridList_imageAddr

theorem mem_reads_decodeImageJob (hw : s.eng.snap.width.toNat ≠ 0) (hh : s.eng.snap.height.toNat ≠ 0) :
    a ∈ (decodeImageJob f s).reads ↔
      a ∈ addrs s.eng.snap.src.toNat
        (if Format.decodable f then imageBytes s.eng.snap.width.toNat s.eng.snap.height.toNat f else 0) := by
  rcases decodable_cases f with ⟨dec, bs, hf, hd, hb⟩ | ⟨n, hf, hd, hn⟩ | ⟨hf, hd⟩
  · simp only [decodeImageJob, hd, hb, hf, if_true, decodeBlockImage, imageBytes_of_bsize hw hh hb, ← ceilDiv_four]
    exact mem_gridList_imageAddr
  · simp only [decodeImageJob, hd, hn, hf, if_true, decodePixelImage, imageBytes_of_bpp hw hh hn]
    exact mem_gridList_imageAddr
  · simp [decodeImageJob, hd, hf, fillImage]

theorem mem_writes_decodeImageJob :
    a ∈ (decodeImageJob f s).writes.map Prod.fst ↔
      a ∈ addrs s.eng.snap.dst.toNat (4 * (s.eng.snap.width.toNat * s.eng.snap.height.toNat)) := by
  rcases decodable_cases f with ⟨dec, bs, hf, hd, hb⟩ | ⟨n, hf, hd, hn⟩ | ⟨hf, hd⟩
  · simp only [decodeImageJob, hd, hb, decodeBlockImage]
    exact mem_map_fst_blockWrites
  · simp only [decodeImageJob, hd, hn, hf, decodePixelImage, map_gridList, map_fst_putPixel]
    exact mem_gridList_imageAddr
  · simp only [decodeImageJob, hd, hf, fillImage, map_gridList, map_fst_putPixel]
    exact mem_gridList_imageAddr

end ImageJobs

theorem mem_reads_mipDownJob {s : State} {a : Nat} : a ∈ (mipDownJob s).reads ↔ readsByte .mipDown s.eng.snap a := by
  simp only [mipDownJob, readsByte, mem_gridList, List.mem_flatMap, mem_footprint]
  constructor
  · rintro ⟨_, _, hx, hy, sy, ⟨rfl, hsy⟩, sx, ⟨rfl, hsx⟩, ha⟩
    exact ⟨sx, sy, hsx, hsy, hx, hy, ha⟩
  · rintro ⟨sx, sy, hsx, hsy, hx, hy, ha⟩
    exact ⟨_, _, hx, hy, sy, ⟨rfl, hsy⟩, sx, ⟨rfl, hsx⟩, ha⟩

theorem mem_writes_mipDownJob {s : State} {a : Nat} :
    a ∈ (mipDownJob s).writes.map Prod.fst ↔
      a ∈ addrs s.eng.snap.dst.toNat (4 * (halved s.eng.snap.width.toNat * halved s.eng.snap.height.toNat)) := by
  simp only [mipDownJob, map_gridList, map_fst_storeBytes, Pixel.bytes_length]
  exact mem_gridList_imageAddr

/-! ### The accesses of a command whose checks pass -/

theorem encodable_of_check {f : Format} {sn : Snap} (hc : check (.encImage f) sn = none) : Format.encodable f = true := by
  obtain ⟨-, hf, -⟩ := (check_eq_none_iff _ _).mp hc
  simpa [formatFail] using hf

theorem pos_of_check {i : Instr} {sn : Snap} (hi : i = .mipDown ∨ ∃ f, i = .encImage f ∨ i = .decImage f)
    (hc : check i sn = none) : sn.width.toNat ≠ 0 ∧ sn.height.toNat ≠ 0 :=
  pos_of_dimsFail hi ((check_eq_none_iff _ _).mp hc).1

/-- The job of a command reads exactly the bytes the command reads. -/
theorem mem_reads_jobOf {i : Instr} {s : State} (hc : check i s.eng.snap = none) {a : Nat} :
    a ∈ (jobOf i s).reads ↔ readsByte i s.eng.snap a := by
  cases i with
  | encDxt1Tile | encDxt5Tile => exact mem_tileReads_iff_row
  | decDxt1Tile | decDxt3Tile | decDxt5Tile => exact Iff.rfl
  | encImage f =>
    obtain ⟨hw, hh⟩ := pos_of_check (.inr ⟨f, .inl rfl⟩) hc
    refine (mem_reads_encodeImageJob (encodable_of_check hc) hw hh).trans ?_
    rw [mul_comm 4]
    rfl
  | decImage f =>
    obtain ⟨hw, hh⟩ := pos_of_check (.inr ⟨f, .inr rfl⟩) hc
    exact mem_reads_decodeImageJob hw hh
  | mipDown => exact mem_reads_mipDownJob
  | size f => exact Iff.rfl

/-- The job of a command writes exactly the bytes the command writes. -/
theorem mem_writes_jobOf {i : Instr} {s : State} (hc : check i s.eng.snap = none) {a : Nat} :
    a ∈ (jobOf i s).writes.map Prod.fst ↔ writesByte i s.eng.snap a := by
  cases i with
  | encDxt1Tile | encDxt5Tile => simp [jobOf, tileEncodeJob, storeJob, writesByte, spanLengths]
  | decDxt1Tile | decDxt3Tile | decDxt5Tile =>
    simp only [jobOf, tileDecodeJob, map_fst_tileWrites]
    exact mem_tileReads_iff_row
  | encImage f =>
    obtain ⟨hw, hh⟩ := pos_of_check (.inr ⟨f, .inl rfl⟩) hc
    exact mem_writes_encodeImageJob (encodable_of_check hc) hw hh
  | decImage f =>
    refine mem_writes_decodeImageJob.trans ?_
    rw [mul_comm 4]
    rfl
  | mipDown =>
    refine mem_writes_mipDownJob.trans ?_
    rw [mul_comm 4]
    rfl
  | size f => exact Iff.rfl

/-- The bytes a command reads lie in its source span (R214). -/
theorem inSrc_of_readsByte {i : Instr} {sn : Snap} {a : Nat} (h : readsByte i sn a) : (spansOf i sn).inSrc a = true := by
  refine (Spans.inSrc_iff _ _).mpr (mem_addrs.mp ?_)
  cases i with
  | encDxt1Tile | encDxt5Tile =>
    obtain ⟨y, hy, hrow⟩ := h
    exact inTileRow_mem_addrs hy hrow
  | mipDown =>
    obtain ⟨x, y, hx, hy, -, -, ha⟩ := h
    have := imageAddr_mem_addrs hx hy ha
    rwa [mul_comm 4] at this
  | _ => exact h

/-- The bytes a command writes lie in its destination span (R214). -/
theorem inDst_of_writesByte {i : Instr} {sn : Snap} {a : Nat} (h : writesByte i sn a) :
    (spansOf i sn).inDst a = true := by
  refine (Spans.inDst_iff _ _).mpr (mem_addrs.mp ?_)
  cases i with
  | decDxt1Tile | decDxt3Tile | decDxt5Tile =>
    obtain ⟨y, hy, hrow⟩ := h
    exact inTileRow_mem_addrs hy hrow
  | _ => exact h

/-! ### `MEM_OK` over the accesses of a command -/

theorem readsAccepted_iff (p : Config.Params) (i : Instr) (sn : Snap) :
    ReadsAccepted p i sn ↔ ∀ a, readsByte i sn a → readOk p a = true := by
  cases i with
  | encDxt1Tile | encDxt5Tile =>
    constructor
    · rintro h a ⟨y, hy, hrow⟩
      exact canRead_iff.mp (h y hy) a (mem_addrs.mpr hrow)
    · intro h y hy
      exact canRead_iff.mpr fun a ha => h a ⟨y, hy, mem_addrs.mp ha⟩
  | mipDown =>
    constructor
    · rintro h a ⟨x, y, hx, hy, hx2, hy2, ha⟩
      exact canRead_iff.mp (h x y hx hy hx2 hy2) a ha
    · intro h x y hx hy hx2 hy2
      exact canRead_iff.mpr fun a ha => h a ⟨x, y, hx, hy, hx2, hy2, ha⟩
  | _ => exact canRead_iff

theorem writesAccepted_iff (p : Config.Params) (i : Instr) (sn : Snap) :
    WritesAccepted p i sn ↔ ∀ a, writesByte i sn a → writeOk p a = true := by
  cases i with
  | decDxt1Tile | decDxt3Tile | decDxt5Tile =>
    constructor
    · rintro h a ⟨y, hy, hrow⟩
      exact canWrite_iff.mp (h y hy) a (mem_addrs.mpr hrow)
    · intro h y hy
      exact canWrite_iff.mpr fun a ha => h a ⟨y, hy, mem_addrs.mp ha⟩
  | _ => exact canWrite_iff

/-- `MEM_OK` accepts the accesses of a command's job exactly when it accepts those of the command (R216). -/
theorem accessOk_jobOf_iff {i : Instr} {s : State} (hc : check i s.eng.snap = none) :
    (jobOf i s).accessOk s.params = true ↔
      ReadsAccepted s.params i s.eng.snap ∧ WritesAccepted s.params i s.eng.snap := by
  simp only [Job.accessOk_iff, readsAccepted_iff, writesAccepted_iff, ← mem_reads_jobOf hc, ← mem_writes_jobOf hc,
    List.forall_mem_map]

/-- `SIZE` makes no access. -/
theorem accepted_size (p : Config.Params) (f : Format) (sn : Snap) :
    ReadsAccepted p (.size f) sn ∧ WritesAccepted p (.size f) sn :=
  ⟨fun _ hk => absurd hk (Nat.not_lt_zero _), fun _ hk => absurd hk (Nat.not_lt_zero _)⟩

/-! ### A job depends on the bytes it reads -/

section Congr
variable {m m' : Memory}

theorem readTile_congr {src pitch : Nat} (h : ∀ a ∈ tileReads src pitch, m'.read a = m.read a) {i : Nat} (hi : i < 16) :
    readTile m' src pitch i = readTile m src pitch i :=
  readPixel_congr fun a ha => h a (mem_gridList.mpr ⟨i % 4, i / 4, by omega, by omega, ha⟩)

theorem edgePixel_congr {fill : Config.EdgeFill} {src w h x y : Nat}
    (hm : ∀ a ∈ edgeReads fill src w h x y, m'.read a = m.read a) :
    edgePixel fill m' src w h x y = edgePixel fill m src w h x y := by
  cases fill with
  | clamp => exact readPixel_congr hm
  | zero =>
    simp only [edgePixel]
    split
    · rfl
    · next hxy =>
      rw [edgeReads, if_neg hxy] at hm
      exact readPixel_congr hm

theorem footprintPixels_congr {src w h x y : Nat}
    (hm : ∀ sy ∈ footprint y h, ∀ sx ∈ footprint x w, ∀ a ∈ addrs (imageAddr src 4 w sx sy) 4, m'.read a = m.read a) :
    footprintPixels m' src w h x y = footprintPixels m src w h x y :=
  List.flatMap_congr fun sy hsy => List.map_congr_left fun sx hsx => readPixel_congr (hm sy hsy sx hsx)

theorem encodeBlockImage_congr {fill : Config.EdgeFill} {src dst w h bs size : Nat} {enc : Tile → List Byte}
    (henc : ∀ t u : Tile, (∀ i, i < 16 → t i = u i) → enc t = enc u)
    (hm : ∀ a ∈ (encodeBlockImage fill m src dst w h bs size enc).reads, m'.read a = m.read a) :
    encodeBlockImage fill m' src dst w h bs size enc = encodeBlockImage fill m src dst w h bs size enc := by
  simp only [encodeBlockImage, mem_gridList] at hm ⊢
  congr 1
  refine gridList_congr fun bx by' hbx hby => congrArg _ (henc _ _ fun i hi => edgePixel_congr fun a ha => hm a ?_)
  exact ⟨bx, by', hbx, hby, i % 4, i / 4, by omega, by omega, ha⟩

theorem encodePixelImage_congr {src dst w h n size : Nat} {f : Format}
    (hm : ∀ a ∈ (encodePixelImage m src dst w h n size f).reads, m'.read a = m.read a) :
    encodePixelImage m' src dst w h n size f = encodePixelImage m src dst w h n size f := by
  simp only [encodePixelImage, mem_gridList] at hm ⊢
  congr 1
  refine gridList_congr fun x y hx hy => ?_
  rw [readPixel_congr fun a ha => hm a ⟨x, y, hx, hy, ha⟩]

theorem decodeBlockImage_congr {src dst w h bs : Nat} {dec : List Byte → Tile}
    (hm : ∀ a ∈ (decodeBlockImage m src dst w h bs dec).reads, m'.read a = m.read a) :
    decodeBlockImage m' src dst w h bs dec = decodeBlockImage m src dst w h bs dec := by
  simp only [decodeBlockImage, mem_gridList] at hm ⊢
  congr 1
  refine gridList_congr fun bx by' hbx hby => ?_
  rw [Memory.bytes_congr fun a ha => hm a ⟨bx, by', hbx, hby, ha⟩]

theorem decodePixelImage_congr {src dst w h n : Nat} {f : Format}
    (hm : ∀ a ∈ (decodePixelImage m src dst w h n f).reads, m'.read a = m.read a) :
    decodePixelImage m' src dst w h n f = decodePixelImage m src dst w h n f := by
  simp only [decodePixelImage, mem_gridList] at hm ⊢
  congr 1
  refine gridList_congr fun x y hx hy => ?_
  rw [Memory.bytes_congr fun a ha => hm a ⟨x, y, hx, hy, ha⟩]

end Congr

section WithMem
variable {s : State} {m : Memory}

theorem tileEncodeJob_withMem {enc : Tile → List Byte} (henc : ∀ t u : Tile, (∀ i, i < 16 → t i = u i) → enc t = enc u)
    (h : ∀ a ∈ (tileEncodeJob enc s).reads, m.read a = s.mem.read a) :
    tileEncodeJob enc { s with mem := m } = tileEncodeJob enc s :=
  congrArg (storeJob _ _) (henc _ _ fun _ hi => readTile_congr h hi)

theorem tileDecodeJob_withMem {n : Nat} {dec : List Byte → Tile}
    (h : ∀ a ∈ (tileDecodeJob n dec s).reads, m.read a = s.mem.read a) :
    tileDecodeJob n dec { s with mem := m } = tileDecodeJob n dec s := by
  simp only [tileDecodeJob] at h ⊢
  rw [Memory.bytes_congr h]

theorem encodeImageJob_withMem {f : Format} (h : ∀ a ∈ (encodeImageJob f s).reads, m.read a = s.mem.read a) :
    encodeImageJob f { s with mem := m } = encodeImageJob f s := by
  unfold encodeImageJob at h ⊢
  dsimp only at h ⊢
  split at h
  · next he _ => exact encodeBlockImage_congr (fun _ _ => blockEncoder_congr he) h
  · exact encodePixelImage_congr h

theorem decodeImageJob_withMem {f : Format} (h : ∀ a ∈ (decodeImageJob f s).reads, m.read a = s.mem.read a) :
    decodeImageJob f { s with mem := m } = decodeImageJob f s := by
  rcases decodable_cases f with ⟨dec, bs, hf, hd, hb⟩ | ⟨n, hf, hd, hn⟩ | ⟨hf, hd⟩
  · simp only [decodeImageJob, hd, hb] at h ⊢
    exact decodeBlockImage_congr h
  · simp only [decodeImageJob, hd, hf, hn] at h ⊢
    exact decodePixelImage_congr h
  · simp only [decodeImageJob, hd, hf]

theorem mipDownJob_withMem (h : ∀ a ∈ (mipDownJob s).reads, m.read a = s.mem.read a) :
    mipDownJob { s with mem := m } = mipDownJob s := by
  simp only [mipDownJob, mem_gridList, List.mem_flatMap] at h ⊢
  congr 1
  refine gridList_congr fun x y hx hy => ?_
  rw [downsample, footprintPixels_congr fun sy hsy sx hsx a ha => h a ⟨x, y, hx, hy, sy, hsy, sx, hsx, ha⟩, ← downsample]

/-- What a command does depends on the buffer memory through the bytes its job reads only. -/
theorem jobOf_withMem {i : Instr} (h : ∀ a ∈ (jobOf i s).reads, m.read a = s.mem.read a) :
    jobOf i { s with mem := m } = jobOf i s := by
  cases i with
  | encDxt1Tile => exact tileEncodeJob_withMem (fun _ _ => compressDXT1_congr) h
  | encDxt5Tile => exact tileEncodeJob_withMem (fun _ _ => compressDXT5_congr) h
  | decDxt1Tile | decDxt3Tile | decDxt5Tile =>
    simp only [jobOf] at h ⊢
    exact tileDecodeJob_withMem h
  | encImage f => exact encodeImageJob_withMem h
  | decImage f => exact decodeImageJob_withMem h
  | mipDown => exact mipDownJob_withMem h
  | size f => rfl

end WithMem

/-! ### What a command leaves in the buffer memory -/

/-- At every address a list of byte writes leaves the same byte in any two memories, or leaves both memories alone. -/
theorem Memory.read_writeAll_two (m m' : Memory) (ws : List (Nat × Byte)) (a : Nat) :
    (m'.writeAll ws).read a = (m.writeAll ws).read a ∨
      ((m.writeAll ws).read a = m.read a ∧ (m'.writeAll ws).read a = m'.read a) := by
  induction ws generalizing m m' with
  | nil => exact .inr ⟨rfl, rfl⟩
  | cons w ws ih =>
    rw [Memory.writeAll_cons, Memory.writeAll_cons]
    rcases ih (m.write w.1 w.2) (m'.write w.1 w.2) with h | ⟨h, h'⟩
    · exact .inl h
    · rw [h, h', Memory.read_write, Memory.read_write]
      split
      · exact .inl rfl
      · exact .inr ⟨rfl, rfl⟩

/-- At every address a scramble leaves the same byte in any two memories, or leaves both memories alone. -/
theorem Memory.read_scramble_two (m m' : Memory) (b k n a : Nat) :
    (m'.scramble b k n).read a = (m.scramble b k n).read a ∨
      ((m.scramble b k n).read a = m.read a ∧ (m'.scramble b k n).read a = m'.read a) := by
  rw [Memory.read_scramble, Memory.read_scramble]
  split
  · exact .inl rfl
  · exact .inr ⟨rfl, rfl⟩

/-- One job performed over two memories ends alike, and leaves at every address the same byte in both, or each memory's
own byte as it was. -/
theorem perform_withMem (i : Instr) (j : Job) (s : State) (m : Memory) :
    ∃ t t', perform i j s = .next t ∧ perform i j { s with mem := m } = .next t' ∧ t'.regs = t.regs ∧
      t'.status = t.status ∧ t'.eng = t.eng ∧ t'.draws = t.draws ∧
      ∀ a, t'.mem.read a = t.mem.read a ∨ (t.mem.read a = s.mem.read a ∧ t'.mem.read a = m.read a) := by
  rcases perform_cases i j s with ⟨e, hc, ht⟩ | ⟨hc, ha, ht⟩ | ⟨hc, ha, ht⟩
  · exact ⟨_, _, ht, perform_of_check hc, rfl, rfl, rfl, rfl, fun _ => .inr ⟨rfl, rfl⟩⟩
  · exact ⟨_, _, ht, perform_of_ok hc ha, rfl, rfl, rfl, rfl, Memory.read_writeAll_two s.mem m j.writes⟩
  · exact ⟨_, _, ht, perform_of_denied hc ha, rfl, rfl, rfl, rfl, Memory.read_scramble_two s.mem m _ _ _⟩

/-- Two memories that agree on a command's source span give it the same job, where its checks pass (R214). -/
theorem jobOf_withMem_of_sameBytes {i : Instr} {s : State} {m : Memory} (hc : check i s.eng.snap = none)
    (h : SameBytes (fun a => (spansOf i s.eng.snap).inSrc a = true) s.mem m) :
    jobOf i { s with mem := m } = jobOf i s :=
  jobOf_withMem fun a ha => h a (inSrc_of_readsByte ((mem_reads_jobOf hc).mp ha))

/-- Two memories that agree on a command's source span: the command runs the same job on both. -/
theorem exec_withMem_of_sameBytes {i : Instr} {s : State} {m : Memory}
    (h : SameBytes (fun a => (spansOf i s.eng.snap).inSrc a = true) s.mem m) :
    exec i { s with mem := m } = perform i (jobOf i s) { s with mem := m } := by
  rw [exec_eq_perform]
  cases hc : check i s.eng.snap with
  | some e => rw [perform_of_check (s := { s with mem := m }) hc, perform_of_check (s := { s with mem := m }) hc]
  | none => rw [jobOf_withMem_of_sameBytes hc h]

/-- After `ERR_BUS` every byte of a destination span below 2^32 is its free value, every other byte as before (R216). -/
theorem busFailed_read {i : Instr} {s : State} (h : SpansClear (spansOf i s.eng.snap)) (a : Nat) :
    (busFailed i s).mem.read a =
      if (spansOf i s.eng.snap).inDst a then Config.freeByte (s.draws + (a - s.eng.snap.dst.toNat))
      else s.mem.read a := by
  obtain ⟨-, hdst, -⟩ := h
  rw [busFailed_mem, Memory.read_scramble]
  congr 1
  rw [Spans.inDst_iff]
  exact propext ⟨fun ⟨hlo, hhi, _⟩ => ⟨hlo, hhi⟩, fun ⟨hlo, hhi⟩ => ⟨hlo, hhi, by omega⟩⟩

/-- The checks pass when the dimensions are positive, the format is one the command takes and the spans are clear. -/
theorem check_eq_none_of {i : Instr} {sn : Snap}
    (hd : (i = .mipDown ∨ ∃ f, i = .encImage f ∨ i = .decImage f) → sn.width ≠ 0 ∧ sn.height ≠ 0)
    (hf : formatFail i = false) (hs : SpansClear (spansOf i sn)) : check i sn = none := by
  refine (check_eq_none_iff i sn).mpr ⟨?_, hf, hs⟩
  cases i with
  | encImage f => simpa [dimsFail] using hd (.inr ⟨f, .inl rfl⟩)
  | decImage f => simpa [dimsFail] using hd (.inr ⟨f, .inr rfl⟩)
  | mipDown => simpa [dimsFail] using hd (.inl rfl)
  | _ => rfl

/-- A command with an access that `MEM_OK` refuses is no `SIZE`, so that only `ENC_IMAGE` can fail on its format. -/
theorem formatFail_of_denied {p : Config.Params} {i : Instr} {sn : Snap}
    (hf : ∀ f, i = .encImage f → f ∈ [Format.rgba8888, .rgb888, .bgr888, .bgra8888, .dxt1, .dxt5])
    (hden : ¬(ReadsAccepted p i sn ∧ WritesAccepted p i sn)) : formatFail i = false := by
  cases i with
  | size f => exact absurd (accepted_size p f sn) hden
  | encImage f =>
    have hmem := hf f rfl
    simp only [List.mem_cons, List.not_mem_nil, or_false] at hmem
    rcases hmem with rfl | rfl | rfl | rfl | rfl | rfl <;> rfl
  | _ => rfl

end Sys2Proof.Machine
end

section
/-! The statements about the buffer memory, settled. -/

namespace Sys2Proof.Proofs

open Sys2Proof Sys2Proof.Machine

/-- Settles O10: an accepted job writes only bytes of the span, `ERR_BUS` scrambles the span, another error writes
nothing. -/
theorem commandsWriteOnlyTheirDestinationSpan : Obligations.CommandsWriteOnlyTheirDestinationSpan := by
  intro i s t ht a ha
  rw [exec_eq_perform] at ht
  rcases perform_cases i (jobOf i s) s with ⟨e, -, he⟩ | ⟨hc, -, he⟩ | ⟨-, -, he⟩ <;> rw [he] at ht <;> cases ht
  · rfl
  · refine Memory.read_writeAll_other (fun w hw e => ?_) s.mem
    have hin := inDst_of_writesByte ((mem_writes_jobOf hc).mp (List.mem_map_of_mem hw))
    rw [e, ha] at hin
    cases hin
  · refine Memory.read_scramble_other s.mem fun hin => ?_
    rw [(Spans.inDst_iff _ a).mpr hin] at ha
    cases ha

/-- Settles O11: the bytes of the source span fix the job, and one job does the same over any two memories. -/
theorem commandsReadOnlyTheirSourceSpan : Obligations.CommandsReadOnlyTheirSourceSpan := by
  intro i s m hm t t' ht ht'
  rw [exec_eq_perform] at ht
  rw [exec_withMem_of_sameBytes hm] at ht'
  obtain ⟨u, u', hu, hu', hsame⟩ := perform_withMem i (jobOf i s) s m
  rw [hu] at ht
  rw [hu'] at ht'
  cases ht
  cases ht'
  exact hsame

/-- Settles O14: the job of a command makes the accesses the command makes, so that a refused one ends it with
`ERR_BUS`. -/
theorem deniedAccessEndsWithBusError : Obligations.DeniedAccessEndsWithBusError := by
  intro i s sn hd hf hs hden
  have hc : check i s.eng.snap = none := check_eq_none_of hd (formatFail_of_denied hf hden) hs
  have ha : (jobOf i s).accessOk s.params = false :=
    Bool.eq_false_iff.mpr fun hok => hden ((accessOk_jobOf_iff hc).mp hok)
  exact ⟨busFailed i s, by rw [exec_eq_perform, perform_of_denied hc ha], busFailed_completed i s, busFailed_read hs⟩

end Sys2Proof.Proofs
end

section
/-! SUPPORT. The decoder against the encoder: which words the decoder accepts, and that it takes the encoder back. -/

namespace Sys2Proof

/-! ### Decode and encode -/

/-- The decoder finds again what the encoder put in the fields: OP picks the row, the other fields pass its test. -/
theorem decode_encode {i : Instr} (h : i.wf = true) : decode (encode i) = some i := by
  cases i with
  | encImage f | decImage f | size f => simp [decode, encode, Format.ofCode_code f h]
  | encDxt1Tile | encDxt5Tile | decDxt1Tile | decDxt3Tile | decDxt5Tile | mipDown => simp [decode, encode]

/-- The inversion of the decoder on a word given by its fields: the row that OP picks fixes every field the command does
not carry. -/
theorem encode_of_decode_commandWord {op fmt : Byte} {a : Bool} {i : Instr}
    (h : decode (commandWord op fmt a) = some i) : encode i = commandWord op fmt a ∧ i.wf = true := by
  have hop : ∀ {n : Nat}, op.toNat = n → op = BitVec.ofNat 8 n := fun hn => by
    rw [← hn, BitVec.ofNat_toNat, BitVec.setWidth_eq]
  have hfmt := Format.code_ofCode fmt
  simp only [decode, reservedField_commandWord, opField_commandWord, fmtField_commandWord, aField_commandWord, ne_eq,
    not_true_eq_false, if_false] at h
  split at h <;> simp only [Option.ite_none_right_eq_some, Option.some.injEq, reduceCtorEq] at h
  case h_1 hn | h_2 hn | h_4 hn | h_5 hn | h_8 hn =>
    obtain ⟨⟨rfl, rfl⟩, rfl⟩ := h
    exact ⟨by rw [hop hn]; rfl, rfl⟩
  case h_3 hn =>
    obtain ⟨rfl, rfl⟩ := h
    exact ⟨by rw [hop hn]; rfl, rfl⟩
  case h_6 hn | h_7 hn | h_9 hn =>
    obtain ⟨rfl, rfl⟩ := h
    exact ⟨by rw [hop hn, encode, hfmt.1]; rfl, hfmt.2⟩

theorem reservedField_of_decode {w : Word} {i : Instr} (h : decode w = some i) : reservedField w = 0 := by
  by_contra hres
  have hnone : decode w = none := if_pos hres
  rw [hnone] at h
  cases h

/-- A word the decoder accepts is the encoding of the well-formed command it names, and of no other (R304, R307). -/
theorem decode_eq_some_iff {w : Word} {i : Instr} : decode w = some i ↔ encode i = w ∧ i.wf = true := by
  constructor
  · intro h
    have hw := commandWord_of_fields w (reservedField_of_decode h)
    rw [← hw] at h ⊢
    simpa using encode_of_decode_commandWord h
  · rintro ⟨rfl, hwf⟩
    exact decode_encode hwf

/-! ### The words the decoder accepts -/

/-- The word has an OP that R301 names and meets every constraint of R303. -/
def LegalWord (w : Word) : Prop :=
  reservedField w = 0 ∧
  (1 ≤ (opField w).toNat ∧ (opField w).toNat ≤ 9) ∧
  (fmtField w ≠ 0 → opField w ∈ [0x06#8, 0x07#8, 0x09#8]) ∧
  (aField w = true → opField w = 0x03#8)

/-- The encoder keeps the field use of R303, command by command. -/
theorem legalWord_encode (i : Instr) : LegalWord (encode i) := by
  cases i with
  | encDxt1Tile => exact Laws.FieldUse.encDxt1Tile
  | encDxt5Tile => exact Laws.FieldUse.encDxt5Tile
  | decDxt1Tile a => exact Laws.FieldUse.decDxt1Tile a
  | decDxt3Tile => exact Laws.FieldUse.decDxt3Tile
  | decDxt5Tile => exact Laws.FieldUse.decDxt5Tile
  | encImage f => exact Laws.FieldUse.encImage f
  | decImage f => exact Laws.FieldUse.decImage f
  | mipDown => exact Laws.FieldUse.mipDown
  | size f => exact Laws.FieldUse.size f

theorem LegalWord.fmtField_eq_zero {w : Word} {op : Nat} (h : LegalWord w) (hop : (opField w).toNat = op)
    (huse : op ≠ 6 ∧ op ≠ 7 ∧ op ≠ 9) : fmtField w = 0 := by
  obtain ⟨-, -, hfmt, -⟩ := h
  by_contra hne
  have := hfmt hne
  simp only [List.mem_cons, List.not_mem_nil, or_false] at this
  rcases this with h | h | h <;> simp [h] at hop <;> omega

theorem LegalWord.aField_eq_false {w : Word} {op : Nat} (h : LegalWord w) (hop : (opField w).toNat = op)
    (huse : op ≠ 3) : aField w = false := by
  obtain ⟨-, -, -, ha⟩ := h
  by_contra hne
  simp [ha (by simpa using hne)] at hop
  omega

/-- The decoder has a row for every legal word. -/
theorem LegalWord.decode_ne_none {w : Word} (h : LegalWord w) : decode w ≠ none := by
  have ⟨hres, ⟨hlo, hhi⟩, _, _⟩ := h
  unfold decode
  rw [if_neg (not_not.mpr hres)]
  split
  case h_1 hn | h_2 hn | h_4 hn | h_5 hn | h_8 hn =>
    rw [if_pos ⟨h.fmtField_eq_zero hn (by decide), h.aField_eq_false hn (by decide)⟩]
    exact Option.some_ne_none _
  case h_3 hn =>
    rw [if_pos (h.fmtField_eq_zero hn (by decide))]
    exact Option.some_ne_none _
  case h_6 hn | h_7 hn | h_9 hn =>
    rw [if_pos (h.aField_eq_false hn (by decide))]
    exact Option.some_ne_none _
  case h_10 => interval_cases (opField w).toNat <;> contradiction

/-- The decoder refuses exactly the words that are not legal (R305). -/
theorem decode_eq_none_iff (w : Word) : decode w = none ↔ ¬LegalWord w := by
  constructor
  · exact fun hnone hlegal => hlegal.decode_ne_none hnone
  · intro hill
    by_contra hsome
    obtain ⟨i, hi⟩ := Option.ne_none_iff_exists'.mp hsome
    obtain ⟨rfl, -⟩ := decode_eq_some_iff.mp hi
    exact hill (legalWord_encode i)

/-- The ways in which a word is not legal, as R305 lists them. -/
theorem not_legalWord_iff (w : Word) :
    ¬LegalWord w ↔
      (opField w = 0 ∨ 0x0A ≤ (opField w).toNat) ∨ reservedField w ≠ 0 ∨
      (fmtField w ≠ 0 ∧ opField w ≠ 0x06#8 ∧ opField w ≠ 0x07#8 ∧ opField w ≠ 0x09#8) ∨
      (aField w = true ∧ opField w ≠ 0x03#8) := by
  have hop : (opField w = 0 ∨ 0x0A ≤ (opField w).toNat) ↔ ¬(1 ≤ (opField w).toNat ∧ (opField w).toNat ≤ 9) := by
    rw [← BitVec.toNat_inj]
    simp only [BitVec.ofNat_eq_ofNat, BitVec.toNat_ofNat]
    omega
  have hfmt : (fmtField w ≠ 0 ∧ opField w ≠ 0x06#8 ∧ opField w ≠ 0x07#8 ∧ opField w ≠ 0x09#8) ↔
      ¬(fmtField w ≠ 0 → opField w ∈ [0x06#8, 0x07#8, 0x09#8]) := by
    simp
  rw [LegalWord, hop, hfmt]
  tauto

end Sys2Proof
end

section
/-! The statements about the command word, settled. -/

namespace Sys2Proof.Proofs

open Sys2Proof Sys2Proof.Machine

/-- Settles O2: each row of the decoder reads back the fields the encoder wrote. -/
theorem decodeOfEncode : Obligations.DecodeOfEncode := fun _ h => decode_encode h

/-- Settles O3, by the inversion of the decoder. -/
theorem encodeOfDecode : Obligations.EncodeOfDecode := fun _ _ h => decode_eq_some_iff.mp h

/-- Settles O5: the decoder refuses exactly the words that are not legal, and the engine's turn on one is the completion of
an error. -/
theorem illegalWordsCompleteWithIllegalOp : Obligations.IllegalWordsCompleteWithIllegalOp := by
  refine ⟨fun w => (decode_eq_none_iff w).trans (not_legalWord_iff w), fun s hb hp hd => ?_⟩
  exact ⟨_, by rw [step_busy_zero hb hp, engineTurn_of_illegal hd], raiseError_completed .illegalOp s, raiseError_mem ..⟩

/-- Settles O4: the three ways to break R303 are among the ways not to be legal. -/
theorem fieldUseConstraints : Obligations.FieldUseConstraints := by
  intro w h
  refine (decode_eq_none_iff w).mpr ((not_legalWord_iff w).mpr (.inr ?_))
  rcases h with hfmt | ha | hres
  · exact .inr (.inl hfmt)
  · exact .inr (.inr ha)
  · exact .inl hres

/-- Settles O1: closed words, evaluated. -/
theorem specWordsDecode : Obligations.SpecWordsDecode := by
  unfold Obligations.SpecWordsDecode
  decide

end Sys2Proof.Proofs
end

section
/-! SUPPORT. RGB565 as arithmetic (R320 to R322), and the fields of a block (R323, R325): a number made of the
little-endian bytes of a list holds those bytes one by one. -/

namespace Sys2Proof.Machine

open Sys2Proof

/-! ### RGB565 -/

/-- The expansion puts the two copies of the channel side by side, so that it is their sum. -/
theorem expand5_eq {v : Nat} (h : v < 32) : expand5 v = 8 * v + v / 4 := by
  have hlow : v / 4 < 2 ^ 3 := by omega
  rw [expand5, Nat.shiftRight_eq_div_pow, ← Nat.shiftLeft_add_eq_or_of_lt hlow, Nat.shiftLeft_eq]
  omega

theorem expand6_eq {v : Nat} (h : v < 64) : expand6 v = 4 * v + v / 16 := by
  have hlow : v / 16 < 2 ^ 2 := by omega
  rw [expand6, Nat.shiftRight_eq_div_pow, ← Nat.shiftLeft_add_eq_or_of_lt hlow, Nat.shiftLeft_eq]
  omega

/-- The bits that the expansion repeats below the channel are those that the truncation drops. -/
theorem expand5_div {v : Nat} (h : v < 32) : expand5 v / 8 = v := by rw [expand5_eq h]; omega

theorem expand6_div {v : Nat} (h : v < 64) : expand6 v / 4 = v := by rw [expand6_eq h]; omega

/-- R320, R321: the channels of an expanded word are the expansions of its three fields. -/
theorem expand565_toNat (c : Half) :
    (expand565 c).r.toNat = expand5 (c.toNat / 2 ^ 11) ∧ (expand565 c).g.toNat = expand6 (c.toNat / 2 ^ 5 % 64) ∧
      (expand565 c).b.toNat = expand5 (c.toNat % 32) := by
  have hc := c.isLt
  have hr : field c.toNat 15 11 = c.toNat / 2 ^ 11 := by rw [field_eq]; omega
  have hg : field c.toNat 10 5 = c.toNat / 2 ^ 5 % 64 := field_eq ..
  have hb : field c.toNat 4 0 = c.toNat % 32 := by rw [field_eq]; omega
  simp only [expand565, BitVec.toNat_ofNat, hr, hg, hb]
  rw [expand5_eq (v := c.toNat / 2 ^ 11) (by omega), expand6_eq (v := c.toNat / 2 ^ 5 % 64) (by omega),
    expand5_eq (v := c.toNat % 32) (by omega)]
  omega

/-- R322: the truncated channels lie side by side in the packed word. -/
theorem pack565_toNat (c : Rgb) :
    (pack565 c).toNat = c.r.toNat / 8 * 2048 + c.g.toNat / 4 * 32 + c.b.toNat / 8 := by
  have hr := c.r.isLt
  have hg := c.g.isLt
  have hb := c.b.isLt
  have hblue : c.b.toNat / 2 ^ 3 < 2 ^ 5 := by omega
  have hgreen : c.g.toNat / 2 ^ 2 * 2 ^ 5 + c.b.toNat / 2 ^ 3 < 2 ^ 11 := by omega
  rw [pack565, BitVec.toNat_ofNat, Nat.or_assoc]
  simp only [Nat.shiftRight_eq_div_pow]
  rw [← Nat.shiftLeft_add_eq_or_of_lt hblue, Nat.shiftLeft_eq _ 5, ← Nat.shiftLeft_add_eq_or_of_lt hgreen,
    Nat.shiftLeft_eq]
  omega

/-- Each channel comes back from its expansion, and the three fields make up the word. -/
theorem pack565_expand565 (v : Half) : pack565 (expand565 v) = v := by
  have hv := v.isLt
  obtain ⟨hr, hg, hb⟩ := expand565_toNat v
  refine BitVec.eq_of_toNat_eq ?_
  rw [pack565_toNat, hr, hg, hb, expand5_div (by omega), expand6_div (by omega), expand5_div (by omega)]
  omega

/-! ### The bytes of a little-endian number -/

/-- A list past its end reads as the byte 0, as the number does past its top. -/
theorem leNat_byte (bs : List Byte) (k : Nat) : leNat bs / 256 ^ k % 256 = (bs.getD k 0).toNat := by
  induction bs generalizing k with
  | nil => simp [leNat]
  | cons b bs ih =>
    have hb := b.isLt
    cases k with
    | zero => simp only [leNat, List.getD_cons_zero]; omega
    | succ k =>
      have htail : leNat (b :: bs) / 256 = leNat bs := by simp only [leNat]; omega
      rw [pow_succ', ← Nat.div_div_eq_div_mul, htail, ih, List.getD_cons_succ]

/-- Byte `k` of the `n`-byte field at index `o` is byte `o + k` of the list. -/
theorem leField_byte (b : List Byte) (o : Nat) {n k : Nat} (h : k < n) :
    leField b o n / 256 ^ k % 256 = (b.getD (o + k) 0).toNat := by
  rw [leField, leNat_byte]
  simp [List.getD, h]

theorem leField_lt (b : List Byte) (o n : Nat) : leField b o n < 256 ^ n :=
  (leNat_lt _).trans_le (Nat.pow_le_pow_right (by decide) (by simp))

/-- Two bits of a number that do not cross a byte are bits of that byte. -/
theorem twoBits_of_byte (v i : Nat) : v / 2 ^ (2 * i) % 4 = v / 256 ^ (i / 4) % 256 / 2 ^ (2 * (i % 4)) % 4 := by
  have hpow : 2 ^ (2 * i) = 256 ^ (i / 4) * 2 ^ (2 * (i % 4)) := by
    rw [show 256 = 2 ^ 8 by rfl, ← pow_mul, ← pow_add]
    congr 1
    omega
  rw [hpow, ← Nat.div_div_eq_div_mul]
  generalize v / 256 ^ (i / 4) = u
  have hi : i % 4 < 4 := Nat.mod_lt _ (by decide)
  interval_cases i % 4 <;> omega

/-! ### The fields of a block -/

theorem blockColor0_toNat (b : List Byte) : (blockColor0 b).toNat = leField b 0 2 :=
  Nat.mod_eq_of_lt (leField_lt b 0 2)

theorem blockColor1_toNat (b : List Byte) : (blockColor1 b).toNat = leField b 2 2 :=
  Nat.mod_eq_of_lt (leField_lt b 2 2)

theorem colorIndex_eq (b : List Byte) (i : Nat) : colorIndex b i = leField b 4 4 / 2 ^ (2 * i) % 4 := by
  rw [colorIndex, field_eq, show 2 * i + 1 + 1 - 2 * i = 2 by omega]
  rfl

theorem colorIndex_lt (b : List Byte) (i : Nat) : colorIndex b i < 4 := by
  rw [colorIndex_eq]
  exact Nat.mod_lt _ (by decide)

/-- Row `y` of a tile has its colour indices in byte `4 + y`. -/
theorem colorIndex_byte (b : List Byte) {i : Nat} (h : i < 16) :
    colorIndex b i = (b.getD (4 + i / 4) 0).toNat / 2 ^ (2 * (i % 4)) % 4 := by
  rw [colorIndex_eq, twoBits_of_byte, leField_byte b 4 (by omega)]

theorem alphaIndex_eq (b : List Byte) (i : Nat) : alphaIndex b i = leField b 2 6 / 2 ^ (3 * i) % 8 := by
  rw [alphaIndex, field_eq, show 3 * i + 2 + 1 - 3 * i = 3 by omega]
  rfl

/-! ### The palette of a block -/

@[simp] theorem Rgb.withAlpha_a (c : Rgb) (a : Byte) : (c.withAlpha a).a = a := rfl

/-- R402: without alpha the palette has four colours and no transparent entry. -/
theorem dxt1Palette_opaque (c0 c1 : Half) : ∀ p ∈ dxt1Palette c0 c1 false, p.a = 255 := by
  simp [dxt1Palette]

theorem dxt1Palette_length (c0 c1 : Half) (hasAlpha : Bool) : (dxt1Palette c0 c1 hasAlpha).length = 4 := by
  unfold dxt1Palette
  dsimp only
  split <;> rfl

theorem palettePixel_mem {pal : List Pixel} {k : Nat} (h : k < pal.length) : palettePixel pal k ∈ pal := by
  rw [palettePixel, List.getD_eq_getElem _ _ h]
  exact List.getElem_mem h

theorem decodeDXT1_opaque (b : List Byte) (i : Nat) : (decodeDXT1 b false i).a = 255 :=
  dxt1Palette_opaque _ _ _ (palettePixel_mem ((colorIndex_lt b i).trans_eq (dxt1Palette_length ..).symm))

end Sys2Proof.Machine
end

section
/-! The statements about RGB565 and the fields of a block, settled. -/

namespace Sys2Proof.Proofs

open Sys2Proof Sys2Proof.Machine

/-- Settles O30: the second form of each line shifts left and then right, which is one shift right. -/
theorem rgb565Expansion : Obligations.Rgb565Expansion := by
  intro c r5 g6 b5
  have h5 : ∀ v : Nat, (v <<< 3) >>> 5 = v >>> 2 := fun v => by
    simp only [Nat.shiftLeft_eq, Nat.shiftRight_eq_div_pow]; omega
  have h6 : ∀ v : Nat, (v <<< 2) >>> 6 = v >>> 4 := fun v => by
    simp only [Nat.shiftLeft_eq, Nat.shiftRight_eq_div_pow]; omega
  obtain ⟨hr, hg, hb⟩ := expand565_toNat c
  rw [h5, h6, h5]
  exact ⟨hr, hr, hg, hg, hb, hb, rfl, rfl, rfl⟩

/-- Settles O31: packing is arithmetic on the channels, and takes the expansion's arithmetic back. -/
theorem rgb565PackingTruncates : Obligations.Rgb565PackingTruncates := ⟨pack565_toNat, pack565_expand565⟩

/-- Settles O33: the fields from the bytes of their little-endian numbers; the lookups are what the decoders say. -/
theorem blockFieldsAndLookup : Obligations.BlockFieldsAndLookup := by
  intro b i _ hi
  exact ⟨blockColor0_toNat b, blockColor1_toNat b, colorIndex_eq b i, colorIndex_byte b hi, alphaIndex_eq b i,
    fun _ => rfl, rfl, decodeDXT1_opaque b i, rfl, rfl⟩

end Sys2Proof.Proofs
end

section
/-! SUPPORT. Block decode: a command whose accesses are all accepted, the DXT1 palette in both modes (R400), the
explicit alpha of DXT3 (R403) and the alpha palette of DXT5 (R404). -/

namespace Sys2Proof.Machine

open Sys2Proof

/-! ### A command whose accesses are all accepted -/

/-- A command whose checks pass and whose accesses `MEM_OK` accepts completes its job (R172, R173, R216). -/
theorem completesOk_of_accepted {i : Instr} {s : State} {j : Job} {P : Memory → Prop} (hjob : jobOf i s = j)
    (hc : check i s.eng.snap = none) (hr : ReadsAccepted s.params i s.eng.snap)
    (hw : WritesAccepted s.params i s.eng.snap) (hP : P (s.mem.writeAll j.writes)) :
    CompletesOk i s j.warn j.result P := by
  subst hjob
  have hok : (jobOf i s).accessOk s.params = true := (accessOk_jobOf_iff hc).mpr ⟨hr, hw⟩
  exact ⟨jobDone (jobOf i s) s, by rw [exec_eq_perform, perform_of_ok hc hok], jobDone_completed _ s, hP, rfl⟩

/-- A command whose job decodes a tile leaves that tile in memory (R408, R420 to R422). -/
theorem completesOk_of_tileDecodeJob {i : Instr} {s : State} {n : Nat} {dec : List Byte → Tile}
    (hjob : jobOf i s = tileDecodeJob n dec s) (hc : check i s.eng.snap = none)
    (hr : ReadsAccepted s.params i s.eng.snap) (hw : WritesAccepted s.params i s.eng.snap) :
    CompletesOk i s false 64 fun m =>
      TileWritten s.mem m s.eng.snap.dst.toNat s.eng.snap.dpitch.toNat (dec (s.mem.bytes s.eng.snap.src.toNat n)) :=
  completesOk_of_accepted hjob hc hr hw (tileWritten_tileWrites ..)

/-! ### The DXT1 palette -/

theorem palettePixel_dxt1Palette_zero (c0 c1 : Half) (hasAlpha : Bool) :
    palettePixel (dxt1Palette c0 c1 hasAlpha) 0 = (expand565 c0).withAlpha 255 := by
  unfold dxt1Palette
  dsimp only
  split <;> rfl

theorem palettePixel_dxt1Palette_one (c0 c1 : Half) (hasAlpha : Bool) :
    palettePixel (dxt1Palette c0 c1 hasAlpha) 1 = (expand565 c1).withAlpha 255 := by
  unfold dxt1Palette
  dsimp only
  split <;> rfl

/-- Entries 2 and 3 in four-colour mode. -/
theorem palettePixel_dxt1Palette_of_fourColour {c0 c1 : Half} {hasAlpha : Bool}
    (h : c1.toNat < c0.toNat ∨ hasAlpha = false) :
    palettePixel (dxt1Palette c0 c1 hasAlpha) 2 = (Rgb.map2 twoToOne (expand565 c0) (expand565 c1)).withAlpha 255 ∧
      palettePixel (dxt1Palette c0 c1 hasAlpha) 3 =
        (Rgb.map2 oneToTwo (expand565 c0) (expand565 c1)).withAlpha 255 := by
  rw [dxt1Palette, if_pos h]
  exact ⟨rfl, rfl⟩

/-- Entries 2 and 3 in three-colour mode. -/
theorem palettePixel_dxt1Palette_of_threeColour {c0 c1 : Half} {hasAlpha : Bool}
    (h : ¬(c1.toNat < c0.toNat ∨ hasAlpha = false)) :
    palettePixel (dxt1Palette c0 c1 hasAlpha) 2 = (Rgb.map2 midpoint (expand565 c0) (expand565 c1)).withAlpha 255 ∧
      palettePixel (dxt1Palette c0 c1 hasAlpha) 3 = ⟨0, 0, 0, 0⟩ := by
  rw [dxt1Palette, if_neg h]
  exact ⟨rfl, rfl⟩

/-- The channels of an opaque pixel mixed from two colours. -/
theorem mixedPixel_toNat {f : Nat → Nat → Nat} (hf : ∀ p q, p < 256 → q < 256 → f p q < 256) {x : Pixel}
    {p q : Rgb} (hx : x = (Rgb.map2 f p q).withAlpha 255) :
    x.r.toNat = f p.r.toNat q.r.toNat ∧ x.g.toNat = f p.g.toNat q.g.toNat ∧ x.b.toNat = f p.b.toNat q.b.toNat ∧
      x.a = 255 := by
  obtain ⟨hr, hg, hb⟩ := Rgb.map2_toNat hf p q
  subst hx
  exact ⟨hr, hg, hb, rfl⟩

/-! ### The explicit alpha of DXT3 -/

/-- A bit field of a number that lies inside the lowest byte is a bit field of that byte. -/
theorem field_of_low_byte (v : Nat) {lo bits : Nat} (h : lo + bits ≤ 8) :
    v % 256 / 2 ^ lo % 2 ^ bits = v / 2 ^ lo % 2 ^ bits := by
  have hbyte : 256 = 2 ^ lo * 2 ^ (8 - lo) := by rw [← pow_add, Nat.add_sub_cancel' (by omega)]; rfl
  rw [hbyte, Nat.mod_mul_right_div_self, Nat.mod_mod_of_dvd _ (pow_dvd_pow 2 (by omega))]

/-- Pixel `i` has the low or the high half of byte `i / 2` (R324). -/
theorem alphaNibble_byte (b : List Byte) (i : Nat) :
    alphaNibble b i = (b.getD (i / 2) 0).toNat / 2 ^ (4 * (i % 2)) % 16 := by
  have hbit : i &&& 1 = i % 2 := Nat.and_two_pow_sub_one_eq_mod i 1
  have hmask : ∀ v : Nat, v &&& 0xF = v % 16 := fun v => Nat.and_two_pow_sub_one_eq_mod v 4
  rw [alphaNibble, hbit, hmask, Nat.shiftRight_eq_div_pow, Nat.shiftRight_eq_div_pow, pow_one]

/-- The nibbles lie side by side in the little-endian 64-bit field (R324). -/
theorem alphaNibble_eq (b : List Byte) {i : Nat} (h : i < 16) :
    alphaNibble b i = leNat (b.take 8) / 2 ^ (4 * i) % 16 := by
  have hbyte : (b.getD (i / 2) 0).toNat = leNat (b.take 8) / 256 ^ (i / 2) % 256 := by
    have := leField_byte b 0 (n := 8) (k := i / 2) (by omega)
    rwa [Nat.zero_add, leField, List.drop_zero, eq_comm] at this
  have hpow : 256 ^ (i / 2) * 2 ^ (4 * (i % 2)) = 2 ^ (4 * i) := by
    rw [show 256 = 2 ^ 8 by rfl, ← pow_mul, ← pow_add]
    congr 1
    omega
  calc alphaNibble b i = leNat (b.take 8) / 256 ^ (i / 2) % 256 / 2 ^ (4 * (i % 2)) % 2 ^ 4 := by
        rw [alphaNibble_byte, hbyte]; rfl
    _ = leNat (b.take 8) / 256 ^ (i / 2) / 2 ^ (4 * (i % 2)) % 2 ^ 4 := field_of_low_byte _ (by omega)
    _ = leNat (b.take 8) / 2 ^ (4 * i) % 16 := by rw [Nat.div_div_eq_div_mul, hpow]; rfl

theorem alphaNibble_lt (b : List Byte) (i : Nat) : alphaNibble b i < 16 := by
  rw [alphaNibble_byte]
  exact Nat.mod_lt _ (by decide)

/-- The nibbles stand in the first 8 bytes of a DXT3 block (R405). -/
theorem alphaNibble_take (b : List Byte) {i : Nat} (h : i < 16) : alphaNibble (b.take 8) i = alphaNibble b i := by
  rw [alphaNibble_eq _ h, alphaNibble_eq _ h, List.take_take, min_self]

/-- A nibble in both halves of a byte is 17 times the nibble. -/
theorem or_shiftLeft_four {n : Nat} (h : n < 16) : n ||| (n <<< 4) = 17 * n := by
  rw [Nat.or_comm, ← Nat.shiftLeft_add_eq_or_of_lt (b := n) (i := 4) h, Nat.shiftLeft_eq]
  omega

theorem dxt3Alpha_toNat (b : List Byte) (i : Nat) : (dxt3Alpha b i).toNat = 17 * alphaNibble b i := by
  have h := alphaNibble_lt b i
  rw [dxt3Alpha, or_shiftLeft_four h, BitVec.toNat_ofNat]
  omega

/-- DXT3 decode gives pixel `i` the alpha of its nibble (R405). -/
theorem decodeDXT3_a (b : List Byte) {i : Nat} (h : i < 16) : (decodeDXT3 b i).a = dxt3Alpha b i := by
  rw [decodeDXT3, Rgb.withAlpha_a, dxt3Alpha, alphaNibble_take b h, ← dxt3Alpha]

/-! ### The alpha palette of DXT5 -/

theorem le_eightStep {a0 a1 i m : Nat} (h0 : m ≤ a0) (h1 : m ≤ a1) (hi : i ≤ 5) : m ≤ eightStep a0 a1 i := by
  unfold eightStep
  interval_cases i <;> omega

theorem le_sixStep {a0 a1 i m : Nat} (h0 : m ≤ a0) (h1 : m ≤ a1) (hi : i ≤ 3) : m ≤ sixStep a0 a1 i := by
  unfold sixStep
  interval_cases i <;> omega

theorem dxt5AlphaPalette_of_lt {a0 a1 : Byte} (h : a1.toNat < a0.toNat) {i : Nat} (hi : i ≤ 5) :
    (dxt5AlphaPalette a0 a1 (i + 2)).toNat = eightStep a0.toNat a1.toNat i := by
  have hle := eightStep_le (le_refl a0.toNat) h.le hi
  rw [dxt5AlphaPalette, if_neg (by omega), if_neg (by omega), if_pos h, Nat.add_sub_cancel, BitVec.toNat_ofNat,
    Nat.mod_eq_of_lt (hle.trans_lt a0.isLt)]

theorem dxt5AlphaPalette_of_le {a0 a1 : Byte} (h : a0.toNat ≤ a1.toNat) {i : Nat} (hi : i ≤ 3) :
    (dxt5AlphaPalette a0 a1 (i + 2)).toNat = sixStep a0.toNat a1.toNat i := by
  have hle := sixStep_le h (le_refl a1.toNat) hi
  rw [dxt5AlphaPalette, if_neg (by omega), if_neg (by omega), if_neg (by omega), if_neg (by omega), if_neg (by omega),
    Nat.add_sub_cancel, BitVec.toNat_ofNat, Nat.mod_eq_of_lt (hle.trans_lt a1.isLt)]

/-- The two fixed entries of the 6-step branch. -/
theorem dxt5AlphaPalette_fixed {a0 a1 : Byte} (h : a0.toNat ≤ a1.toNat) :
    dxt5AlphaPalette a0 a1 6 = 0 ∧ dxt5AlphaPalette a0 a1 7 = 255 := by
  simp [dxt5AlphaPalette, Nat.not_lt.mpr h]

end Sys2Proof.Machine
end

section
/-! The statements about block decode and the commands that decode a tile, settled. -/

namespace Sys2Proof.Proofs

open Sys2Proof Sys2Proof.Machine

/-- Settles O15: clear spans are all the checks ask, and the accepted job writes the tile row by row. -/
theorem decDxt1TileWritesTheTile : Obligations.DecDxt1TileWritesTheTile := by
  intro s a sn hs hr hw
  exact completesOk_of_tileDecodeJob (i := .decDxt1Tile a) (dec := fun b => decodeDXT1 b a) rfl
    ((check_eq_none_iff _ _).mpr ⟨rfl, rfl, hs⟩) hr hw

/-- Settles O16, as O15. -/
theorem decDxt3TileWritesTheTile : Obligations.DecDxt3TileWritesTheTile := by
  intro s sn hs hr hw
  exact completesOk_of_tileDecodeJob (i := .decDxt3Tile) rfl ((check_eq_none_iff _ _).mpr ⟨rfl, rfl, hs⟩) hr hw

/-- Settles O17, as O15. -/
theorem decDxt5TileWritesTheTile : Obligations.DecDxt5TileWritesTheTile := by
  intro s sn hs hr hw
  exact completesOk_of_tileDecodeJob (i := .decDxt5Tile) rfl ((check_eq_none_iff _ _).mpr ⟨rfl, rfl, hs⟩) hr hw

/-- Settles O32: the mode's list of entries, each mixed channel computed without overflow. -/
theorem dxt1PaletteModes : Obligations.Dxt1PaletteModes := by
  intro color0 color1 hasAlpha p0 p1 pal mixes
  refine ⟨palettePixel_dxt1Palette_zero .., palettePixel_dxt1Palette_one .., fun hfour => ?_, fun hthree => ?_⟩
  · obtain ⟨h2, h3⟩ := palettePixel_dxt1Palette_of_fourColour hfour
    exact ⟨mixedPixel_toNat (fun _ _ => twoToOne_lt) h2, mixedPixel_toNat (fun _ _ => oneToTwo_lt) h3⟩
  · obtain ⟨h2, h3⟩ := palettePixel_dxt1Palette_of_threeColour hthree
    exact ⟨mixedPixel_toNat (fun _ _ => midpoint_lt) h2, h3⟩

/-- Settles O34: the nibble as a field of its byte is a field of the 64-bit number, and repeating it multiplies by
17. -/
theorem dxt3AlphaReplicatesTheNibble : Obligations.Dxt3AlphaReplicatesTheNibble := by
  intro b i _ hi nibble
  have hn : alphaNibble b i = nibble := alphaNibble_eq b hi
  have halpha : (dxt3Alpha b i).toNat = 17 * nibble := by rw [dxt3Alpha_toNat, hn]
  exact ⟨hn, by rw [halpha, or_shiftLeft_four (hn ▸ alphaNibble_lt b i)], halpha, decodeDXT3_a b hi⟩

/-- Settles O35: a truncated weighted mean lies between its two values, so that no entry leaves 8 bits. -/
theorem dxt5AlphaPaletteBranches : Obligations.Dxt5AlphaPaletteBranches := by
  intro a0 a1 ap
  refine ⟨rfl, rfl, fun h i hi => ?_, fun h => ?_⟩
  · have hentry : (ap (i + 2)).toNat = eightStep a0.toNat a1.toNat i := dxt5AlphaPalette_of_lt h hi
    exact ⟨hentry, hentry ▸ le_eightStep h.le le_rfl hi, hentry ▸ eightStep_le le_rfl h.le hi⟩
  · obtain ⟨h6, h7⟩ := dxt5AlphaPalette_fixed h
    refine ⟨h6, h7, fun i hi => ?_⟩
    have hentry : (ap (i + 2)).toNat = sixStep a0.toNat a1.toNat i := dxt5AlphaPalette_of_le h hi
    exact ⟨hentry, hentry ▸ le_sixStep le_rfl h hi, hentry ▸ sixStep_le h le_rfl hi⟩

end Sys2Proof.Proofs
end

section
/-! SUPPORT. Block encode: the extremes a block starts from (R451, R457), the index search over a palette (R454, R457),
the fields the decoders find in a compressed block (R323, R325), and the commands that store one (R470, R471). -/

namespace Sys2Proof.Machine

open Sys2Proof

/-! ### Extremes -/

/-- `lo` and `hi` are the least and the greatest of the 16 values of a channel (R451, R457). -/
structure IsExtremes (f : Nat → Byte) (lo hi : Byte) : Prop where
  bounds : ∀ i, i < 16 → lo.toNat ≤ (f i).toNat ∧ (f i).toNat ≤ hi.toNat
  hi_attained : ∃ i, i < 16 ∧ f i = hi
  lo_attained : ∃ i, i < 16 ∧ f i = lo

theorem IsExtremes.lo_le_hi {f : Nat → Byte} {lo hi : Byte} (h : IsExtremes f lo hi) : lo.toNat ≤ hi.toNat :=
  have ⟨hlo, hhi⟩ := h.bounds 0 (by decide)
  hlo.trans hhi

theorem toNat_ofNat_maxOver (f : Nat → Byte) : (BitVec.ofNat 8 (maxOver f 16)).toNat = maxOver f 16 :=
  Nat.mod_eq_of_lt (maxOver_lt f 16)

theorem toNat_ofNat_minOver (f : Nat → Byte) : (BitVec.ofNat 8 (minOver f 16)).toNat = minOver f 16 :=
  Nat.mod_eq_of_lt (minOver_lt f 16)

theorem isExtremes_minOver_maxOver (f : Nat → Byte) :
    IsExtremes f (BitVec.ofNat 8 (minOver f 16)) (BitVec.ofNat 8 (maxOver f 16)) where
  bounds i hi := by
    rw [toNat_ofNat_minOver, toNat_ofNat_maxOver]
    exact ⟨minOver_le f hi, le_maxOver f hi⟩
  hi_attained := by
    obtain ⟨i, hi, he⟩ := maxOver_attained f 15
    exact ⟨i, hi, BitVec.eq_of_toNat_eq (he.trans (toNat_ofNat_maxOver f).symm)⟩
  lo_attained := by
    obtain ⟨i, hi, he⟩ := minOver_attained f 15
    exact ⟨i, hi, BitVec.eq_of_toNat_eq (he.trans (toNat_ofNat_minOver f).symm)⟩

/-- R451: the triples are the extremes of each colour channel. -/
theorem isExtremes_tileMin_tileMax (t : Tile) :
    IsExtremes (fun i => (t i).r) (tileMin t).r (tileMax t).r ∧
      IsExtremes (fun i => (t i).g) (tileMin t).g (tileMax t).g ∧
      IsExtremes (fun i => (t i).b) (tileMin t).b (tileMax t).b :=
  ⟨isExtremes_minOver_maxOver _, isExtremes_minOver_maxOver _, isExtremes_minOver_maxOver _⟩

/-! ### Endpoints -/

/-- Truncating each channel keeps the order, and so does laying the channels side by side. -/
theorem pack565_le {p q : Rgb} (hr : p.r.toNat ≤ q.r.toNat) (hg : p.g.toNat ≤ q.g.toNat)
    (hb : p.b.toNat ≤ q.b.toNat) : (pack565 p).toNat ≤ (pack565 q).toNat := by
  rw [pack565_toNat, pack565_toNat]
  omega

theorem pack565_tileMin_le (t : Tile) : (pack565 (tileMin t)).toNat ≤ (pack565 (tileMax t)).toNat :=
  have ⟨hr, hg, hb⟩ := isExtremes_tileMin_tileMax t
  pack565_le hr.lo_le_hi hg.lo_le_hi hb.lo_le_hi

/-- R452: the swap never happens. -/
theorem dxt1Endpoints_eq (t : Tile) :
    dxt1Endpoints t = ⟨pack565 (tileMax t), pack565 (tileMin t), tileMax t, tileMin t⟩ :=
  if_neg (Nat.not_lt.mpr (pack565_tileMin_le t))

/-! ### Index search -/

theorem absDiff_cast (v w : Nat) : (absDiff v w : Int) = |(v : Int) - w| := by
  unfold absDiff
  rcases le_total v w with h | h
  · rw [abs_of_nonpos (by omega)]; omega
  · rw [abs_of_nonneg (by omega)]; omega

theorem dist2_cast (p : Pixel) (q : Rgb) :
    (dist2 p q : Int) = ((p.r.toNat : Int) - q.r.toNat) ^ 2 + ((p.g.toNat : Int) - q.g.toNat) ^ 2 +
      ((p.b.toNat : Int) - q.b.toNat) ^ 2 := by
  simp only [dist2, Nat.cast_add, Nat.cast_pow, absDiff_cast, sq_abs]

/-- What the search finds, for a distance that a statement writes over the integers (R454, R457). -/
theorem nearest_spec {d : Nat → Nat} {D : Nat → Int} (hD : ∀ k, D k = d k) (n : Nat) :
    nearest d n ≤ n ∧ (∀ k, k ≤ n → D (nearest d n) ≤ D k) ∧ ∀ k, k < nearest d n → D (nearest d n) < D k := by
  refine ⟨nearest_le d n, fun k hk => ?_, fun k hk => ?_⟩
  · rw [hD, hD]
    exact_mod_cast nearest_min d hk
  · rw [hD, hD]
    exact_mod_cast nearest_first d hk

/-- Entries that are all as near give the first (R454, R457). -/
theorem nearest_eq_zero {d : Nat → Nat} {n : Nat} (h : d (nearest d n) = d 0) : nearest d n = 0 := by
  by_contra hne
  have hlt : d (nearest d n) < d 0 := nearest_first d (Nat.pos_of_ne_zero hne)
  omega

theorem dxt1Index_lt (p : Pixel) (e : Nat → Rgb) : dxt1Index p e < 4 := Nat.lt_succ_of_le (nearest_le _ 3)

theorem dxt5Index_le (a : Byte) (ap : Nat → Nat) : dxt5Index a ap ≤ 7 := nearest_le _ 7

theorem dxt5Index_eq_zero {a : Byte} {ap : Nat → Nat} (h : ∀ k, k ≤ 7 → ap k = ap 0) : dxt5Index a ap = 0 :=
  nearest_eq_zero (by rw [h _ (nearest_le _ 7)])

/-! ### Palettes of equal endpoints -/

theorem Rgb.map2_self {f : Nat → Nat → Nat} (hf : ∀ v, f v v = v) (p : Rgb) : Rgb.map2 f p p = p := by
  simp [Rgb.map2, hf]

theorem twoToOne_self (v : Nat) : twoToOne v v = v := by unfold twoToOne; omega

theorem oneToTwo_self (v : Nat) : oneToTwo v v = v := by unfold oneToTwo; omega

theorem eightStep_self (v : Nat) {j : Nat} (hj : j ≤ 5) : eightStep v v j = v :=
  le_antisymm (eightStep_le le_rfl le_rfl hj) (le_eightStep le_rfl le_rfl hj)

/-- The decoder's four-colour palette (R400). -/
theorem palettePixel_dxt1Palette_self (c : Half) {k : Nat} (hk : k < 4) :
    palettePixel (dxt1Palette c c false) k = (expand565 c).withAlpha 255 := by
  obtain ⟨h2, h3⟩ := palettePixel_dxt1Palette_of_fourColour (c0 := c) (c1 := c) (.inr (rfl : false = false))
  match k with
  | 0 => exact palettePixel_dxt1Palette_zero ..
  | 1 => exact palettePixel_dxt1Palette_one ..
  | 2 => rw [h2, Rgb.map2_self twoToOne_self]
  | 3 => rw [h3, Rgb.map2_self oneToTwo_self]

/-- The encoder's palette of quantized endpoints (R453). -/
theorem dxt1EncPalette_quantized_self {e : Endpoints} (h : e.color0 = e.color1) (k : Nat) :
    dxt1EncPalette .quantized565 e k = expand565 e.color0 := by
  match k with
  | 0 => rfl
  | 1 => simp only [dxt1EncPalette, h]
  | 2 => simp only [dxt1EncPalette, h, Rgb.map2_self twoToOne_self]
  | _ + 3 => simp only [dxt1EncPalette, h, Rgb.map2_self oneToTwo_self]

theorem dxt1Index_quantized_self {e : Endpoints} (h : e.color0 = e.color1) (p : Pixel) :
    dxt1Index p (dxt1EncPalette .quantized565 e) = 0 :=
  nearest_eq_zero (by simp only [dxt1EncPalette_quantized_self h])

theorem encAlphaPalette_self (v : Nat) {k : Nat} (hk : k ≤ 7) : encAlphaPalette v v k = v := by
  match k with
  | 0 => rfl
  | 1 => rfl
  | j + 2 => exact eightStep_self v (by omega)

/-! ### The fields of a compressed DXT1 block -/

/-- A little-endian number that stands in a byte list as a whole is the field read there. -/
theorem leField_leBytes {v n o : Nat} {as cs : List Byte} (ho : o = as.length) (hv : v < 256 ^ n) :
    leField (as ++ leBytes v n ++ cs) o n = v := by
  rw [leField_part as _ cs ho (leBytes_length v n).symm, leNat_leBytes, Nat.mod_eq_of_lt hv]

theorem blockColor0_compressDXT1 (src : Config.PaletteSource) (t : Tile) :
    blockColor0 (compressDXT1 src t) = pack565 (tileMax t) := by
  refine BitVec.eq_of_toNat_eq ?_
  rw [blockColor0_toNat, compressDXT1, dxt1Endpoints_eq, List.append_assoc]
  exact leField_leBytes (as := []) rfl (pack565 _).isLt

theorem blockColor1_compressDXT1 (src : Config.PaletteSource) (t : Tile) :
    blockColor1 (compressDXT1 src t) = pack565 (tileMin t) := by
  refine BitVec.eq_of_toNat_eq ?_
  rw [blockColor1_toNat, compressDXT1, dxt1Endpoints_eq]
  exact leField_leBytes rfl (pack565 _).isLt

theorem colorIndex_compressDXT1 (src : Config.PaletteSource) (t : Tile) {i : Nat} (hi : i < 16) :
    colorIndex (compressDXT1 src t) i = dxt1Index (t i) (dxt1EncPalette src (dxt1Endpoints t)) := by
  have hindex : ∀ i, dxt1Index (t i) (dxt1EncPalette src (dxt1Endpoints t)) < 2 ^ 2 := fun _ => dxt1Index_lt _ _
  have hfield : leField (compressDXT1 src t) 4 4 = dxt1IndexField src t := by
    rw [compressDXT1, ← List.append_nil (_ ++ leBytes _ 4)]
    exact leField_leBytes rfl (packFields_lt hindex 16)
  rw [colorIndex_eq, hfield]
  exact packFields_div_mod hindex hi

/-! ### The fields of a compressed DXT5 block -/

theorem alphaMax_toNat (t : Tile) : (BitVec.ofNat 8 (alphaMax t)).toNat = alphaMax t := toNat_ofNat_maxOver _

theorem alphaMin_toNat (t : Tile) : (BitVec.ofNat 8 (alphaMin t)).toNat = alphaMin t := toNat_ofNat_minOver _

theorem isExtremes_a (t : Tile) :
    IsExtremes (fun i => (t i).a) (BitVec.ofNat 8 (alphaMin t)) (BitVec.ofNat 8 (alphaMax t)) :=
  isExtremes_minOver_maxOver _

theorem compressDXT5_getD_zero (src : Config.PaletteSource) (t : Tile) :
    (compressDXT5 src t).getD 0 0 = BitVec.ofNat 8 (alphaMax t) := rfl

theorem compressDXT5_getD_one (src : Config.PaletteSource) (t : Tile) :
    (compressDXT5 src t).getD 1 0 = BitVec.ofNat 8 (alphaMin t) := rfl

theorem compressDXT5_drop (src : Config.PaletteSource) (t : Tile) :
    (compressDXT5 src t).drop 8 = compressDXT1 src t := List.drop_left' (dxt5AlphaHalf_length t)

theorem alphaIndex_compressDXT5 (src : Config.PaletteSource) (t : Tile) {i : Nat} (hi : i < 16) :
    alphaIndex (compressDXT5 src t) i = dxt5Index (t i).a (encAlphaPalette (alphaMax t) (alphaMin t)) := by
  have hindex : ∀ i, dxt5Index (t i).a (encAlphaPalette (alphaMax t) (alphaMin t)) < 2 ^ 3 := fun _ =>
    Nat.lt_succ_of_le (dxt5Index_le _ _)
  have hfield : leField (compressDXT5 src t) 2 6 = dxt5IndexField t :=
    leField_leBytes rfl (packFields_lt hindex 16)
  rw [alphaIndex_eq, hfield]
  exact packFields_div_mod hindex hi

theorem decodeDXT5_a (b : List Byte) (i : Nat) :
    (decodeDXT5 b i).a = dxt5AlphaPalette (b.getD 0 0) (b.getD 1 0) (alphaIndex b i) := rfl

/-- R404 against R457: with unequal endpoints the decoder takes the encoder's 8-step formula. -/
theorem dxt5AlphaPalette_eq_encAlphaPalette {a0 a1 : Byte} (h : a1.toNat < a0.toNat) {k : Nat} (hk : k ≤ 7) :
    (dxt5AlphaPalette a0 a1 k).toNat = encAlphaPalette a0.toNat a1.toNat k := by
  match k with
  | 0 => rfl
  | 1 => rfl
  | j + 2 => exact dxt5AlphaPalette_of_lt h (by omega)

/-- The entries of R457 as one formula in the entry's number. -/
theorem encAlphaPalette_eq (amax amin k : Nat) :
    encAlphaPalette amax amin k =
      if k = 0 then amax else if k = 1 then amin else ((6 - (k - 2)) * amax + (k - 1) * amin) / 7 := by
  match k with
  | 0 => rfl
  | 1 => rfl
  | _ + 2 => rfl

/-! ### The commands that store a block -/

theorem bytesWritten_storeBytes (m : Memory) (dst : Nat) (bs : List Byte) :
    BytesWritten m (m.writeAll (storeBytes dst bs)) dst bs.length fun k => bs.getD k 0 := by
  refine ⟨fun k hk => ?_, fun a ha => ?_⟩
  · rw [Memory.read_store, if_pos ⟨by omega, by omega⟩, Nat.add_sub_cancel_left]
  · rw [Memory.read_store, if_neg (by omega)]

/-- A command whose job encodes a tile leaves that tile's block in memory and gives its byte count (R470, R471). -/
theorem completesOk_of_tileEncodeJob {i : Instr} {s : State} {n : Nat} {enc : Tile → List Byte}
    (hjob : jobOf i s = tileEncodeJob enc s) (hlen : (enc (sourceTile s)).length = n) (hc : check i s.eng.snap = none)
    (hr : ReadsAccepted s.params i s.eng.snap) (hw : WritesAccepted s.params i s.eng.snap) :
    CompletesOk i s false n fun m =>
      BytesWritten s.mem m s.eng.snap.dst.toNat n fun k => (enc (sourceTile s)).getD k 0 := by
  subst hlen
  exact completesOk_of_accepted hjob hc hr hw (bytesWritten_storeBytes ..)

end Sys2Proof.Machine
end

section
/-! The statements about block encode and the commands that encode a tile, settled. -/

namespace Sys2Proof.Proofs

open Sys2Proof Sys2Proof.Machine

/-- Settles O18: clear spans are all the checks ask, and the accepted job stores the block of the tile it read. -/
theorem encDxt1TileStoresTheBlock : Obligations.EncDxt1TileStoresTheBlock := by
  intro s sn hs hr hw
  exact completesOk_of_tileEncodeJob (i := .encDxt1Tile) rfl (compressDXT1_length _ _)
    ((check_eq_none_iff _ _).mpr ⟨rfl, rfl, hs⟩) hr hw

/-- Settles O19, as O18. -/
theorem encDxt5TileStoresTheBlock : Obligations.EncDxt5TileStoresTheBlock := by
  intro s sn hs hr hw
  exact completesOk_of_tileEncodeJob (i := .encDxt5Tile) rfl (compressDXT5_length _ _)
    ((check_eq_none_iff _ _).mpr ⟨rfl, rfl, hs⟩) hr hw

/-- Settles O36: each channel's loop keeps the greatest and the least value met so far. -/
theorem endpointTriplesAreTheExtremes : Obligations.EndpointTriplesAreTheExtremes := by
  intro t c hc
  simp only [List.mem_cons, List.not_mem_nil, or_false] at hc
  obtain ⟨hr, hg, hb⟩ := isExtremes_tileMin_tileMax t
  have h : IsExtremes (fun i => c.1 (t i)) (c.2 (tileMin t)) (c.2 (tileMax t)) := by
    rcases hc with rfl | rfl | rfl
    · exact hr
    · exact hg
    · exact hb
  exact ⟨h.bounds, h.hi_attained, h.lo_attained⟩

/-- Settles O37: packing keeps the order of the extremes. -/
theorem endpointSwapNeverHappens : Obligations.EndpointSwapNeverHappens := fun t =>
  ⟨pack565_tileMin_le t, dxt1Endpoints_eq t⟩

/-- Settles O38: the search is on the squared distance, which the model computes without signed numbers. -/
theorem colourIndexIsNearestLowestFirst : Obligations.ColourIndexIsNearestLowestFirst := by
  intro p e d
  have hd : ∀ k, d k = (dist2 p (e k) : Int) := fun k => (dist2_cast p (e k)).symm
  obtain ⟨hle, hmin, hfirst⟩ := nearest_spec hd 3
  exact ⟨hle, hmin, hfirst, fun _ => rfl⟩

/-- Settles O39: each part of the block is the little-endian number of what was packed. -/
theorem dxt1BlockReadsBackAsEncoded : Obligations.Dxt1BlockReadsBackAsEncoded := by
  intro src t b
  exact ⟨compressDXT1_length src t, blockColor0_compressDXT1 src t, blockColor1_compressDXT1 src t,
    fun _ => colorIndex_compressDXT1 src t⟩

/-- Reds 100 to 103, which one RGB565 word stands for: RAW_MINMAX finds red 101 nearest to palette entry 3 (R456). -/
def redRamp : Tile := fun i => ⟨BitVec.ofNat 8 (100 + i % 4), 0, 0, 255⟩

/-- Settles O40: equal endpoint words leave the decoder one opaque colour and the transparent entry 3, which only an
encoder palette of unequal triples can choose. -/
theorem equalEndpointsDecode : Obligations.EqualEndpointsDecode := by
  refine ⟨?_, redRamp, 1, by decide, by decide⟩
  intro src t i hi b
  have h0 : blockColor0 b = pack565 (tileMax t) := blockColor0_compressDXT1 src t
  have h1 : blockColor1 b = pack565 (tileMin t) := blockColor1_compressDXT1 src t
  refine ⟨by rw [h0, h1]; exact pack565_tileMin_le t, fun heq => ⟨?_, fun hk => ?_, ?_⟩⟩
  · rw [decodeDXT1, ← heq, palettePixel_dxt1Palette_self _ (colorIndex_lt b i)]
  · obtain ⟨-, h3⟩ := palettePixel_dxt1Palette_of_threeColour (c0 := blockColor0 b) (c1 := blockColor1 b)
      (hasAlpha := true) (by simp [heq])
    rw [decodeDXT1, hk, h3]
  · rintro rfl
    have hwords : (dxt1Endpoints t).color0 = (dxt1Endpoints t).color1 := by
      rw [dxt1Endpoints_eq]
      exact h0.symm.trans (heq.trans h1)
    have hindex : colorIndex b i = 0 :=
      (colorIndex_compressDXT1 _ t hi).trans (dxt1Index_quantized_self hwords (t i))
    exact ⟨hindex, by rw [decodeDXT1, hindex, palettePixel_dxt1Palette_zero]⟩

/-- Settles O41: the alpha loops keep the extremes, and the search is on the absolute difference. -/
theorem dxt5AlphaHalfIsNearest : Obligations.Dxt5AlphaHalfIsNearest := by
  intro src t b amax amin ap d
  have hext := isExtremes_a t
  have hmax : amax = alphaMax t := alphaMax_toNat t
  have hmin : amin = alphaMin t := alphaMin_toNat t
  have hap : encAlphaPalette (alphaMax t) (alphaMin t) = ap := by
    rw [← hmax, ← hmin]
    exact funext (encAlphaPalette_eq amax amin)
  have hd : ∀ i k, |d i k| = (absDiff (t i).a.toNat (ap k) : Int) := fun i k => (absDiff_cast _ _).symm
  obtain ⟨imax, himax, hatmax⟩ := hext.hi_attained
  obtain ⟨imin, himin, hatmin⟩ := hext.lo_attained
  refine ⟨compressDXT5_length src t, compressDXT5_drop src t, hext.bounds, ⟨imax, himax, congrArg _ hatmax⟩,
    ⟨imin, himin, congrArg _ hatmin⟩, fun i hi => ?_⟩
  have hindex : alphaIndex b i = dxt5Index (t i).a ap := hap ▸ alphaIndex_compressDXT5 src t hi
  rw [hindex]
  exact nearest_spec (hd i) 7

/-- Settles O42: unequal endpoints select the 8-step branch in the decoder; equal ones make entry 0 the nearest of
eight equal entries, and both branches have the endpoint there. -/
theorem dxt5AlphaDecodesAsEncoded : Obligations.Dxt5AlphaDecodesAsEncoded := by
  intro src t i hi b ap
  have hmax : (b.getD 0 0).toNat = alphaMax t := alphaMax_toNat t
  have hmin : (b.getD 1 0).toNat = alphaMin t := alphaMin_toNat t
  have hindex : alphaIndex b i = dxt5Index (t i).a ap := alphaIndex_compressDXT5 src t hi
  refine ⟨fun hlt => ?_, fun heq => ?_⟩
  · have hpal : ∀ k, k ≤ 7 → (dxt5AlphaPalette (b.getD 0 0) (b.getD 1 0) k).toNat = ap k := fun k hk => by
      rw [dxt5AlphaPalette_eq_encAlphaPalette (by rwa [hmax, hmin]) hk, hmax, hmin]
    refine ⟨hpal, ?_⟩
    rw [decodeDXT5_a, hindex]
    exact hpal _ (dxt5Index_le _ _)
  · have hpal : ∀ k, k ≤ 7 → ap k = alphaMax t := fun k hk => by
      simp only [ap, heq]
      exact encAlphaPalette_self _ hk
    have hzero : alphaIndex b i = 0 := hindex.trans (dxt5Index_eq_zero hpal)
    obtain ⟨hlo, hhi⟩ := (isExtremes_a t).bounds i hi
    rw [alphaMin_toNat] at hlo
    rw [alphaMax_toNat] at hhi
    refine ⟨hpal, hzero, BitVec.eq_of_toNat_eq ?_⟩
    calc (decodeDXT5 b i).a.toNat = (b.getD 0 0).toNat := by rw [decodeDXT5_a, hzero]; rfl
      _ = (t i).a.toNat := by omega

end Sys2Proof.Proofs
end

section
/-! SUPPORT. The image commands: their completion (R520, R521), what the writes of a converter image and of a clipped
block image leave in memory (R327, R514), and the fill of the edges (R515). -/

namespace Sys2Proof.Machine

open Sys2Proof

/-! ### The formats of the image commands -/

/-- The formats `DEC_IMAGE` decodes, as the list of R510. -/
theorem Format.decodable_iff (f : Format) :
    Format.decodable f = true ↔
      f ∈ [Format.rgba8888, .abgr8888, .rgb888, .bgr888, .i8, .ia88, .a8, .argb8888, .bgra8888, .bgrx8888, .dxt1,
        .dxt3, .dxt5, .dxt1OneBitAlpha] := by
  cases f <;> simp [Format.decodable]

/-- The converter gives a pixel for every pixel format of `DEC_SET` (R500, R510). -/
theorem exists_decodePixel {f : Format} {n : Nat} (hf : Format.decodable f = true) (hn : Format.bpp f = some n)
    (p : List Byte) : ∃ q, decodePixel f p = some q := by
  cases f with
  | rgba8888 | abgr8888 | rgb888 | bgr888 | i8 | ia88 | a8 | argb8888 | bgra8888 | bgrx8888 => exact ⟨_, rfl⟩
  | dxt1 | dxt3 | dxt5 | dxt1OneBitAlpha => cases hn
  | _ => cases hf

theorem blockDecoder_of_bpp {f : Format} {n : Nat} (hn : Format.bpp f = some n) : blockDecoder f = none := by
  cases f with
  | dxt1 | dxt3 | dxt5 | dxt1OneBitAlpha => cases hn
  | _ => rfl

theorem blockEncoder_of_bpp {src : Config.PaletteSource} {f : Format} {n : Nat} (hn : Format.bpp f = some n) :
    blockEncoder src f = none := by
  cases f with
  | dxt1 | dxt5 => cases hn
  | _ => rfl

/-- A pixel format of `ENC_SET` stores its pixels in `bpp` bytes each (R501, R511). -/
theorem encodePixel_getD_length {f : Format} {n : Nat} (hf : Format.encodable f = true) (hn : Format.bpp f = some n)
    (q : Pixel) : ((encodePixel f q).getD []).length = n := by
  rcases encodable_cases hf .rawMinMax with ⟨-, _, -, hb⟩ | ⟨-, n', hn', hlen⟩
  · rw [Format.bsize_of_bpp hn] at hb
    cases hb
  · rw [hlen, ← Option.some_inj, ← hn', hn]

/-! ### The completion of an image command -/

section Completion
variable {f : Format} {s : State} {slen dlen : Nat} {P : Memory → Prop}

/-- An image command of a format it takes, its dimensions positive, its spans clear and its accesses accepted,
completes its job (R172, R620). -/
theorem completesOk_of_imageCommand {i : Instr} (hi : ∃ f, i = .encImage f ∨ i = .decImage f)
    (hf : formatFail i = false) (hlen : spanLengths i s.eng.snap = (slen, dlen)) (hw0 : s.eng.snap.width.toNat ≠ 0)
    (hh0 : s.eng.snap.height.toNat ≠ 0) (hs : SpansClear ⟨s.eng.snap.src.toNat, slen, s.eng.snap.dst.toNat, dlen⟩)
    (hr : CanRead s.params s.eng.snap.src.toNat slen) (hw : CanWrite s.params s.eng.snap.dst.toNat dlen)
    (hP : P (s.mem.writeAll (jobOf i s).writes)) : CompletesOk i s (jobOf i s).warn (jobOf i s).result P := by
  have hspans : spansOf i s.eng.snap = ⟨s.eng.snap.src.toNat, slen, s.eng.snap.dst.toNat, dlen⟩ := by
    rw [spansOf, hlen]
  have hc : check i s.eng.snap = none :=
    (check_eq_none_iff _ _).mpr ⟨dimsFail_of_pos i hw0 hh0, hf, hspans ▸ hs⟩
  have hr' : CanRead s.params s.eng.snap.src.toNat (spansOf i s.eng.snap).slen := hspans ▸ hr
  have hw' : CanWrite s.params s.eng.snap.dst.toNat (spansOf i s.eng.snap).dlen := hspans ▸ hw
  obtain ⟨f, rfl | rfl⟩ := hi <;> exact completesOk_of_accepted rfl hc hr' hw' hP

/-- `DEC_IMAGE` gives the size of the RGBA8 image (R520). -/
theorem decodeImageJob_result (f : Format) (s : State) :
    (decodeImageJob f s).result = 4 * (s.eng.snap.width.toNat * s.eng.snap.height.toNat) := by
  rw [← mul_assoc]
  rcases decodable_cases f with ⟨dec, bs, -, hd, hb⟩ | ⟨n, hf, hd, hn⟩ | ⟨hf, hd⟩
  · simp only [decodeImageJob, hd, hb, decodeBlockImage]
  · simp only [decodeImageJob, hd, hf, hn, decodePixelImage]
  · simp only [decodeImageJob, hd, hf, fillImage]

/-- `DEC_IMAGE` warns exactly of a format it does not decode (R512). -/
theorem decodeImageJob_warn (f : Format) (s : State) : (decodeImageJob f s).warn = !Format.decodable f := by
  rcases decodable_cases f with ⟨dec, bs, hf, hd, hb⟩ | ⟨n, hf, hd, hn⟩ | ⟨hf, hd⟩
  · simp only [decodeImageJob, hd, hb, hf, decodeBlockImage, Bool.not_true]
  · simp only [decodeImageJob, hd, hf, hn, decodePixelImage, Bool.not_true]
  · simp only [decodeImageJob, hd, hf, fillImage, Bool.not_false]

/-- `ENC_IMAGE` gives the size of the encoded image and never warns (R521). -/
theorem encodeImageJob_result_warn (f : Format) (s : State) :
    (encodeImageJob f s).result = imageBytes s.eng.snap.width.toNat s.eng.snap.height.toNat f ∧
      (encodeImageJob f s).warn = false := by
  unfold encodeImageJob
  split <;> exact ⟨rfl, rfl⟩

/-- The completion of `DEC_IMAGE` (R520, R512). -/
theorem completesOk_decImage {warn : Bool} (hwarn : (!Format.decodable f) = warn)
    (hlen : (if Format.decodable f then imageBytes s.eng.snap.width.toNat s.eng.snap.height.toNat f else 0) = slen)
    (hw0 : s.eng.snap.width.toNat ≠ 0) (hh0 : s.eng.snap.height.toNat ≠ 0)
    (hs : SpansClear ⟨s.eng.snap.src.toNat, slen, s.eng.snap.dst.toNat,
      4 * (s.eng.snap.width.toNat * s.eng.snap.height.toNat)⟩)
    (hr : CanRead s.params s.eng.snap.src.toNat slen)
    (hw : CanWrite s.params s.eng.snap.dst.toNat (4 * (s.eng.snap.width.toNat * s.eng.snap.height.toNat)))
    (hP : P (s.mem.writeAll (decodeImageJob f s).writes)) :
    CompletesOk (.decImage f) s warn (4 * (s.eng.snap.width.toNat * s.eng.snap.height.toNat)) P := by
  rw [← hwarn, ← decodeImageJob_warn f s, ← decodeImageJob_result f s]
  refine completesOk_of_imageCommand ⟨f, .inr rfl⟩ rfl ?_ hw0 hh0 hs hr hw hP
  rw [spanLengths, hlen, mul_comm 4]

/-- The completion of `ENC_IMAGE` (R521). -/
theorem completesOk_encImage (hf : Format.encodable f = true)
    (hlen : imageBytes s.eng.snap.width.toNat s.eng.snap.height.toNat f = dlen)
    (hw0 : s.eng.snap.width.toNat ≠ 0) (hh0 : s.eng.snap.height.toNat ≠ 0)
    (hs : SpansClear ⟨s.eng.snap.src.toNat, 4 * (s.eng.snap.width.toNat * s.eng.snap.height.toNat),
      s.eng.snap.dst.toNat, dlen⟩)
    (hr : CanRead s.params s.eng.snap.src.toNat (4 * (s.eng.snap.width.toNat * s.eng.snap.height.toNat)))
    (hw : CanWrite s.params s.eng.snap.dst.toNat dlen)
    (hP : P (s.mem.writeAll (encodeImageJob f s).writes)) : CompletesOk (.encImage f) s false dlen P := by
  obtain ⟨hresult, hwarn⟩ := encodeImageJob_result_warn f s
  rw [← hwarn, ← hlen, ← hresult]
  refine completesOk_of_imageCommand ⟨f, .inl rfl⟩ (by rw [formatFail, hf]; rfl) ?_ hw0 hh0 hs hr hw hP
  rw [spanLengths, hlen, mul_comm 4]

end Completion

/-! ### What the writes of an image leave -/

/-- The clipped writes of an image's blocks are one write of each image pixel, from its place in its block's tile
(R514). -/
theorem mem_gridList_blockWrites {dst w h : Nat} {t : Nat → Nat → Tile} {v : Nat × Byte} :
    v ∈ gridList (ceilDiv w 4) (ceilDiv h 4) (fun bx by' => blockWrites dst w h bx by' (t bx by')) ↔
      v ∈ gridList w h fun x y => putPixel dst w x y (t (x / 4) (y / 4) (4 * (y % 4) + x % 4)) := by
  simp only [mem_gridList, blockWrites, ceilDiv_four]
  constructor
  · rintro ⟨bx, by', -, -, x, y, hx, hy, hv⟩
    split at hv
    · next hin =>
      refine ⟨4 * bx + x, 4 * by' + y, hin.1, hin.2, ?_⟩
      rwa [show (4 * bx + x) / 4 = bx by omega, show (4 * bx + x) % 4 = x by omega,
        show (4 * by' + y) / 4 = by' by omega, show (4 * by' + y) % 4 = y by omega]
    · cases hv
  · rintro ⟨x, y, hx, hy, hv⟩
    refine ⟨x / 4, y / 4, by omega, by omega, x % 4, y % 4, by omega, by omega, ?_⟩
    rwa [Nat.div_add_mod, Nat.div_add_mod, if_pos ⟨hx, hy⟩]

/-- Byte writes that are those of an image stored item by item, in any order, write that image. -/
theorem imageWritten_of_mem_iff {m : Memory} {ws : List (Nat × Byte)} {dst n w h : Nat}
    {item : Nat → Nat → List Byte} (hlen : ∀ x y, x < w → y < h → (item x y).length = n)
    (hws : ∀ v, v ∈ ws ↔ v ∈ gridList w h fun x y => storeBytes (imageAddr dst n w x y) (item x y)) :
    ImageWritten m (m.writeAll ws) dst n w h item := by
  refine imageWritten_of_writes (fun v hv => ?_) fun x y k hx hy hk => (hws _).mpr ?_
  · obtain ⟨x, y, hx, hy, hv⟩ := mem_gridList.mp ((hws v).mp hv)
    obtain ⟨k, hk, rfl⟩ := mem_storeBytes.mp hv
    exact ⟨x, y, k, hx, hy, by rwa [hlen x y hx hy] at hk, rfl⟩
  · exact mem_gridList.mpr ⟨x, y, hx, hy, mem_storeBytes.mpr ⟨k, by rwa [hlen x y hx hy], rfl⟩⟩

section Written
variable {f : Format} {s : State}

/-- What `DEC_IMAGE` of a converter format leaves in memory (R520). -/
theorem imageWritten_decodeImageJob_of_bpp {n : Nat} (hf : Format.decodable f = true) (hn : Format.bpp f = some n) :
    ImageWritten s.mem (s.mem.writeAll (decodeImageJob f s).writes) s.eng.snap.dst.toNat 4 s.eng.snap.width.toNat
      s.eng.snap.height.toNat fun x y =>
        ((decodePixel f (s.mem.bytes (imageAddr s.eng.snap.src.toNat n s.eng.snap.width.toNat x y) n)).getD
          magenta).bytes := by
  simp only [decodeImageJob, blockDecoder_of_bpp hn, hf, hn, decodePixelImage, putPixel]
  exact imageWritten_gridList _ _ _ _ _ _ fun _ _ _ _ => Pixel.bytes_length _

/-- What `DEC_IMAGE` of a block format leaves in memory (R520, R514). -/
theorem imageWritten_decodeImageJob_of_bsize {bs : Nat} {dec : List Byte → Tile} (hd : blockDecoder f = some dec)
    (hb : Format.bsize f = some bs) :
    ImageWritten s.mem (s.mem.writeAll (decodeImageJob f s).writes) s.eng.snap.dst.toNat 4 s.eng.snap.width.toNat
      s.eng.snap.height.toNat fun x y =>
        (dec (s.mem.bytes (blockAddr s.eng.snap.src.toNat bs s.eng.snap.width.toNat (x / 4) (y / 4)) bs)
          (4 * (y % 4) + x % 4)).bytes := by
  simp only [decodeImageJob, hd, hb, decodeBlockImage]
  exact imageWritten_of_mem_iff (fun _ _ _ _ => Pixel.bytes_length _) fun _ => mem_gridList_blockWrites

/-- What `DEC_IMAGE` of a format it does not decode leaves in memory (R512). -/
theorem imageWritten_decodeImageJob_of_not_decodable (hf : Format.decodable f = false) :
    ImageWritten s.mem (s.mem.writeAll (decodeImageJob f s).writes) s.eng.snap.dst.toNat 4 s.eng.snap.width.toNat
      s.eng.snap.height.toNat fun _ _ => magenta.bytes := by
  rcases decodable_cases f with ⟨_, _, hf', -⟩ | ⟨_, hf', -⟩ | ⟨-, hd⟩
  · rw [hf] at hf'; cases hf'
  · rw [hf] at hf'; cases hf'
  · simp only [decodeImageJob, hd, hf, fillImage, putPixel]
    exact imageWritten_gridList _ _ _ _ _ _ fun _ _ _ _ => Pixel.bytes_length _

/-- What `ENC_IMAGE` to a converter format leaves in memory (R521). -/
theorem imageWritten_encodeImageJob_of_bpp {n : Nat} (hf : Format.encodable f = true) (hn : Format.bpp f = some n) :
    ImageWritten s.mem (s.mem.writeAll (encodeImageJob f s).writes) s.eng.snap.dst.toNat n s.eng.snap.width.toNat
      s.eng.snap.height.toNat fun x y =>
        (encodePixel f (readPixel s.mem (imageAddr s.eng.snap.src.toNat 4 s.eng.snap.width.toNat x y))).getD [] := by
  simp only [encodeImageJob, blockEncoder_of_bpp hn, hn, encodePixelImage, Option.getD_some]
  exact imageWritten_gridList _ _ _ _ _ _ fun _ _ _ _ => encodePixel_getD_length hf hn _

/-- What `ENC_IMAGE` to a block format leaves in memory: the blocks as the items of an image (R521, R327). -/
theorem imageWritten_encodeImageJob_of_bsize {bs : Nat} {enc : Tile → List Byte}
    (he : blockEncoder s.params.paletteSource f = some enc) (hb : Format.bsize f = some bs) :
    ImageWritten s.mem (s.mem.writeAll (encodeImageJob f s).writes) s.eng.snap.dst.toNat bs
      (ceilDiv s.eng.snap.width.toNat 4) (ceilDiv s.eng.snap.height.toNat 4) fun bx by' =>
        enc (edgeTile s.params.edgeFill s.mem s.eng.snap.src.toNat s.eng.snap.width.toNat s.eng.snap.height.toNat
          bx by') := by
  simp only [encodeImageJob, he, hb, encodeBlockImage]
  exact imageWritten_gridList _ _ _ _ _ _ fun _ _ _ _ => blockEncoder_length he hb _

end Written

/-! ### The edges of a block image -/

theorem clampCoord_of_lt {n size : Nat} (h : n < size) : clampCoord n size = n := min_eq_left (by omega)

/-- Clamping a coordinate of a block that meets the image stays inside both the block and the image (R515). -/
theorem clampCoord_in_block {b k size : Nat} (hb : 4 * b < size) (hk : k < 4) :
    ∃ k', k' < 4 ∧ 4 * b + k' < size ∧ clampCoord (4 * b + k) size = 4 * b + k' := by
  unfold clampCoord
  exact ⟨min (4 * b + k) (size - 1) - 4 * b, by omega, by omega, by omega⟩

/-- Under `CLAMP` a tile position shows the image pixel at its clamped coordinates (R515). -/
theorem edgeTile_clamp (m : Memory) (src w h bx by' i : Nat) :
    edgeTile .clamp m src w h bx by' i =
      readPixel m (imageAddr src 4 w (clampCoord (4 * bx + i % 4) w) (clampCoord (4 * by' + i / 4) h)) := rfl

end Sys2Proof.Machine
end

section
/-! The statements about pixel conversion and the image commands, settled. -/

namespace Sys2Proof.Proofs

open Sys2Proof Sys2Proof.Machine

/-- Settles O44: each row of the table is the definition's, byte by byte. -/
theorem pixelDecodeTable : Obligations.PixelDecodeTable := fun _ _ _ _ =>
  ⟨rfl, rfl, rfl, rfl, rfl, rfl, rfl, rfl, rfl, rfl⟩

/-- Settles O45: the bytes a pixel encodes to, looked up in the table of O44. -/
theorem pixelRoundTrips : Obligations.PixelRoundTrips := by
  intro q
  obtain ⟨hrgba, -, hrgb, -⟩ := pixelDecodeTable q.r q.g q.b q.a
  obtain ⟨-, -, -, hbgr, -, -, -, -, hbgra, -⟩ := pixelDecodeTable q.b q.g q.r q.a
  exact ⟨hrgba, hbgra, hrgb, hbgr⟩

/-- Settles O20: a converter format decodes every list of bytes, so that the image holds no magenta. -/
theorem decImageConvertsEveryPixel : Obligations.DecImageConvertsEveryPixel := by
  intro s f n sn w h hmem hn hw0 hh0 hs hr hw
  have hf : Format.decodable f = true :=
    (Format.decodable_iff f).mpr (List.mem_append_left [Format.dxt1, .dxt3, .dxt5, .dxt1OneBitAlpha] hmem)
  refine completesOk_decImage (by rw [hf]; rfl) (by rw [if_pos hf, imageBytes_of_bpp hw0 hh0 hn]) hw0 hh0 hs hr hw ?_
  convert imageWritten_decodeImageJob_of_bpp hf hn using 3 with x y
  obtain ⟨q, hq⟩ := exists_decodePixel hf hn (s.mem.bytes (sn.src.toNat + n * (y * w + x)) n)
  rw [imageAddr, hq]
  rfl

/-- Settles O21: the blocks' clipped writes are one write of each image pixel. -/
theorem decImageDecodesEveryBlock : Obligations.DecImageDecodesEveryBlock := by
  intro s f bs dec sn w h bw bh hcase hw0 hh0 hs hr hw
  obtain ⟨hf, hd, hb⟩ : Format.decodable f = true ∧ blockDecoder f = some dec ∧ Format.bsize f = some bs := by
    rcases hcase with ⟨rfl, rfl, rfl⟩ | ⟨rfl, rfl, rfl⟩ | ⟨rfl, rfl, rfl⟩ | ⟨rfl, rfl, rfl⟩ <;>
      exact ⟨rfl, rfl, rfl⟩
  refine completesOk_decImage (by rw [hf]; rfl) (by rw [if_pos hf, imageBytes_of_bsize hw0 hh0 hb]) hw0 hh0 hs hr hw ?_
  simpa only [blockAddr, ceilDiv_four] using imageWritten_decodeImageJob_of_bsize hd hb

/-- Settles O22: such a format reads no byte, so that its source span is empty and clear of the destination. -/
theorem decImageOfUnsupportedFormatIsMagenta : Obligations.DecImageOfUnsupportedFormatIsMagenta := by
  intro s f sn w h hmem hw0 hh0 hfits hw
  have hf : Format.decodable f = false := Bool.eq_false_iff.mpr fun hf => hmem ((Format.decodable_iff f).mp hf)
  have hclear : SpansClear ⟨sn.src.toNat, 0, sn.dst.toNat, 4 * (w * h)⟩ := ⟨sn.src.isLt.le, hfits, .inl rfl⟩
  exact completesOk_decImage (by rw [hf]; rfl) (by rw [hf]; rfl) hw0 hh0 hclear
    (fun _ hk => absurd hk (Nat.not_lt_zero _)) hw (imageWritten_decodeImageJob_of_not_decodable hf)

/-- Settles O23: every pixel of a converter format takes `bpp` bytes, so that the stored pixels make a packed image. -/
theorem encImageConvertsEveryPixel : Obligations.EncImageConvertsEveryPixel := by
  intro s f n sn w h hmem hn hw0 hh0 hs hr hw
  have hf : Format.encodable f = true := by
    simp only [List.mem_cons, List.not_mem_nil, or_false] at hmem
    rcases hmem with rfl | rfl | rfl | rfl <;> rfl
  refine completesOk_encImage hf (imageBytes_of_bpp hw0 hh0 hn) hw0 hh0 hs hr hw ?_
  convert imageWritten_encodeImageJob_of_bpp hf hn using 3 with x y
  change _ = (encodePixel f (pixelAt s.mem (sn.src.toNat + 4 * (y * w + x)))).getD []
  cases encodePixel f (pixelAt s.mem (sn.src.toNat + 4 * (y * w + x))) <;> rfl

/-- Settles O24: the blocks are the items of a packed image of `bs` bytes each, and a tile's positions are filled as
`EDGE_FILL` says. -/
theorem encImageEncodesEveryBlock : Obligations.EncImageEncodesEveryBlock := by
  intro s f bs enc sn w h bw bh pixel edge hcase hw0 hh0 hs hr hw
  obtain ⟨hf, he, hb⟩ : Format.encodable f = true ∧ blockEncoder s.params.paletteSource f = some enc ∧
      Format.bsize f = some bs := by
    rcases hcase with ⟨rfl, rfl, rfl⟩ | ⟨rfl, rfl, rfl⟩ <;> exact ⟨rfl, rfl, rfl⟩
  have hedge : ∀ x y, edgePixel s.params.edgeFill s.mem sn.src.toNat w h x y = edge x y := fun x y => by
    unfold edgePixel edge
    cases s.params.edgeFill <;> rfl
  refine completesOk_encImage hf (imageBytes_of_bsize hw0 hh0 hb) hw0 hh0 hs hr hw ?_
  have hwritten := imageWritten_encodeImageJob_of_bsize he hb
  unfold edgeTile at hwritten
  simpa only [ceilDiv_four, ← hedge] using hwritten

/-- Settles O43: a fill position shows the pixel at its clamped coordinates, which are those of a position of the same
tile inside the image. -/
theorem clampFillCopiesImagePixels : Obligations.ClampFillCopiesImagePixels := by
  intro m src w h bx by' hbx hby t inside
  have hinside : ∀ i, inside i → t i = pixelAt m (src + 4 * ((4 * by' + i / 4) * w + (4 * bx + i % 4))) := by
    rintro i ⟨hx, hy⟩
    simp only [t, edgeTile_clamp, clampCoord_of_lt hx, clampCoord_of_lt hy]
    rfl
  refine ⟨fun i _ => hinside i, fun i hi => ?_⟩
  obtain ⟨x, hx4, hxw, hx⟩ := clampCoord_in_block hbx (k := i % 4) (by omega)
  obtain ⟨y, hy4, hyh, hy⟩ := clampCoord_in_block hby (k := i / 4) (by omega)
  have hcol : (4 * y + x) % 4 = x := by omega
  have hrow : (4 * y + x) / 4 = y := by omega
  have hin : inside (4 * y + x) := ⟨by rwa [hcol], by rwa [hrow]⟩
  refine ⟨4 * y + x, by omega, hin, ?_⟩
  rw [hinside _ hin, hcol, hrow]
  simp only [t, edgeTile_clamp, hx, hy]
  rfl

end Sys2Proof.Proofs
end

section
/-! SUPPORT. Mip downsampling: which source columns and rows a footprint holds and the channels of an average (R550,
R551), the completion of MIP_DOWN (R560), and the dimensions along a chain of halvings (R552). -/

namespace Sys2Proof.Machine

open Sys2Proof

/-! ### Footprints -/

/-- In a source of two columns or more no footprint is cut: the odd last column belongs to none. -/
theorem footprint_of_two_le {x size : Nat} (hs : 2 ≤ size) (hx : x < halved size) :
    footprint x size = [2 * x, 2 * x + 1] := by
  unfold halved at hx
  refine List.filter_eq_self.mpr fun sx hsx => decide_eq_true ?_
  simp only [List.mem_cons, List.not_mem_nil, or_false] at hsx
  omega

/-- In a source of one column the only footprint is that column. -/
theorem footprint_one {x : Nat} (hx : x < halved 1) : footprint x 1 = [0] := by
  obtain rfl : x = 0 := Nat.lt_one_iff.mp hx
  rfl

/-! ### Averages -/

/-- R550: each channel of the average pixel is the average of that channel, which 8 bits hold. -/
theorem averagePixel_channel {c : Pixel → Byte} (hc : c ∈ [Pixel.r, Pixel.g, Pixel.b, Pixel.a]) (ps : List Pixel) :
    (c (averagePixel ps)).toNat = average (ps.map fun p => (c p).toNat) := by
  have hstore : ∀ d : Pixel → Byte, (BitVec.ofNat 8 (average (ps.map fun p => (d p).toNat))).toNat =
      average (ps.map fun p => (d p).toNat) := fun d =>
    Nat.mod_eq_of_lt (average_lt (List.forall_mem_map.mpr fun p _ => (d p).isLt))
  simp only [List.mem_cons, List.not_mem_nil, or_false] at hc
  rcases hc with rfl | rfl | rfl | rfl <;> exact hstore _

theorem averagePixel_singleton (p : Pixel) : averagePixel [p] = p := by
  simp [averagePixel, average]

/-! ### The command MIP_DOWN -/

/-- The result of MIP_DOWN has the new height above the new width, which has 16 bits (R560, R118). -/
theorem mipDownJob_result (s : State) :
    (mipDownJob s).result = halved s.eng.snap.height.toNat * 65536 + halved s.eng.snap.width.toNat := by
  have hfits : halved s.eng.snap.width.toNat < 2 ^ 16 := by
    have := s.eng.snap.width.isLt
    unfold halved
    omega
  rw [mipDownJob, ← Nat.shiftLeft_add_eq_or_of_lt hfits, Nat.shiftLeft_eq]

/-- What MIP_DOWN leaves in memory (R560). -/
theorem imageWritten_mipDownJob (s : State) :
    ImageWritten s.mem (s.mem.writeAll (mipDownJob s).writes) s.eng.snap.dst.toNat 4 (halved s.eng.snap.width.toNat)
      (halved s.eng.snap.height.toNat) fun x y =>
        (downsample s.mem s.eng.snap.src.toNat s.eng.snap.width.toNat s.eng.snap.height.toNat x y).bytes :=
  imageWritten_gridList _ _ _ _ _ _ fun _ _ _ _ => Pixel.bytes_length _

/-! ### The mip chain -/

/-- R552: halving never goes below 1, and otherwise is a shift by one place. -/
theorem iterate_halved {n : Nat} (hn : n ≠ 0) (k : Nat) : halved^[k] n = max 1 (n >>> k) := by
  induction k with
  | zero => exact (max_eq_right (Nat.one_le_iff_ne_zero.mpr hn)).symm
  | succ k ih =>
    rw [Function.iterate_succ_apply', ih, Nat.shiftRight_succ, halved]
    omega

/-- A dimension has come down to 1 exactly when at most its lowest `k + 1` bits are set. -/
theorem iterate_halved_eq_one_iff {n : Nat} (hn : n ≠ 0) (k : Nat) : halved^[k] n = 1 ↔ n < 2 ^ (k + 1) := by
  rw [iterate_halved hn, Nat.shiftRight_eq_div_pow, max_eq_left_iff, ← Nat.lt_succ_iff,
    Nat.div_lt_iff_lt_mul (Nat.two_pow_pos k), pow_succ']

end Sys2Proof.Machine
end

section
/-! The statements about mip downsampling, settled. -/

namespace Sys2Proof.Proofs

open Sys2Proof Sys2Proof.Machine

/-- Settles O25: the job's grid of averages is a packed image, and its reads are the pixels of the footprints. -/
theorem mipDownWritesTheNextLevel : Obligations.MipDownWritesTheNextLevel := by
  intro s sn w h nw nh hw0 hh0 hs hr hw
  have hspans : spansOf .mipDown sn = ⟨sn.src.toNat, 4 * (w * h), sn.dst.toNat, 4 * (nw * nh)⟩ := by
    rw [mul_comm 4, mul_comm 4]
    rfl
  have hc : check .mipDown sn = none :=
    (check_eq_none_iff _ _).mpr ⟨dimsFail_of_pos .mipDown hw0 hh0, rfl, hspans ▸ hs⟩
  have hwrites : CanWrite s.params sn.dst.toNat (spansOf .mipDown sn).dlen := hspans ▸ hw
  have hresult : (mipDownJob s).result = nh * 65536 + nw := mipDownJob_result s
  rw [← hresult]
  exact completesOk_of_accepted rfl hc hr hwrites (imageWritten_mipDownJob s)

/-- Settles O28: a dimension of 2 or more gives two columns or rows, a dimension of 1 the only one. -/
theorem mipSampleCounts : Obligations.MipSampleCounts := by
  intro m src w h x y _ _ hx hy p out c hc
  have hout : out = averagePixel ((footprint y h).flatMap fun sy => (footprint x w).map fun sx => p sx sy) := rfl
  refine ⟨fun hw2 hh2 => ?four, fun hw2 hh1 => ?row, fun hw1 hh2 => ?column, fun hw1 hh1 => ?one⟩
  case four =>
    rw [hout, footprint_of_two_le hw2 hx, footprint_of_two_le hh2 hy, averagePixel_channel hc]
    simp [average, add_assoc]
  case row =>
    subst hh1
    rw [hout, footprint_of_two_le hw2 hx, footprint_one hy, averagePixel_channel hc]
    simp [average]
  case column =>
    subst hw1
    rw [hout, footprint_one hx, footprint_of_two_le hh2 hy, averagePixel_channel hc]
    simp [average]
  case one =>
    subst hw1 hh1
    rw [hout, footprint_one hx, footprint_one hy]
    exact averagePixel_singleton (p 0 0)

/-- Settles O29: both dimensions have come down to 1 when the larger one has, which its logarithm tells. -/
theorem mipChainDimensions : Obligations.MipChainDimensions := by
  intro w h k hw hh
  refine ⟨iterate_halved hw k, ?_⟩
  calc halved^[k] w = 1 ∧ halved^[k] h = 1
      ↔ w < 2 ^ (k + 1) ∧ h < 2 ^ (k + 1) := by rw [iterate_halved_eq_one_iff hw, iterate_halved_eq_one_iff hh]
    _ ↔ max w h < 2 ^ (k + 1) := max_lt_iff.symm
    _ ↔ Nat.log2 (max w h) < k + 1 := (Nat.log2_lt (by omega)).symm
    _ ↔ Nat.log2 (max w h) ≤ k := Nat.lt_succ_iff

end Sys2Proof.Proofs
end

section
/-! SUPPORT. The size of an image (R580, R581): one formula for the block formats, one for the pixel formats, none for
the unknown codes, and its bound; and the checks of the command SIZE (R582, R620). -/

namespace Sys2Proof.Machine

open Sys2Proof

/-! ### The image size -/

/-- The size of an image of a block format, a block the image covers in part counted whole (R581). -/
theorem calculateImageSize_of_bsize {w h bs : Nat} {f : Format} (hb : Format.bsize f = some bs) :
    calculateImageSize w h f = some ((max 1 w + 3) / 4 * ((max 1 h + 3) / 4) * bs) := by
  simp only [calculateImageSize, hb, ceilDiv_four]

/-- The size of a packed image of a pixel format (R581). -/
theorem calculateImageSize_of_bpp {w h n : Nat} {f : Format} (hb : Format.bpp f = some n) :
    calculateImageSize w h f = some (max 1 w * max 1 h * n) := by
  simp only [calculateImageSize, Format.bsize_of_bpp hb, hb]

@[simp] theorem calculateImageSize_unknown (w h : Nat) (c : Byte) : calculateImageSize w h (.unknown c) = none := rfl

/-- A format is a block format, a pixel format or an unknown code (R330); no block and no pixel passes 16 bytes. -/
theorem Format.bsize_or_bpp_or_unknown (f : Format) :
    (∃ bs, Format.bsize f = some bs ∧ bs ≤ 16) ∨ (∃ n, Format.bpp f = some n ∧ n ≤ 16) ∨ ∃ c, f = .unknown c := by
  cases f with
  | dxt1 | dxt1OneBitAlpha | dxt3 | dxt5 => exact .inl ⟨_, rfl, by decide⟩
  | unknown c => exact .inr (.inr ⟨c, rfl⟩)
  | _ => exact .inr (.inl ⟨_, rfl, by decide⟩)

/-- Two 16-bit dimensions at no more than 16 bytes a position stay below 2^36. -/
theorem mul_mul_lt_two_pow_36 {a b n : Nat} (ha : a < 2 ^ 16) (hb : b < 2 ^ 16) (hn : n ≤ 16) :
    a * b * n < 2 ^ 36 :=
  calc a * b * n ≤ a * b * 16 := Nat.mul_le_mul_left _ hn
    _ < 2 ^ 16 * 2 ^ 16 * 16 := Nat.mul_lt_mul_of_pos_right (Nat.mul_lt_mul'' ha hb) (by decide)
    _ = 2 ^ 36 := by norm_num

/-- An image of 16-bit dimensions has fewer than 2^36 bytes, and an image of blocks no more blocks than pixels. -/
theorem calculateImageSize_lt {w h n : Nat} {f : Format} (hw : w < 2 ^ 16) (hh : h < 2 ^ 16)
    (hn : calculateImageSize w h f = some n) : n < 2 ^ 36 := by
  rcases Format.bsize_or_bpp_or_unknown f with ⟨bs, hb, hle⟩ | ⟨k, hb, hle⟩ | ⟨c, rfl⟩
  · rw [calculateImageSize_of_bsize hb] at hn
    cases hn
    exact mul_mul_lt_two_pow_36 (by omega) (by omega) hle
  · rw [calculateImageSize_of_bpp hb] at hn
    cases hn
    exact mul_mul_lt_two_pow_36 (by omega) (by omega) hle
  · cases hn

/-! ### The command SIZE -/

/-- `SIZE` fails on its format exactly when the format has no image size, whatever the dimensions (R582, R620). -/
theorem formatFail_size (w h : Nat) (f : Format) :
    formatFail (.size f) = (calculateImageSize w h f).isNone := by
  rcases Format.bsize_or_bpp_or_unknown f with ⟨bs, hb, -⟩ | ⟨n, hb, -⟩ | ⟨c, rfl⟩
  · simp [formatFail, hb, calculateImageSize_of_bsize hb]
  · simp [formatFail, hb, calculateImageSize_of_bpp hb]
  · rfl

/-- The empty spans of `SIZE` are clear at every address (R214, R215). -/
theorem spansClear_size (f : Format) (sn : Snap) : SpansClear (spansOf (.size f) sn) :=
  ⟨sn.src.isLt.le, sn.dst.isLt.le, .inl rfl⟩

/-- The format is all that `SIZE` checks (R620). -/
theorem check_size (f : Format) (sn : Snap) :
    check (.size f) sn = if formatFail (.size f) then some .unsupportedFormat else none := by
  obtain ⟨hrange, hoverlap⟩ := (SpansClear_iff _).mp (spansClear_size f sn)
  simp [check, dimsFail, hrange, hoverlap]

/-- A command that a check stops ends before any access (R602, R610). -/
theorem errsBeforeAccess_of_check {i : Instr} {s : State} {e : ErrCode} (h : check i s.eng.snap = some e) :
    ErrsBeforeAccess i s e :=
  ⟨raiseError e s, by rw [exec_eq_perform, perform_of_check h], raiseError_completed e s, rfl, rfl⟩

end Sys2Proof.Machine
end

section
/-! The statements about the image size and the command SIZE, settled. -/

namespace Sys2Proof.Proofs

open Sys2Proof Sys2Proof.Machine

/-- Settles O26: only the format can fail a check of SIZE, and its job makes no access that `MEM_OK` could refuse. -/
theorem sizeGivesTheImageSize : Obligations.SizeGivesTheImageSize := by
  refine fun s f => ⟨fun n hn => ?sized, ?unknown⟩
  case sized =>
    have hc : check (.size f) s.eng.snap = none := by
      rw [check_size, formatFail_size s.eng.snap.width.toNat s.eng.snap.height.toNat, hn]
      rfl
    have hresult : (sizeJob f s).result = n := by rw [sizeJob, imageBytes, hn, Option.getD_some]
    obtain ⟨hr, hw⟩ := accepted_size s.params f s.eng.snap
    rw [← hresult]
    exact completesOk_of_accepted rfl hc hr hw rfl
  case unknown =>
    rintro c rfl
    exact errsBeforeAccess_of_check (check_size (.unknown c) s.eng.snap)

/-- Settles O27: a block format counts blocks and a pixel format pixels, of the table's sizes. -/
theorem imageSizeFormula : Obligations.ImageSizeFormula := by
  refine fun w h f => ⟨fun hf => ?blocks8, fun hf => ?blocks16, fun n hmem => ?table,
    fun n hb => calculateImageSize_of_bpp hb, ?unknown, fun n hn => calculateImageSize_lt w.isLt h.isLt hn⟩
  case blocks8 =>
    exact calculateImageSize_of_bsize ((show ∀ g ∈ _, Format.bsize g = some 8 by decide) f hf)
  case blocks16 =>
    exact calculateImageSize_of_bsize ((show ∀ g ∈ _, Format.bsize g = some 16 by decide) f hf)
  case table =>
    have hb : Format.bpp f = some n := (show ∀ p ∈ _, Format.bpp p.1 = some p.2 by decide) (f, n) hmem
    exact ⟨hb, calculateImageSize_of_bpp hb⟩
  case unknown =>
    rintro c rfl
    exact calculateImageSize_unknown _ _ c

end Sys2Proof.Proofs
end

section
/-! SUPPORT. The check order (R620): what makes each check fail and the error that is then reported; and that neither
`MEM_OK` nor the soft warning depends on the contents of the buffer memory (R602). -/

namespace Sys2Proof.Machine

open Sys2Proof

/-! ### What makes a check fail -/

/-- Step 2 of the check order (R620), as the commands it concerns. -/
theorem dimsFail_iff (i : Instr) (sn : Snap) :
    dimsFail i sn = true ↔
      (i = .mipDown ∨ ∃ f, i = .encImage f ∨ i = .decImage f) ∧ (sn.width = 0 ∨ sn.height = 0) := by
  cases i <;> simp [dimsFail]

/-- The formats `ENC_IMAGE` encodes, as the list of R511. -/
theorem Format.encodable_iff (f : Format) :
    Format.encodable f = true ↔ f ∈ [Format.rgba8888, .rgb888, .bgr888, .bgra8888, .dxt1, .dxt5] := by
  cases f <;> simp [Format.encodable]

/-- `SIZE` fails on its format exactly when the code names none (R582, R620). -/
theorem formatFail_size_iff (f : Format) : formatFail (.size f) = true ↔ ∃ c, f = .unknown c := by
  cases f <;> simp [formatFail, Format.bsize, Format.bpp]

/-- Step 3 of the check order (R620), as the commands it concerns. -/
theorem formatFail_iff (i : Instr) :
    formatFail i = true ↔
      ∃ f, (i = .encImage f ∧ f ∉ [Format.rgba8888, .rgb888, .bgr888, .bgra8888, .dxt1, .dxt5]) ∨
        (i = .size f ∧ ∃ c, f = .unknown c) := by
  cases i with
  | encImage f => simp [formatFail, ← Bool.not_eq_true, Format.encodable_iff]
  | size f => simp [formatFail_size_iff]
  | _ => simp [formatFail]

theorem Spans.outOfRange_iff (p : Spans) :
    p.outOfRange = true ↔ p.src + p.slen > 2 ^ 32 ∨ p.dst + p.dlen > 2 ^ 32 := decide_eq_true_iff

theorem Spans.overlap_iff (p : Spans) :
    p.overlap = true ↔ p.slen > 0 ∧ p.dlen > 0 ∧ p.src < p.dst + p.dlen ∧ p.dst < p.src + p.slen := decide_eq_true_iff

/-! ### The first check that fails is the one reported -/

section CheckOrder
variable {i : Instr} {sn : Snap}

theorem check_of_dimsFail (hd : dimsFail i sn = true) : check i sn = some .dims := if_pos hd

theorem check_of_formatFail (hd : ¬dimsFail i sn = true) (hf : formatFail i = true) :
    check i sn = some .unsupportedFormat := by
  rw [check, if_neg hd, if_pos hf]

theorem check_of_outOfRange (hd : ¬dimsFail i sn = true) (hf : ¬formatFail i = true)
    (hr : (spansOf i sn).outOfRange = true) : check i sn = some .range := by
  rw [check, if_neg hd, if_neg hf, if_pos hr]

theorem check_of_overlap (hd : ¬dimsFail i sn = true) (hf : ¬formatFail i = true)
    (hr : ¬(spansOf i sn).outOfRange = true) (ho : (spansOf i sn).overlap = true) : check i sn = some .overlap := by
  rw [check, if_neg hd, if_neg hf, if_neg hr, if_pos ho]

end CheckOrder

/-! ### Errors and the soft warning over another buffer memory -/

/-- The format decides the soft warning, the contents of the buffer memory do not (R512, R602). -/
theorem jobOf_warn_withMem (i : Instr) (s : State) (m : Memory) :
    (jobOf i { s with mem := m }).warn = (jobOf i s).warn := by
  by_cases hi : ∃ f, i = .decImage f
  · obtain ⟨f, rfl⟩ := hi
    exact (decodeImageJob_warn f { s with mem := m }).trans (decodeImageJob_warn f s).symm
  · have hw : ∀ u, (jobOf i u).warn = false := fun u => Bool.eq_false_iff.mpr (mt jobOf_warn hi)
    rw [hw, hw]

/-- `MEM_OK` is asked of addresses that the snapshot fixes, whatever the buffer memory holds there (R216). -/
theorem accessOk_jobOf_withMem {i : Instr} {s : State} (hc : check i s.eng.snap = none) (m : Memory) :
    (jobOf i { s with mem := m }).accessOk s.params = (jobOf i s).accessOk s.params :=
  Bool.eq_iff_iff.mpr ((accessOk_jobOf_iff (s := { s with mem := m }) hc).trans (accessOk_jobOf_iff hc).symm)

end Sys2Proof.Machine
end

section
/-! The statements about the errors of a command, settled. -/

namespace Sys2Proof.Proofs

open Sys2Proof Sys2Proof.Machine

/-- Settles O12: the failing condition of each check is the model's, and a check that stops a command comes before
any access. -/
theorem checksReportTheFirstFailure : Obligations.ChecksReportTheFirstFailure := by
  intro i s
  simp only [← dimsFail_iff, ← formatFail_iff, ← Spans.outOfRange_iff, ← Spans.overlap_iff]
  exact ⟨fun hd => errsBeforeAccess_of_check (check_of_dimsFail hd),
    fun hd hf => errsBeforeAccess_of_check (check_of_formatFail hd hf),
    fun hd hf hr => errsBeforeAccess_of_check (check_of_outOfRange hd hf hr),
    fun hd hf hr ho => errsBeforeAccess_of_check (check_of_overlap hd hf hr ho)⟩

/-- Settles O13: over the other memory a command takes the same one of the three ways to end, since its checks and
`MEM_OK` read no contents, and an accepted job has the same warning. -/
theorem noContentRaisesAnError : Obligations.NoContentRaisesAnError := by
  intro i s m t t' ht ht'
  rw [exec_eq_perform] at ht ht'
  rcases perform_cases i (jobOf i s) s with ⟨e, hc, he⟩ | ⟨hc, ha, he⟩ | ⟨hc, ha, he⟩ <;> rw [he] at ht <;> cases ht
  case inl =>
    rw [perform_of_check (s := { s with mem := m }) hc] at ht'
    cases ht'
    rfl
  case inr.inl =>
    rw [perform_of_ok (s := { s with mem := m }) hc ((accessOk_jobOf_withMem hc m).trans ha)] at ht'
    cases ht'
    rw [(jobDone_completed _ _).status, (jobDone_completed _ _).status, jobOf_warn_withMem]
  case inr.inr =>
    rw [perform_of_denied (s := { s with mem := m }) hc ((accessOk_jobOf_withMem hc m).trans ha)] at ht'
    cases ht'
    rfl

end Sys2Proof.Proofs
end

section
/-! SUPPORT. Reset (R700, R701), the spans owed (R720) and the end of a command in flight (R730): what either kind of
reset leaves, which host actions take a span off those owed, and what a turn of the host does to a command in flight. -/

namespace Sys2Proof.Machine

open Sys2Proof

/-! ### Reset -/

theorem writeReg_ctrl_of_set {w : Word} (h : w.getLsbD 0 = true) (s : State) : writeReg .ctrl w s = resetBlock s := by
  simp only [writeReg, h, if_true]

/-- A write of a register resets the block, or is none of CTRL with bit 0 set (R113). -/
theorem writeReg_reset_or (r : Reg) (w : Word) (s : State) :
    (r = .ctrl ∧ w.getLsbD 0 = true ∧ writeReg r w s = resetBlock s) ∨ (r = .ctrl → w.getLsbD 0 = false) := by
  by_cases h : r = .ctrl ∧ w.getLsbD 0 = true
  · obtain ⟨rfl, hw⟩ := h
    exact .inl ⟨rfl, hw, writeReg_ctrl_of_set hw s⟩
  · exact .inr fun hr => Bool.eq_false_iff.mpr fun hw => h ⟨hr, hw⟩

/-- Either kind of reset, on the host's turn, resets the block in one step (R700). -/
theorem step_reset {s : State} {rest : List HostAction} {v : Word} (ht : HostsTurn s) (hv : v.getLsbD 0 = true)
    (hq : s.host.queue = .reset :: rest ∨
      s.host.queue = .busWrite (s.params.regBase + 0x08) (leBytes v.toNat 4) :: rest) :
    step s = .next (resetBlock (s.onTurn rest)) := by
  rcases hq with hq | hq
  · rw [step_hostAct ht hq, hostAct]
  · rw [step_busWrite_word (off := 0x08) ht (by decide) rfl hq]
    exact congrArg _ (writeReg_ctrl_of_set hv _)

theorem resetBlock_statusWord (s : State) : (resetBlock s).statusWord = 0 := by
  simp only [State.statusWord, resetBlock_busy, resetBlock_status]
  rfl

/-- After a reset every register of the window reads 0 (R700). -/
theorem readReg_resetBlock (r : Reg) (s : State) : readReg r (resetBlock s) = 0 := by
  cases r with
  | status => exact resetBlock_statusWord s
  | ctrl | reserved => rfl
  | _ => simp only [readReg, resetBlock_regs]; rfl

theorem resetBlock_mem_of_idle {s : State} (h : s.eng.state = .idle) : (resetBlock s).mem = s.mem := by
  rw [resetBlock_mem, s.not_busy_iff.mpr h]
  rfl

theorem wordSpans_of_decode {sn : Snap} {i : Instr} (h : decode sn.cmd = some i) : wordSpans sn = spansOf i sn := by
  simp only [wordSpans, h]

theorem wordSpans_dlen_of_illegal {sn : Snap} (h : decode sn.cmd = none) : (wordSpans sn).dlen = 0 := by
  simp only [wordSpans, h]

/-- A reset of a legal command in flight leaves free values in its destination span (R701). -/
theorem read_resetBlock_of_busy {s : State} {i : Instr} {a : Nat} (hb : s.eng.state = .busy)
    (hd : decode s.eng.snap.cmd = some i) (ha : a < 2 ^ 32) :
    (resetBlock s).mem.read a =
      if (spansOf i s.eng.snap).inDst a then Config.freeByte (s.draws + (a - s.eng.snap.dst.toNat))
      else s.mem.read a := by
  rw [resetBlock_mem, if_pos (s.busy_iff.mpr hb), wordSpans_of_decode hd, scrambleDst_mem, Memory.read_scramble,
    spansOf_dst]
  simp only [Spans.inDst_iff, ha, and_true, spansOf_dst]

/-- A reset of an illegal word in flight leaves the buffer memory alone (R305, R701). -/
theorem resetBlock_mem_of_illegal {s : State} (hd : decode s.eng.snap.cmd = none) : (resetBlock s).mem = s.mem := by
  rw [resetBlock_mem, scrambleDst_mem, wordSpans_dlen_of_illegal hd]
  exact ite_self _

/-! ### The spans owed -/

theorem spanHazardAt_iff (s : State) (a : Nat) :
    spanHazardAt s a = true ↔
      ∃ p ∈ s.host.owed, (p.src ≤ a ∧ a < p.src + p.slen) ∨ (p.dst ≤ a ∧ a < p.dst + p.dlen) := by
  simp only [spanHazardAt, List.any_eq_true, Bool.or_eq_true, Spans.inSrc_iff, Spans.inDst_iff]

/-- The three answers to a host access to the buffer memory, by the address (R210, R720). -/
theorem hostMemAccess_answers (a : Nat) (eff s : State) :
    (2 ^ 32 ≤ a → hostMemAccess a eff s = .fault .noSuchAddress) ∧
      (a < 2 ^ 32 → spanHazardAt s a = true → hostMemAccess a eff s = .refused .spanHazard) ∧
      (a < 2 ^ 32 → ¬spanHazardAt s a = true → hostMemAccess a eff s = .next eff) := by
  refine ⟨fun h => if_pos h, fun h hh => ?_, fun h hh => ?_⟩
  · rw [hostMemAccess, if_neg (by omega), if_pos hh]
  · rw [hostMemAccess, if_neg (by omega), if_neg hh]

/-- An access the window defines is one of 4 bytes at the offset it reaches. -/
theorem accessOffset_eq_some {p : Config.Params} {addr n off : Nat} (h : accessOffset p addr n = some off) :
    addr = p.regBase + off ∧ n = 4 := by
  simp only [accessOffset, inWindow, Option.ite_none_right_eq_some, Option.some.injEq, Bool.and_eq_true,
    decide_eq_true_eq] at h
  omega

theorem regAt_eq_ctrl_iff (off : Nat) : regAt off = .ctrl ↔ off = 0x08 := by
  unfold regAt
  split <;> simp_all

theorem mod_two_eq_one_of_getLsbD_ofNat {n : Nat} (h : (BitVec.ofNat 32 n).getLsbD 0 = true) : n % 2 = 1 := by
  by_contra hne
  rw [getLsbD_zero_ofNat_of_even (by omega)] at h
  cases h

/-- A register write that is no reset leaves every span owed; an accepted command adds its own (R720). -/
theorem writeReg_owed {r : Reg} {w : Word} (hc : r = .ctrl → w.getLsbD 0 = false) (s : State) :
    s.host.owed ⊆ (writeReg r w s).host.owed := by
  cases r with
  | cmd =>
    cases hs : s.eng.state with
    | idle => rw [writeReg, writeCmd_idle hs]; exact List.subset_cons_self _ _
    | busy => rw [writeReg, writeCmd_busy hs]; exact List.Subset.refl _
  | ctrl => rw [writeReg_ctrl_of_clear (hc rfl)]; exact List.Subset.refl _
  | _ => exact List.Subset.refl _

/-- A store leaves every span owed, unless it resets the block. -/
theorem busWrite_owed (addr : Nat) (data : List Byte) (s : State) :
    s.host.owed ⊆ (busWrite addr data s).host.owed ∨
      (addr = s.params.regBase + 0x08 ∧ data.length = 4 ∧ leNat data % 2 = 1) := by
  unfold busWrite
  split
  · next off hoff =>
    obtain ⟨haddr, hlen⟩ := accessOffset_eq_some hoff
    rcases writeReg_reset_or (regAt off) (BitVec.ofNat 32 (leNat data)) s with ⟨hr, hbit, -⟩ | hc
    · obtain rfl := (regAt_eq_ctrl_iff off).mp hr
      exact .inr ⟨haddr, hlen, mod_two_eq_one_of_getLsbD_ofNat hbit⟩
    · exact .inl (writeReg_owed hc s)
  · exact .inl (List.Subset.refl _)

/-- A load leaves every span owed, unless it is an aligned load of STATUS that shows an idle engine. -/
theorem busRead_owed (addr n : Nat) (s : State) :
    s.host.owed ⊆ (busRead addr n s).host.owed ∨
      (s.busy = false ∧ addr = s.params.regBase + 0x04 ∧ n = 4) := by
  unfold busRead
  split
  · next off hoff =>
    obtain ⟨haddr, hn⟩ := accessOffset_eq_some hoff
    cases hends : readEnds (regAt off) s with
    | true =>
      obtain ⟨rfl, hidle⟩ := (readEnds_regAt off s).mp hends
      exact .inr ⟨hidle, haddr, hn⟩
    | false => exact .inl (List.Subset.refl _)
  · split <;> exact .inl (List.Subset.refl _)

/-- The host actions that can take a span off those owed (R720, assumption 8): a STATUS load that shows an idle engine,
and a reset of either kind. -/
def EndsHandOver (act : HostAction) (s : State) : Prop :=
  (s.eng.state = .idle ∧ act = .busRead (s.params.regBase + 0x04) 4) ∨ act = .reset ∨
    ∃ data, data.length = 4 ∧ leNat data % 2 = 1 ∧ act = .busWrite (s.params.regBase + 0x08) data

theorem hostAct_owed {act : HostAction} {s t : State} (h : hostAct act s = .next t) :
    s.host.owed ⊆ t.host.owed ∨ EndsHandOver act s := by
  cases act with
  | pause => cases h; exact .inl (List.Subset.refl _)
  | reset => exact .inr (.inr (.inl rfl))
  | busWrite addr data =>
    cases h
    refine (busWrite_owed addr data s).imp id ?_
    rintro ⟨rfl, hlen, hodd⟩
    exact .inr (.inr ⟨data, hlen, hodd, rfl⟩)
  | busRead addr n =>
    cases h
    refine (busRead_owed addr n s).imp id ?_
    rintro ⟨hidle, rfl, rfl⟩
    exact .inl ⟨s.not_busy_iff.mp hidle, rfl⟩
  | memWrite a b | memRead a =>
    rcases hostMemAccess_cases a _ s with ⟨-, e⟩ | ⟨-, -, e⟩ | ⟨-, -, e⟩ <;> rw [hostAct, e] at h <;> cases h
    exact .inl (List.Subset.refl _)

theorem endsHandOver_onTurn {act : HostAction} {s : State} {rest : List HostAction} :
    EndsHandOver act (s.onTurn rest) ↔ EndsHandOver act s := by
  simp only [EndsHandOver, State.onTurn_engState, State.onTurn_params]

/-! ### The engine's turn -/

/-- The engine's turn completes the command in flight, whatever its word (R172, R305). -/
theorem engineTurn_completes (s : State) :
    ∃ t code warn result, engineTurn s = .next t ∧ Completed s t code warn result := by
  cases hd : decode s.eng.snap.cmd with
  | none => exact ⟨_, _, _, _, engineTurn_of_illegal hd, raiseError_completed .illegalOp s⟩
  | some i =>
    obtain ⟨t, code, warn, result, ht, hc, -⟩ := exec_completes i s
    exact ⟨t, code, warn, result, (engineTurn_of_decode hd).trans ht, hc⟩

section Completion
variable {s t : State} {code : ErrCode} {warn : Bool} {result : DWord}

theorem Completed.idle (h : Completed s t code warn result) : t.eng.state = .idle := by rw [h.eng]

theorem Completed.not_busy (h : Completed s t code warn result) : t.busy = false := t.not_busy_iff.mpr h.idle

/-- STATUS after a completion without WARN and LOST: DONE and the error code (R112, R173). -/
theorem Completed.statusWord (h : Completed s t code false result) (hl : s.status.lost = false) :
    t.statusWord = 2 ||| (code.code.setWidth 32 <<< 8) := by
  rw [State.statusWord, h.not_busy, h.status, hl]
  cases code <;> rfl

end Completion

/-- A step off the host's turn is the engine's, which completes its command. -/
theorem hostsTurn_or_completes (s : State) :
    HostsTurn s ∨ ∃ t code warn result, step s = .next t ∧ Completed s t code warn result := by
  rcases step_cases s with ⟨hi, -⟩ | ⟨n, -, hp, -⟩ | ⟨-, -, he⟩
  · exact .inl (.inl hi)
  · exact .inl (.inr ⟨n, hp⟩)
  · exact .inr (he ▸ engineTurn_completes s)

/-- Only a host action that ends the hand-over takes a span off those owed. -/
theorem step_owed {s t : State} (h : step s = .next t) :
    s.host.owed ⊆ t.host.owed ∨ HostsTurn s ∧ ∃ act rest, s.host.queue = act :: rest ∧ EndsHandOver act s := by
  rcases hostsTurn_or_completes s with ht | ⟨u, _, _, _, hu, hc⟩
  · cases hq : s.host.queue with
    | nil =>
      rw [step_hostsTurn ht, hostTurn_nil (by rw [State.cycled_host, hq])] at h
      cases h
      rw [State.cycled_host]
      exact .inl (List.Subset.refl _)
    | cons act rest =>
      rw [step_hostAct ht hq] at h
      exact (hostAct_owed h).imp id fun he => ⟨ht, act, rest, rfl, endsHandOver_onTurn.mp he⟩
  · rw [hu] at h
    cases h
    exact .inl (by rw [hc.host]; exact List.Subset.refl _)

/-! ### The end of a command in flight -/

/-- A host action leaves a command in flight as it is, or resets the block. -/
theorem hostAct_of_busy {act : HostAction} {s t : State} (hb : s.eng.state = .busy) (h : hostAct act s = .next t) :
    t.eng = s.eng ∨ t.busy = false := by
  rcases hostAct_next h with rfl | rfl | ⟨r, w, rfl⟩ | ⟨addr, n, rfl⟩ | ⟨a, b, -, -, rfl⟩ | ⟨a, rfl⟩
  case inr.inr.inl =>
    rcases writeReg_reset_or r w s with ⟨-, -, hreset⟩ | hc
    · exact .inr (by rw [hreset, resetBlock_busy])
    · exact .inl (writeReg_eng_mem_of_busy hb hc).1
  case inr.inl => exact .inr (resetBlock_busy s)
  case inr.inr.inr.inl => exact .inl (by rw [busRead_eq])
  all_goals exact .inl rfl

/-- A turn of the host takes one cycle from a command that stays in flight. -/
theorem step_busy_progress {s t : State} {n : Nat} (hb : s.eng.state = .busy) (hp : s.eng.progress = n + 1)
    (h : step s = .next t) (ht : t.eng.state = .busy) : t.eng.progress = n := by
  cases hq : s.host.queue with
  | nil =>
    rw [step_busy_succ hb hp, hostTurn_nil (by exact hq)] at h
    cases h
    rfl
  | cons act rest =>
    rw [step_hostAct (.inr ⟨n, hp⟩) hq] at h
    rcases hostAct_of_busy ((s.onTurn_engState rest).trans hb) h with heng | hidle
    · rw [heng, State.onTurn, State.cycled_busy_succ hb hp]
    · rw [t.busy_iff.mpr ht] at hidle
      cases hidle

theorem coreRun_succ_eq_next {M : Host.Core} {s t : M.State} {k : Nat} (h : M.run (k + 1) s = .next t) :
    ∃ u, M.step s = .next u ∧ M.run k u = .next t := by
  cases hs : M.step s with
  | next u => exact ⟨u, rfl, (coreRun_succ hs).symm.trans h⟩
  | fault r | refused r => simp [Host.Core.run, hs] at h

/-- A run takes its first step and goes on from there. -/
theorem run_succ_eq_next {s t : State} {k : Nat} (h : Sys2Proof.core.run (k + 1) s = .next t) :
    ∃ u, step s = .next u ∧ Sys2Proof.core.run k u = .next t := coreRun_succ_eq_next (M := Sys2Proof.core) h

/-- The run of one step is over when no next state of the step is busy. -/
theorem run_one_not_busy {s : State} (h : ∀ u, step s = .next u → u.busy = false) :
    ∀ t, Sys2Proof.core.run 1 s = .next t → t.busy = false := by
  intro t ht
  obtain ⟨u, hu, hrun⟩ := run_succ_eq_next ht
  cases hrun
  exact h t hu

/-- A command in flight is over within a step more than the cycles it has left, by induction on those (R730). -/
theorem exists_run_not_busy {n : Nat} {s : State} (hb : s.eng.state = .busy) (hp : s.eng.progress = n) :
    ∃ k, k ≤ n + 1 ∧ ∀ t, Sys2Proof.core.run k s = .next t → t.busy = false := by
  induction n generalizing s with
  | zero =>
    refine ⟨1, le_rfl, run_one_not_busy fun u hu => ?_⟩
    obtain ⟨v, _, _, _, hv, hc⟩ := engineTurn_completes s
    rw [step_busy_zero hb hp, hv] at hu
    cases hu
    exact hc.not_busy
  | succ n ih =>
    by_cases hflight : ∃ u, step s = .next u ∧ u.eng.state = .busy
    · obtain ⟨u, hu, hub⟩ := hflight
      obtain ⟨k, hk, hrun⟩ := ih hub (step_busy_progress hb hp hu hub)
      exact ⟨k + 1, by omega, by rwa [run_succ_of_step hu]⟩
    · refine ⟨1, by omega, run_one_not_busy fun u hu => ?_⟩
      exact Bool.eq_false_iff.mpr fun hub => hflight ⟨u, hu, u.busy_iff.mp hub⟩

/-- An idle engine and a host without actions change nothing (R645). -/
theorem run_quiet {s : State} (hi : s.eng.state = .idle) (hq : s.host.queue = []) (k : Nat) :
    Sys2Proof.core.run k s = .next s := by
  induction k with
  | zero => rfl
  | succ k ih => rw [run_succ_of_step ((step_idle hi).trans (hostTurn_nil hq)), ih]

/-- With nothing in the host's queue a command in flight is completed in the step after its last cycle (R730). -/
theorem run_completes {n : Nat} {s : State} (hb : s.eng.state = .busy) (hp : s.eng.progress = n)
    (hq : s.host.queue = []) :
    ∃ t, Sys2Proof.core.run (n + 1) s = .next t ∧ t.eng.state = .idle ∧ t.status.done = true ∧ t.host.queue = [] := by
  induction n generalizing s with
  | zero =>
    obtain ⟨t, _, _, _, ht, hc⟩ := engineTurn_completes s
    exact ⟨t, run_succ_of_step ((step_busy_zero hb hp).trans ht), hc.idle, by rw [hc.status], by rw [hc.host, hq]⟩
  | succ n ih =>
    rw [run_succ_of_step ((step_busy_succ hb hp).trans (hostTurn_nil hq))]
    exact ih hb rfl hq

/-! ### Commands at reset defaults -/

/-- The checks of each command at reset defaults (R702): no dimension is positive, and the spans of a tile command
start at one address. -/
theorem check_reset (i : Instr) (w : Word) :
    check i (Regs.reset.snapshot w) =
      match i with
      | .encImage _ | .decImage _ | .mipDown => some .dims
      | .encDxt1Tile | .encDxt5Tile | .decDxt1Tile _ | .decDxt3Tile | .decDxt5Tile => some .overlap
      | .size f => if formatFail (.size f) then some .unsupportedFormat else none := by
  cases i with
  | encImage | decImage | mipDown => rfl
  | encDxt1Tile | encDxt5Tile | decDxt1Tile | decDxt3Tile | decDxt5Tile => rfl
  | size f => exact check_size f _

theorem tableWord_toNat (w : Word) : tableWord 32 w.toNat = w := by
  rw [tableWord, Nat.mod_eq_of_lt w.isLt, BitVec.ofNat_toNat, BitVec.setWidth_eq]

/-- An image without pixels has the size of a 1×1 image (R580). -/
theorem calculateImageSize_zero (f : Format) : calculateImageSize 0 0 f = calculateImageSize 1 1 f := rfl

/-- The size of a 1×1 image fits the low word of RESULT. -/
theorem calculateImageSize_one_le {n : Nat} {f : Format} (h : calculateImageSize 1 1 f = some n) : n ≤ 16 := by
  rcases Format.bsize_or_bpp_or_unknown f with ⟨bs, hb, hle⟩ | ⟨k, hb, hle⟩ | ⟨c, rfl⟩
  · rw [calculateImageSize_of_bsize hb] at h
    cases h
    simpa using hle
  · rw [calculateImageSize_of_bpp hb] at h
    cases h
    simpa using hle
  · cases h

end Sys2Proof.Machine
end

section
/-! The statements about reset, the spans owed and the end of a command in flight, settled. -/

namespace Sys2Proof.Proofs

open Sys2Proof Sys2Proof.Machine

/-- Settles O57: the answers of a host access by its address, the invariant's owed spans, acceptance, the STATUS load,
and the actions that end the hand-over. -/
theorem spanHazardIsRefused : Obligations.SpanHazardIsRefused := by
  refine ⟨?access, ?owed, ?accepted, ?statusLoad, ?kept⟩
  case access =>
    intro s act rest a b ht hact hq hit
    have hhit : hit ↔ spanHazardAt (s.onTurn rest) a = true := (spanHazardAt_iff (s.onTurn rest) a).symm
    rw [hhit, step_hostAct ht hq]
    rcases hact with rfl | rfl
    · obtain ⟨hfault, hrefused, hnext⟩ := hostMemAccess_answers a
        { s.onTurn rest with host := { (s.onTurn rest).host with memData := (s.onTurn rest).mem.read a } }
        (s.onTurn rest)
      exact ⟨hfault, hrefused, fun ha hh => ⟨_, hnext ha hh, fun _ => by simp, nofun⟩⟩
    · obtain ⟨hfault, hrefused, hnext⟩ := hostMemAccess_answers a
        { s.onTurn rest with mem := (s.onTurn rest).mem.write a b } (s.onTurn rest)
      refine ⟨hfault, hrefused, fun ha hh => ⟨_, hnext ha hh, nofun, fun _ => ⟨by simp, fun k hk => ?_⟩⟩⟩
      rw [Memory.read_write_other _ _ hk.symm, State.onTurn_mem]
  case owed =>
    intro s i hinv hb hd
    exact wordSpans_of_decode hd ▸ hinv.busy_owed hb
  case accepted =>
    intro s rest w i hi hd hq
    have hstep : step s = .next (writeCmd w (s.onTurn rest)) :=
      step_busWrite_word (off := 0) (.inl hi) (by decide) rfl hq
    rw [writeCmd_idle (s.onTurn_engState rest |>.trans hi)] at hstep
    exact ⟨_, hstep, congrArg (· :: s.host.owed) (wordSpans_of_decode hd)⟩
  case statusLoad =>
    intro s rest hi hq
    have hends : readEnds (regAt 0x04) s = true := (readEnds_regAt _ s).mpr ⟨rfl, s.not_busy_iff.mpr hi⟩
    exact ⟨_, step_busRead_word (.inl hi) (by decide) rfl hq, rfl, if_pos hends⟩
  case kept =>
    intro s t h
    rcases step_owed h with hsub | ⟨ht, act, rest, hq, hends⟩
    · exact .inl fun _ hp => hsub hp
    rcases hends with ⟨hi, rfl⟩ | rfl | ⟨data, hlen, hodd, rfl⟩
    · exact .inr (.inl ⟨hi, rest, hq⟩)
    · exact .inr (.inr ⟨ht, rest, .inl hq⟩)
    · exact .inr (.inr ⟨ht, rest, .inr ⟨data, hlen, hodd, hq⟩⟩)

/-- Settles O55: the reset scrambles the span of the word in flight, which is empty when the word is illegal. -/
theorem resetAbandonsTheCommandInFlight : Obligations.ResetAbandonsTheCommandInFlight := by
  intro s rest v n hb hp hv hq
  refine ⟨_, step_reset (.inr ⟨n, hp⟩) hv hq, rfl, resetBlock_statusWord _, rfl,
    fun i hd a ha => ?span, fun hd => ?illegal⟩
  case span =>
    rw [read_resetBlock_of_busy (by simpa using hb) (by simpa using hd) ha]
    simp
  case illegal =>
    rw [resetBlock_mem_of_illegal (by simpa using hd), State.onTurn_mem]

/-- Settles O58: each turn of the host takes a cycle from the command, and the engine's turn completes it. -/
theorem commandInFlightEnds : Obligations.CommandInFlightEnds :=
  fun s hb => exists_run_not_busy (s.busy_iff.mp hb) rfl

/-- Settles O59: no host action comes between, and none comes after. -/
theorem undisturbedCommandCompletes : Obligations.UndisturbedCommandCompletes := by
  intro s hb hq
  obtain ⟨t, hrun, hidle, hdone, hquiet⟩ := run_completes (s.busy_iff.mp hb) rfl hq
  exact ⟨t, hrun, t.not_busy_iff.mpr hidle, hdone, run_quiet hidle hquiet⟩

/-- Settles O7: the state after reset is what a reset of it gives. -/
theorem invariantAtReset : Obligations.InvariantAtReset :=
  inv_resetBlock (s := State.reset) rfl

/-- Settles O54: both kinds of reset are `resetBlock` on the host's turn. -/
theorem resetState : Obligations.ResetState := by
  intro s rest v hv ht hq
  refine ⟨_, step_reset ht hv hq, fun r => readReg_resetBlock r _, rfl, resetBlock_statusWord _, rfl,
    fun hi => ?mem, ?params, ?queue⟩
  case mem => rw [resetBlock_mem_of_idle (by simpa using hi), State.onTurn_mem]
  case params => rw [resetBlock_params, State.onTurn_params]
  case queue => rw [resetBlock_host, State.onTurn_host]

/-- Settles O56: a check stops every command but SIZE, whose dimensions count as 1. -/
theorem commandsAtResetDefaults : Obligations.CommandsAtResetDefaults := by
  intro i hwf s
  have hstep : step s = exec i s :=
    stepRunsDecodedCommand.2.2.2 State.reset _ i (by rw [decodeTableWord, tableWord_toNat, decode_encode hwf])
  have hcheck := check_reset i (tableWord 32 (encode i).toNat)
  have hstops : ∀ e, check i s.eng.snap = some e →
      ∃ t, step s = .next t ∧ t.mem = [] ∧ t.statusWord = 2 ||| (e.code.setWidth 32 <<< 8) := by
    intro e he
    obtain ⟨t, ht, hc, hm, -⟩ := errsBeforeAccess_of_check he
    exact ⟨t, hstep.trans ht, hm, hc.statusWord rfl⟩
  cases i with
  | encImage | decImage | mipDown => exact hstops .dims hcheck
  | encDxt1Tile | encDxt5Tile | decDxt1Tile | decDxt3Tile | decDxt5Tile => exact hstops .overlap hcheck
  | size f =>
    cases hn : calculateImageSize 1 1 f with
    | none =>
      obtain ⟨t, ht, hm, -⟩ :=
        hstops .unsupportedFormat (hcheck.trans (if_pos (by rw [formatFail_size 1 1, hn]; rfl)))
      exact ⟨t, ht, hm, fun n h => by rw [hn] at h; cases h⟩
    | some n =>
      obtain ⟨t, ht, hc, hm, -⟩ := (sizeGivesTheImageSize s f).1 n ((calculateImageSize_zero f).trans hn)
      refine ⟨t, hstep.trans ht, hm, fun m h => ?_⟩
      rw [hn] at h
      cases h
      have hle := calculateImageSize_one_le hn
      refine ⟨hc.statusWord rfl, ?_⟩
      rw [hc.regs, BitVec.extractLsb'_toNat, BitVec.toNat_ofNat]
      omega

end Sys2Proof.Proofs
end
